-- ==== Sys2Proof/Word.lean ====
section
/-! DEFINITION. The word types of the device's buses (spec/00_scope.md R6) and the three widths of a host access (spec/20_memory.md R63). -/

namespace Sys2Proof

/-- A byte is 8 bits (R6). -/
abbrev Byte := BitVec 8

/-- The 16-bit data of a host access (R63). -/
abbrev Half := BitVec 16

/-- A word of the PUMA bus and of the CmdFifo is 32 bits (R6). -/
abbrev Word := BitVec 32

/-- The three widths of a host access: "byte/word/dword read and write entry points" (R63). -/
inductive Width where
  | w1
  | w2
  | w4
deriving DecidableEq, Repr

/-- How many bytes an access of this width has (R63). -/
def Width.bytes : Width → Nat
  | .w1 => 1
  | .w2 => 2
  | .w4 => 4

end Sys2Proof
end

