-- ==== Sys2Proof/Syntax.lean ====
section
/-! DEFINITION. The operations of the device: one constructor of `Instr` per row of spec/opcode_table.json
(spec/30_encoding.md R90, R91 and R94). -/

namespace Sys2Proof

/-- A CmdFifo packet as its header slot says it (R93, R94). The two groups of address-word bits that no rule reads
(30:23 and 1:0) are kept, because they decide whether a slot is the all-zero no-op. -/
inductive Packet where
  /-- Both words of the slot are zero. -/
  | nop
  /-- A grouped header with the mask 0: logged and skipped. -/
  | rejected (hi : BitVec 8) (reg : BitVec 21) (lo : BitVec 2)
  /-- A grouped register write: base register `reg`, one data word per set bit of `mask`. -/
  | grouped (hi : BitVec 8) (reg : BitVec 21) (lo : BitVec 2) (mask : Word)
  /-- One register write. -/
  | single (hi : BitVec 8) (reg : BitVec 21) (lo : BitVec 2) (data : Word)
deriving DecidableEq, Repr

/-- The operations of R91, then the packets of R94. The operands are those of the table: a register-window offset `o`,
an aperture offset `off`, a configuration register number `reg`, a PUMA address `a` and a data value `v`. -/
inductive Instr where
  -- register window through the MMIO aperture (spec/40_regbank.md)
  | mmioR8 (o : BitVec 16)
  | mmioR16 (o : BitVec 16)
  | mmioR32 (o : BitVec 16)
  | mmioW8 (o : BitVec 16) (v : Byte)
  | mmioW16 (o : BitVec 16) (v : Half)
  | mmioW32 (o : BitVec 16) (v : Word)
  -- Linear aperture (spec/41_pci_aperture.md R164)
  | linR8 (off : Word)
  | linR16 (off : Word)
  | linR32 (off : Word)
  | linW8 (off : Word) (v : Byte)
  | linW16 (off : Word) (v : Half)
  | linW32 (off : Word) (v : Word)
  -- ROM aperture (R165)
  | romR8 (off : Word)
  | romR16 (off : Word)
  | romR32 (off : Word)
  | romW8 (off : Word) (v : Byte)
  | romW16 (off : Word) (v : Half)
  | romW32 (off : Word) (v : Word)
  -- Companion aperture (spec/42_bridge_puma.md R200)
  | compR32 (off : Word)
  | compW32 (off : Word) (v : Word)
  -- PCI configuration space of function 0 (R150, R152, R162)
  | cfgR8 (reg : BitVec 8)
  | cfgR16 (reg : BitVec 8)
  | cfgR32 (reg : BitVec 8)
  | cfgW8 (reg : BitVec 8) (v : Byte)
  | cfgW16 (reg : BitVec 8) (v : Half)
  | cfgW32 (reg : BitVec 8) (v : Word)
  -- the PUMA bus and the THP indirect access (R193, R194, R201, R202)
  | pumaR32 (a : Word)
  | pumaW32 (a : Word) (v : Word)
  | thpRd (a : Word)
  | thpWr (a : Word) (v : Word)
  -- events (R311, R282, R281)
  | reset
  | vsync
  | swapReq
  | swapPend
  -- the CmdFifo drain and its packets (spec/43_cmdfifo.md)
  | cfProcess
  | nop
  | wrgRejected (hi : BitVec 8) (reg : BitVec 21) (lo : BitVec 2)
  | wrg (hi : BitVec 8) (reg : BitVec 21) (lo : BitVec 2) (mask : Word)
  | wr (hi : BitVec 8) (reg : BitVec 21) (lo : BitVec 2) (data : Word)
deriving DecidableEq, Repr

/-- The operation a packet is. -/
def Packet.toInstr : Packet → Instr
  | .nop => .nop
  | .rejected hi reg lo => .wrgRejected hi reg lo
  | .grouped hi reg lo mask => .wrg hi reg lo mask
  | .single hi reg lo data => .wr hi reg lo data

/-- The packet an operation is, where it is one. -/
def Instr.packet? : Instr → Option Packet
  | .nop => some .nop
  | .wrgRejected hi reg lo => some (.rejected hi reg lo)
  | .wrg hi reg lo mask => some (.grouped hi reg lo mask)
  | .wr hi reg lo data => some (.single hi reg lo data)
  | .mmioR8 _ | .mmioR16 _ | .mmioR32 _ | .mmioW8 _ _ | .mmioW16 _ _ | .mmioW32 _ _
  | .linR8 _ | .linR16 _ | .linR32 _ | .linW8 _ _ | .linW16 _ _ | .linW32 _ _
  | .romR8 _ | .romR16 _ | .romR32 _ | .romW8 _ _ | .romW16 _ _ | .romW32 _ _
  | .compR32 _ | .compW32 _ _
  | .cfgR8 _ | .cfgR16 _ | .cfgR32 _ | .cfgW8 _ _ | .cfgW16 _ _ | .cfgW32 _ _
  | .pumaR32 _ | .pumaW32 _ _ | .thpRd _ | .thpWr _ _
  | .reset | .vsync | .swapReq | .swapPend | .cfProcess => none

end Sys2Proof
end

