-- ==== Sys2Proof/WellFormed.lean ====
section
/-! DEFINITION. Which terms of `Instr` stand for an operation. The operand types carry every width, so the only terms that
stand for nothing are packets that R94's priority order gives to another row. -/

namespace Sys2Proof

/-- A grouped packet has a nonzero mask (R94: a zero mask is the rejected header); a non-grouped packet is not the all-zero
slot (R94: that slot is the no-op). -/
def Packet.wellFormed : Packet → Bool
  | .nop => true
  | .rejected _ _ _ => true
  | .grouped _ _ _ mask => mask != 0
  | .single hi reg lo data => !(hi == 0 && reg == 0 && lo == 0 && data == 0)

/-- Every transaction and event is well formed: its operands' types are its operands' ranges. An offset whose bytes leave the
window, the aperture or the configuration space is a well-formed operation that the device model refuses (R64, R132, R162). -/
def Instr.wellFormed (i : Instr) : Bool :=
  match i.packet? with
  | none => true
  | some p => p.wellFormed

end Sys2Proof
end

