-- ==== Sys2Proof/Decode.lean ====
section
/-! DEFINITION. The decoder of the device's two instruction sources and the encoder. The first source is a stream of
operations, each named by the descriptor byte of spec/30_encoding.md R91 and followed by its operands (the operand layout is
the model's, log entry 3). The second is the CmdFifo ring, whose header slots R92 to R94 lay out. -/

namespace Sys2Proof

/-- Why bytes stand for no operation. -/
inductive DecodeError where
  /-- There is no byte. -/
  | empty
  /-- R91 gives the descriptor to no operation. -/
  | unknownDescriptor (d : Byte)
  /-- The bytes end inside the operands or the header slot. -/
  | truncated
deriving DecidableEq, Repr

/-- The little-endian half word of two bytes, the lower address first (R62). -/
def half (b0 b1 : Byte) : Half := (b1 ++ b0 : BitVec 16)

/-- The little-endian word of four bytes, the lowest address first (R62, R7 `Rd32LE`). -/
def word (b0 b1 b2 b3 : Byte) : Word := (b3 ++ b2 ++ b1 ++ b0 : BitVec 32)

/-- Byte `k` of a value: its bits `8k+7 : 8k` (R62). -/
def lane {w : Nat} (v : BitVec w) (k : Nat) : Byte := v.extractLsb' (8 * k) 8

/-- The lanes of a half word in increasing address order. -/
def halfBytes (v : Half) : List Byte := [lane v 0, lane v 1]

/-- The lanes of a word in increasing address order. -/
def wordBytes (v : Word) : List Byte := [lane v 0, lane v 1, lane v 2, lane v 3]

/-! ## Operands of the operation stream -/

/-- What a reader of operands answers: a value and the bytes after it. -/
abbrev Parsed (α : Type) := Except DecodeError (α × List Byte)

def takeByte : List Byte → Parsed Byte
  | b :: r => .ok (b, r)
  | [] => .error .truncated

def takeHalf : List Byte → Parsed Half
  | b0 :: b1 :: r => .ok (half b0 b1, r)
  | _ => .error .truncated

def takeWord : List Byte → Parsed Word
  | b0 :: b1 :: b2 :: b3 :: r => .ok (word b0 b1 b2 b3, r)
  | _ => .error .truncated

/-- An operation with one operand. -/
def oneArg {α : Type} (p : List Byte → Parsed α) (k : α → Instr) (bs : List Byte) : Parsed Instr :=
  match p bs with
  | .error e => .error e
  | .ok (a, r) => .ok (k a, r)

/-- An operation with two operands, the address first. -/
def twoArgs {α β : Type} (p : List Byte → Parsed α) (q : List Byte → Parsed β) (k : α → β → Instr)
    (bs : List Byte) : Parsed Instr :=
  match p bs with
  | .error e => .error e
  | .ok (a, r) => oneArg q (k a) r

/-- The operation that a descriptor byte names (R91's table), its operands taken from the bytes after it. -/
def decodeOperands (d : Byte) (bs : List Byte) : Parsed Instr :=
  match d.toNat with
  | 0x00 => oneArg takeHalf .mmioR8 bs
  | 0x02 => oneArg takeHalf .mmioR16 bs
  | 0x04 => oneArg takeHalf .mmioR32 bs
  | 0x08 => twoArgs takeHalf takeByte .mmioW8 bs
  | 0x0A => twoArgs takeHalf takeHalf .mmioW16 bs
  | 0x0C => twoArgs takeHalf takeWord .mmioW32 bs
  | 0x10 => oneArg takeWord .linR8 bs
  | 0x12 => oneArg takeWord .linR16 bs
  | 0x14 => oneArg takeWord .linR32 bs
  | 0x18 => twoArgs takeWord takeByte .linW8 bs
  | 0x1A => twoArgs takeWord takeHalf .linW16 bs
  | 0x1C => twoArgs takeWord takeWord .linW32 bs
  | 0x20 => oneArg takeWord .romR8 bs
  | 0x22 => oneArg takeWord .romR16 bs
  | 0x24 => oneArg takeWord .romR32 bs
  | 0x28 => twoArgs takeWord takeByte .romW8 bs
  | 0x2A => twoArgs takeWord takeHalf .romW16 bs
  | 0x2C => twoArgs takeWord takeWord .romW32 bs
  | 0x34 => oneArg takeWord .compR32 bs
  | 0x3C => twoArgs takeWord takeWord .compW32 bs
  | 0x40 => oneArg takeByte .cfgR8 bs
  | 0x42 => oneArg takeByte .cfgR16 bs
  | 0x44 => oneArg takeByte .cfgR32 bs
  | 0x48 => twoArgs takeByte takeByte .cfgW8 bs
  | 0x4A => twoArgs takeByte takeHalf .cfgW16 bs
  | 0x4C => twoArgs takeByte takeWord .cfgW32 bs
  | 0x54 => oneArg takeWord .pumaR32 bs
  | 0x5C => twoArgs takeWord takeWord .pumaW32 bs
  | 0x64 => oneArg takeWord .thpRd bs
  | 0x6C => twoArgs takeWord takeWord .thpWr bs
  | 0x70 => .ok (.reset, bs)
  | 0x72 => .ok (.vsync, bs)
  | 0x74 => .ok (.swapReq, bs)
  | 0x76 => .ok (.swapPend, bs)
  | 0x80 => .ok (.cfProcess, bs)
  | _ => .error (.unknownDescriptor d)

/-- The first operation of an operation stream, and the rest of the stream. -/
def decodeOp : List Byte → Parsed Instr
  | [] => .error .empty
  | d :: bs => decodeOperands d bs

/-! ## CmdFifo header slots -/

/-- Bits 30:23 of the address word, which no rule reads (R93). -/
def hdrHi (aw : Word) : BitVec 8 := aw.extractLsb' 23 8

/-- The register index, bits 22:2 of the address word (R93, R96). -/
def hdrReg (aw : Word) : BitVec 21 := aw.extractLsb' 2 21

/-- Bits 1:0 of the address word, which no rule reads (R93). -/
def hdrLo (aw : Word) : BitVec 2 := aw.extractLsb' 0 2

/-- R94's classification of a header slot, in its priority order. -/
def decodePacket (aw dw : Word) : Packet :=
  if aw = 0 ∧ dw = 0 then .nop
  else if aw.getLsbD 31 then
    if dw = 0 then .rejected (hdrHi aw) (hdrReg aw) (hdrLo aw)
    else .grouped (hdrHi aw) (hdrReg aw) (hdrLo aw) dw
  else .single (hdrHi aw) (hdrReg aw) (hdrLo aw) dw

/-- The packet of a header slot: the address word at the lower address, the data word after it (R92). -/
def decodeSlot : List Byte → Parsed Instr
  | a0 :: a1 :: a2 :: a3 :: d0 :: d1 :: d2 :: d3 :: r =>
      .ok ((decodePacket (word a0 a1 a2 a3) (word d0 d1 d2 d3)).toInstr, r)
  | [] => .error .empty
  | _ => .error .truncated

/-! ## The encoder -/

/-- The address word with group bit `g` (R93). -/
def header (g : BitVec 1) (hi : BitVec 8) (reg : BitVec 21) (lo : BitVec 2) : Word := (g ++ hi ++ reg ++ lo : BitVec 32)

/-- The address word and the data word of a packet's header slot (R92, R93). -/
def Packet.words : Packet → Word × Word
  | .nop => (0, 0)
  | .rejected hi reg lo => (header 1 hi reg lo, 0)
  | .grouped hi reg lo mask => (header 1 hi reg lo, mask)
  | .single hi reg lo data => (header 0 hi reg lo, data)

/-- The eight bytes of a packet's header slot (R92). -/
def Packet.slotBytes (p : Packet) : List Byte := wordBytes p.words.1 ++ wordBytes p.words.2

/-- The bytes of an operation: the descriptor of R91 and the operands for a transaction or an event, the header slot of R92 for
a packet (a grouped packet's data words lie in the ring after it, R95). -/
def encode : Instr → List Byte
  | .mmioR8 o => 0x00#8 :: halfBytes o
  | .mmioR16 o => 0x02#8 :: halfBytes o
  | .mmioR32 o => 0x04#8 :: halfBytes o
  | .mmioW8 o v => 0x08#8 :: (halfBytes o ++ [v])
  | .mmioW16 o v => 0x0A#8 :: (halfBytes o ++ halfBytes v)
  | .mmioW32 o v => 0x0C#8 :: (halfBytes o ++ wordBytes v)
  | .linR8 off => 0x10#8 :: wordBytes off
  | .linR16 off => 0x12#8 :: wordBytes off
  | .linR32 off => 0x14#8 :: wordBytes off
  | .linW8 off v => 0x18#8 :: (wordBytes off ++ [v])
  | .linW16 off v => 0x1A#8 :: (wordBytes off ++ halfBytes v)
  | .linW32 off v => 0x1C#8 :: (wordBytes off ++ wordBytes v)
  | .romR8 off => 0x20#8 :: wordBytes off
  | .romR16 off => 0x22#8 :: wordBytes off
  | .romR32 off => 0x24#8 :: wordBytes off
  | .romW8 off v => 0x28#8 :: (wordBytes off ++ [v])
  | .romW16 off v => 0x2A#8 :: (wordBytes off ++ halfBytes v)
  | .romW32 off v => 0x2C#8 :: (wordBytes off ++ wordBytes v)
  | .compR32 off => 0x34#8 :: wordBytes off
  | .compW32 off v => 0x3C#8 :: (wordBytes off ++ wordBytes v)
  | .cfgR8 reg => [0x40#8, reg]
  | .cfgR16 reg => [0x42#8, reg]
  | .cfgR32 reg => [0x44#8, reg]
  | .cfgW8 reg v => [0x48#8, reg, v]
  | .cfgW16 reg v => 0x4A#8 :: reg :: halfBytes v
  | .cfgW32 reg v => 0x4C#8 :: reg :: wordBytes v
  | .pumaR32 a => 0x54#8 :: wordBytes a
  | .pumaW32 a v => 0x5C#8 :: (wordBytes a ++ wordBytes v)
  | .thpRd a => 0x64#8 :: wordBytes a
  | .thpWr a v => 0x6C#8 :: (wordBytes a ++ wordBytes v)
  | .reset => [0x70#8]
  | .vsync => [0x72#8]
  | .swapReq => [0x74#8]
  | .swapPend => [0x76#8]
  | .cfProcess => [0x80#8]
  | .nop => Packet.nop.slotBytes
  | .wrgRejected hi reg lo => (Packet.rejected hi reg lo).slotBytes
  | .wrg hi reg lo mask => (Packet.grouped hi reg lo mask).slotBytes
  | .wr hi reg lo data => (Packet.single hi reg lo data).slotBytes

/-! ## The numbering of spec/opcode_table.json -/

/-- The first `n` bytes of a number, the least significant first. -/
def natBytes : Nat → Nat → List Byte
  | 0, _ => []
  | n + 1, w => BitVec.ofNat 8 w :: natBytes n (w / 256)

/-- The bytes of an instruction of `nbits` bits `w`: the bits above `nbits` are zero up to the longest instruction of its
source (nine bytes of the operation stream, a header slot and 32 data words of the ring). -/
def tableBytes (nbits w : Nat) : List Byte :=
  natBytes (if nbits ≤ 8 then 9 else 136) (w % 2 ^ nbits)

/-- What the decoder reads from an instruction of the opcode table: a row of 8 bits is a descriptor of the operation stream
(formats TXN8 and EVT8), a wider row a header slot of the ring (format CF64). -/
def decodeTableWord (nbits w : Nat) : Option Instr :=
  match (if nbits ≤ 8 then decodeOp (tableBytes nbits w) else decodeSlot (tableBytes nbits w)) with
  | .ok (i, _) => some i
  | .error _ => none

end Sys2Proof
end

