-- ==== Sys2Proof/Config.lean ====
section
/-! DEFINITION. The configuration record `Cfg` of spec/00_scope.md R4 (fixed for a device; no operation changes it), when it is
well formed (R5), and the one value the device takes from outside it that the record does not hold: the ROM image. -/

namespace Sys2Proof

/-- Bytes in the primary chip's register window, `WIN_SIZE` (R4: fixed at 65536). -/
def winSize : Nat := 65536

/-- The ROM image: `RomByte(off)` of R9, loaded by a collaborator outside the device (R165, R312). Nothing is known of its bytes
(log entry 9). -/
opaque Config.romByte : Nat → Byte

/-- The four apertures (R2, spec/10_state.md R20 item 3). -/
inductive Aperture where
  | linear
  | mmio
  | companion
  | rom
deriving DecidableEq, Repr

/-- One value per aperture. -/
structure PerAp (α : Type) where
  linear : α
  mmio : α
  companion : α
  rom : α
deriving DecidableEq, Repr

def PerAp.get {α : Type} (p : PerAp α) : Aperture → α
  | .linear => p.linear
  | .mmio => p.mmio
  | .companion => p.companion
  | .rom => p.rom

def PerAp.set {α : Type} (p : PerAp α) (ap : Aperture) (v : α) : PerAp α :=
  match ap with
  | .linear => { p with linear := v }
  | .mmio => { p with mmio := v }
  | .companion => { p with companion := v }
  | .rom => { p with rom := v }

/-- The apertures in the order the spec's loops take them (spec/41_pci_aperture.md R153, spec/70_reset_and_hazards.md R311). -/
def Aperture.all : List Aperture := [.linear, .mmio, .companion, .rom]

/-- `log2` of an aperture's base alignment, `AP_ALIGN` (R4, spec/30_encoding.md R99: k = 20, 16, 12, 16). -/
def Aperture.alignBits : Aperture → Nat
  | .linear => 20
  | .mmio => 16
  | .companion => 12
  | .rom => 16

/-- The nine register banks (spec/10_state.md R21). A bank carries no behaviour (spec/40_regbank.md R131). -/
inductive BankName where
  | setup
  | draw2d
  | videoOverlay
  | cursor
  | tile
  | draw3d
  | bridgeControl
  | bridgeDataHost
  | bridgeDataCompanion
deriving DecidableEq, Repr

def BankName.all : List BankName :=
  [.setup, .draw2d, .videoOverlay, .cursor, .tile, .draw3d, .bridgeControl, .bridgeDataHost, .bridgeDataCompanion]

/-- A bank's range of window offsets, both ends included (R4). -/
structure Bank where
  name : BankName
  lo : Nat
  hi : Nat
deriving DecidableEq, Repr

/-- The attributes of a triangle (spec/44_neighbour_engines.md R270). -/
inductive Attr where
  | red
  | green
  | blue
  | alpha
  | depth
  | weight
  | texU
  | texV
deriving DecidableEq, Repr

def Attr.all : List Attr := [.red, .green, .blue, .alpha, .depth, .weight, .texU, .texV]

/-- The field ids the spec names (spec/10_state.md R23, spec/44_neighbour_engines.md R270); every other field of the window is
`other` with a number of the configuration's. -/
inductive FieldId where
  | d2Ctrl
  | d3CmdSet
  | thpCtrl
  | cfCfg
  | thpAddr
  | thpData
  | cfBottom
  | cfTop
  | cfThresh
  | d2ClipL
  | d2ClipT
  | d2ClipR
  | d2ClipB
  | d2Rop
  | d2Pattern
  | d2ByteMask
  | d2SrcX
  | d2SrcY
  | d2DstX
  | d2DstY
  | d2SrcPitch
  | d2DstPitch
  | d2SizeX
  | d2SizeY
  | d2Fg
  | d2Bg
  | d3V0X
  | d3V0Y
  | d3V1X
  | d3V1Y
  | d3V2X
  | d3V2Y
  | d3Start (a : Attr)
  | d3Dx (a : Attr)
  | d3Dy (a : Attr)
  | d3DstBase
  | d3ZBase
  | d3TexBase
  | d3DstStride
  | d3ZStride
  | d3TexStride
  | other (n : Nat)
deriving DecidableEq, Repr

/-- The Draw2D job's fields (spec/44_neighbour_engines.md R270). -/
def d2JobFields : List FieldId :=
  [.d2ClipL, .d2ClipT, .d2ClipR, .d2ClipB, .d2Rop, .d2Pattern, .d2ByteMask, .d2SrcX, .d2SrcY, .d2DstX, .d2DstY,
   .d2SrcPitch, .d2DstPitch, .d2SizeX, .d2SizeY, .d2Fg, .d2Bg, .d2Ctrl]

/-- The Triangle3D job's fields, in R270's order, the control field last. -/
def d3JobFields : List FieldId :=
  [.d3V0X, .d3V0Y, .d3V1X, .d3V1Y, .d3V2X, .d3V2Y]
    ++ Attr.all.flatMap (fun a => [.d3Start a, .d3Dx a, .d3Dy a])
    ++ [.d3DstBase, .d3ZBase, .d3TexBase, .d3DstStride, .d3ZStride, .d3TexStride, .d3CmdSet]

/-- What a field is for (spec/10_state.md R22). -/
inductive FieldKind where
  | plain
  | trigD2
  | trigD3
  | trigThpCtl
  | trigCfCfg
  | thpAddr
  | thpData
  | cfBottom
  | cfTop
  | cfThresh
deriving DecidableEq, Repr

/-- The kind of a named field (spec/10_state.md R23): the two engine control fields, the bridge's and the CmdFifo's have their own,
every other field is plain (spec/44_neighbour_engines.md R270). -/
def FieldId.kind : FieldId → FieldKind
  | .d2Ctrl => .trigD2
  | .d3CmdSet => .trigD3
  | .thpCtrl => .trigThpCtl
  | .cfCfg => .trigCfCfg
  | .thpAddr => .thpAddr
  | .thpData => .thpData
  | .cfBottom => .cfBottom
  | .cfTop => .cfTop
  | .cfThresh => .cfThresh
  | _ => .plain

/-- A run of `width` window offsets from `base` with one little-endian value (spec/10_state.md R22). -/
structure RegField where
  id : FieldId
  base : Nat
  width : Nat
  kind : FieldKind
  /-- The field is one "affecting CRTC overflow/video-overlay fields" (R22, R130). -/
  recalc : Bool
deriving DecidableEq, Repr

/-- The offset of the field's last byte (spec/40_regbank.md R124). -/
def RegField.last (f : RegField) : Nat := f.base + f.width - 1

/-- The configuration record of R4. `WIN_SIZE`, `N_COMP_REGS` and `AP_ALIGN`, which R4 fixes, are `winSize`, the length of
`compReset` and `Aperture.alignBits`. -/
structure Cfg where
  /-- `BANKS` -/
  banks : List Bank
  /-- `FIELDS` -/
  fields : List RegField
  /-- `D2_START_BIT` -/
  d2StartBit : Nat
  /-- `D3_START_BIT` -/
  d3StartBit : Nat
  /-- `D2_CLIP_EN`: a bit number of `D2_CTRL` (R270) -/
  d2ClipEnBit : Nat
  /-- `ROP_FILL`: the value of `D2_ROP` that means fill (R270) -/
  ropFill : Nat
  /-- `THP_EN_BIT` -/
  thpEnBit : Nat
  /-- `CF_EN_BIT` -/
  cfEnBit : Nat
  /-- `CF_BOT_LO` -/
  cfBotLo : Nat
  /-- `CF_BOT_W` -/
  cfBotW : Nat
  /-- `CF_TOP_LO` -/
  cfTopLo : Nat
  /-- `CF_TOP_W` -/
  cfTopW : Nat
  /-- `CF_THR_LO` -/
  cfThrLo : Nat
  /-- `CF_THR_W` -/
  cfThrW : Nat
  /-- `CF_UNIT_BYTES` (R4: 8) -/
  cfUnitBytes : Nat
  /-- `CF_PAIR_ADV` (R4: 2) -/
  cfPairAdv : Nat
  /-- `CF_GROUP_HDR_ADV` (R4: 1) -/
  cfGroupHdrAdv : Nat
  /-- `VRAM_SIZE` -/
  vramSize : Nat
  /-- `FB_SIZE` -/
  fbSize : Nat
  /-- `REG_START` -/
  regStart : Nat
  /-- `REG_SIZE` -/
  regSize : Nat
  /-- `TEX_START` -/
  texStart : Nat
  /-- `TEX_SIZE` -/
  texSize : Nat
  /-- `GRAD_LO` -/
  gradLo : Nat
  /-- `GRAD_HI` -/
  gradHi : Nat
  /-- `COMPANION_PRESENT` -/
  companionPresent : Bool
  /-- `COMP_REG_RESET` -/
  compReset : Vector Word 256
  /-- `LINEAR_SIZE` -/
  linearSize : Nat
  /-- `COMPANION_SIZE` -/
  companionSize : Nat
  /-- `ROM_SIZE` -/
  romSize : Nat
  /-- `PROBE`: the four bytes read back while an aperture's BAR is zero, byte 0 lowest -/
  probe : PerAp Word
  /-- `CFG_CMD` -/
  cfgCmd : Nat
  /-- `CFG_BAR[Linear]`, `CFG_BAR[MMIO]`, `CFG_BAR[Companion]` and `CFG_ROM` -/
  cfgBar : PerAp Nat
  /-- `CFG_BAR_UNUSED` -/
  cfgBarUnused : Nat
  /-- `CFG_INTLINE` -/
  cfgIntLine : Nat
  /-- `CFG_INTPIN` -/
  cfgIntPin : Nat
  /-- `CMD_IO_BIT` -/
  cmdIoBit : Nat
  /-- `CMD_MEM_BIT` -/
  cmdMemBit : Nat
  /-- `CMD_BM_BIT` -/
  cmdBmBit : Nat
  /-- `CMD_WMASK` -/
  cmdWmask : Half
  /-- `CFG_RESET`: the bytes that are not 0, as a canonical list of (register number, byte) -/
  cfgReset : List Host.Cell
deriving DecidableEq, Repr

/-- `AP_SIZE` (R4; the MMIO size is `WIN_SIZE`, spec/20_memory.md R67). -/
def Cfg.apSize (c : Cfg) : Aperture → Nat
  | .linear => c.linearSize
  | .mmio => winSize
  | .companion => c.companionSize
  | .rom => c.romSize

/-! ## R5: a well-formed configuration -/

/-- Two offset ranges `[a, a + n)` and `[b, b + m)` that share no offset. -/
def apart (a n b m : Nat) : Bool := decide (a + n ≤ b ∨ b + m ≤ a)

/-- The fields of a kind. -/
def Cfg.ofKind (c : Cfg) (k : FieldKind) : List RegField := c.fields.filter (fun f => f.kind == k)

/-- R5 (1): banks inside the window, no two sharing an offset; R4: the names are the nine of R21. -/
def Cfg.banksOk (c : Cfg) : Bool :=
  c.banks.all (fun b => decide (b.lo ≤ b.hi ∧ b.hi < winSize))
    && decide (c.banks.Pairwise (fun a b => apart a.lo (a.hi + 1 - a.lo) b.lo (b.hi + 1 - b.lo) = true))
    && BankName.all.all (fun n => c.banks.any (fun b => b.name == n))

/-- R5 (2): fields inside the window, no two sharing an offset, each of width 1, 2, 3, 4 or 8. -/
def Cfg.fieldsOk (c : Cfg) : Bool :=
  c.fields.all (fun f => decide (f.base + f.width ≤ winSize) && [1, 2, 3, 4, 8].contains f.width)
    && decide (c.fields.Pairwise (fun f g => apart f.base f.width g.base g.width = true))

/-- R5 (3): one field of each of six kinds, at most one of three others, the THP pair four bytes wide. -/
def Cfg.kindsOk (c : Cfg) : Bool :=
  [FieldKind.trigD2, .trigD3, .trigThpCtl, .trigCfCfg, .thpAddr, .thpData].all (fun k => (c.ofKind k).length == 1)
    && [FieldKind.cfBottom, .cfTop, .cfThresh].all (fun k => decide ((c.ofKind k).length ≤ 1))
    && (c.ofKind .thpAddr).all (fun f => f.width == 4)
    && (c.ofKind .thpData).all (fun f => f.width == 4)

/-- R5 (4): start bits in the last byte, the enable bit and the packed components inside their fields, the components apart. -/
def Cfg.bitsOk (c : Cfg) : Bool :=
  (c.ofKind .trigD2).all (fun f => decide (8 * (f.width - 1) ≤ c.d2StartBit ∧ c.d2StartBit < 8 * f.width))
    && (c.ofKind .trigD3).all (fun f => decide (8 * (f.width - 1) ≤ c.d3StartBit ∧ c.d3StartBit < 8 * f.width))
    && (c.ofKind .trigThpCtl).all (fun f => decide (c.thpEnBit < 8 * f.width))
    && (c.ofKind .trigCfCfg).all (fun f => decide (c.cfEnBit < 8 * f.width ∧ c.cfBotLo + c.cfBotW ≤ 8 * f.width
        ∧ c.cfTopLo + c.cfTopW ≤ 8 * f.width ∧ c.cfThrLo + c.cfThrW ≤ 8 * f.width))
    && apart c.cfEnBit 1 c.cfBotLo c.cfBotW && apart c.cfEnBit 1 c.cfTopLo c.cfTopW && apart c.cfEnBit 1 c.cfThrLo c.cfThrW
    && apart c.cfBotLo c.cfBotW c.cfTopLo c.cfTopW && apart c.cfBotLo c.cfBotW c.cfThrLo c.cfThrW
    && apart c.cfTopLo c.cfTopW c.cfThrLo c.cfThrW

/-- R5 (5): the memories and the PUMA regions. -/
def Cfg.memoryOk (c : Cfg) : Bool :=
  decide (c.vramSize = 2 ^ Nat.log2 c.vramSize) && decide (c.fbSize ≤ c.vramSize)
    && decide (c.fbSize % 4 = 0 ∧ c.texStart % 4 = 0 ∧ c.texSize % 4 = 0)
    && decide (c.regStart + c.regSize ≤ 2 ^ 32 ∧ c.texStart + c.texSize ≤ 2 ^ 32)

/-- R5 (6) and (7): the gradient range and the aperture sizes. -/
def Cfg.rangesOk (c : Cfg) : Bool :=
  decide (c.gradLo ≤ c.gradHi ∧ c.gradHi < 256)
    && Aperture.all.all (fun ap => decide (0 < c.apSize ap ∧ c.apSize ap ≤ 2 ^ 32))

/-- The configuration-space registers of R24 as (offset, length). -/
def Cfg.confGroups (c : Cfg) : List (Nat × Nat) :=
  [(c.cfgCmd, 2), (c.cfgBar.linear, 4), (c.cfgBar.mmio, 4), (c.cfgBar.companion, 4), (c.cfgBarUnused, 4), (c.cfgBar.rom, 4),
   (c.cfgIntLine, 1), (c.cfgIntPin, 1)]

/-- R5 (8): the configuration-space registers lie in the 256 bytes, apart from one another, and `CFG_RESET` is 0 at all of them
but the interrupt pin; `CFG_RESET` is written canonically. -/
def Cfg.confOk (c : Cfg) : Bool :=
  c.confGroups.all (fun g => decide (g.1 + g.2 ≤ 256))
    && decide (c.confGroups.Pairwise (fun g h => apart g.1 g.2 h.1 h.2 = true))
    && c.cfgReset.all (fun cell => decide (cell.1 < 256) && cell.2 != 0
        && c.confGroups.all (fun g => apart cell.1 1 g.1 g.2 || g.1 == c.cfgIntPin))
    && decide (c.cfgReset.Pairwise (fun a b => a.1 < b.1))

/-- What R4 and R20 say of the record beside R5: the memory-enable bit lies in the command register's low byte, page numbers are
below 2^20, a pointer unit has a byte (log entry 5). -/
def Cfg.namedOk (c : Cfg) : Bool :=
  decide (c.cmdIoBit < 8 ∧ c.cmdMemBit < 8 ∧ c.cmdBmBit < 8) && decide (c.cfBotW ≤ 20 ∧ c.cfTopW ≤ 20) && decide (0 < c.cfUnitBytes)

/-- The fields of an id. -/
def Cfg.ofId (c : Cfg) (i : FieldId) : List RegField := c.fields.filter (fun f => f.id == i)

/-- The named fields (spec/10_state.md R23, spec/44_neighbour_engines.md R270): every field has the kind of its id, so each job field
but the two control fields is plain; every job field is one field of the window; `D2_PATTERN` has 8 bytes; `ROP_FILL` is a value of
`D2_ROP` and `D2_CLIP_EN` a bit of `D2_CTRL`. R5 does not list these conditions (log entry 5). -/
def Cfg.jobsOk (c : Cfg) : Bool :=
  c.fields.all (fun f => f.kind == f.id.kind)
    && (d2JobFields ++ d3JobFields).all (fun i => (c.ofId i).length == 1)
    && (c.ofId .d2Pattern).all (fun f => f.width == 8)
    && (c.ofId .d2Rop).all (fun f => decide (c.ropFill < 2 ^ (8 * f.width)))
    && (c.ofId .d2Ctrl).all (fun f => decide (c.d2ClipEnBit < 8 * f.width))

/-- A configuration the rules of the spec apply to (R5). -/
def Cfg.wf (c : Cfg) : Bool :=
  c.banksOk && c.fieldsOk && c.kindsOk && c.bitsOk && c.memoryOk && c.rangesOk && c.confOk && c.namedOk && c.jobsOk

end Sys2Proof
end

