-- ==== Sys2Proof/Machine/CfgRef.lean ====
section
/-! DEFINITION. `CFG_REF`, the worked configuration of spec/95_test_vectors.md section 1. The spec calls it an example and no source of
values: the model uses it in `State.reset`, which must be one concrete state, and in tests (log entry 1). -/

namespace Sys2Proof.Machine

/-- A `plain` field of `CFG_REF` without the `recalc` mark. -/
def plainField (id : FieldId) (base width : Nat) : RegField := ⟨id, base, width, .plain, false⟩

/-- The setup, video-overlay, cursor and tile fields of `CFG_REF`: `CRTC_OVF`, `OVL_CTRL`, `CUR_CTRL`, `CUR_X`, `CUR_Y`, `TILE_BASE`. -/
def cfgRefMisc : List RegField :=
  [⟨.other 0, 0x0010, 1, .plain, true⟩, ⟨.other 1, 0x0200, 4, .plain, true⟩, plainField (.other 2) 0x0300 1,
   plainField (.other 3) 0x0302 2, plainField (.other 4) 0x0304 2, plainField (.other 5) 0x0400 3]

/-- The 2D fields of `CFG_REF`. -/
def cfgRefD2 : List RegField :=
  [⟨.d2Ctrl, 0x0100, 4, .trigD2, false⟩, plainField .d2Rop 0x0104 1, plainField .d2ByteMask 0x0105 1,
   plainField .d2Fg 0x0108 4, plainField .d2Bg 0x010C 4, plainField .d2DstX 0x0110 2, plainField .d2DstY 0x0112 2,
   plainField .d2SizeX 0x0114 2, plainField .d2SizeY 0x0116 2, plainField .d2DstPitch 0x0118 2,
   plainField .d2SrcPitch 0x011A 2, plainField .d2SrcX 0x011C 2, plainField .d2SrcY 0x011E 2,
   plainField .d2ClipL 0x0120 2, plainField .d2ClipT 0x0122 2, plainField .d2ClipR 0x0124 2, plainField .d2ClipB 0x0126 2,
   plainField .d2Pattern 0x0128 8]

/-- The three gradient fields of attribute number `j` in `CFG_REF`. -/
def cfgRefAttr (a : Attr) (j : Nat) : List RegField :=
  [plainField (.d3Start a) (0x0510 + 12 * j) 4, plainField (.d3Dx a) (0x0514 + 12 * j) 4, plainField (.d3Dy a) (0x0518 + 12 * j) 4]

/-- The 3D fields of `CFG_REF`. -/
def cfgRefD3 : List RegField :=
  [⟨.d3CmdSet, 0x0500, 4, .trigD3, false⟩, plainField .d3V0X 0x0504 2, plainField .d3V0Y 0x0506 2,
   plainField .d3V1X 0x0508 2, plainField .d3V1Y 0x050A 2, plainField .d3V2X 0x050C 2, plainField .d3V2Y 0x050E 2]
    ++ cfgRefAttr .red 0 ++ cfgRefAttr .green 1 ++ cfgRefAttr .blue 2 ++ cfgRefAttr .alpha 3
    ++ cfgRefAttr .depth 4 ++ cfgRefAttr .weight 5 ++ cfgRefAttr .texU 6 ++ cfgRefAttr .texV 7
    ++ [plainField .d3DstBase 0x0570 4, plainField .d3ZBase 0x0574 4, plainField .d3TexBase 0x0578 4,
        plainField .d3DstStride 0x057C 2, plainField .d3ZStride 0x057E 2, plainField .d3TexStride 0x0580 2]

/-- The bridge fields of `CFG_REF`. -/
def cfgRefBridge : List RegField :=
  [⟨.thpCtrl, 0x0700, 4, .trigThpCtl, false⟩, ⟨.cfCfg, 0x0704, 4, .trigCfCfg, false⟩,
   ⟨.cfBottom, 0x0708, 2, .cfBottom, false⟩, ⟨.cfTop, 0x070A, 2, .cfTop, false⟩, ⟨.cfThresh, 0x070C, 1, .cfThresh, false⟩,
   ⟨.thpAddr, 0x0800, 4, .thpAddr, false⟩, ⟨.thpData, 0x0804, 4, .thpData, false⟩]

/-- The banks of `CFG_REF`. -/
def cfgRefBanks : List Bank :=
  [⟨.setup, 0x0000, 0x00FF⟩, ⟨.draw2d, 0x0100, 0x01FF⟩, ⟨.videoOverlay, 0x0200, 0x02FF⟩, ⟨.cursor, 0x0300, 0x03FF⟩,
   ⟨.tile, 0x0400, 0x04FF⟩, ⟨.draw3d, 0x0500, 0x06FF⟩, ⟨.bridgeControl, 0x0700, 0x07FF⟩,
   ⟨.bridgeDataHost, 0x0800, 0x08FF⟩, ⟨.bridgeDataCompanion, 0x0900, 0x09FF⟩]

/-- The example configuration of spec/95_test_vectors.md section 1, with the configuration-space defaults of R4. -/
def cfgRef : Cfg where
  banks := cfgRefBanks
  fields := cfgRefMisc ++ cfgRefD2 ++ cfgRefD3 ++ cfgRefBridge
  d2StartBit := 31
  d3StartBit := 31
  d2ClipEnBit := 0
  ropFill := 0xF0
  thpEnBit := 0
  cfEnBit := 0
  cfBotLo := 8
  cfBotW := 12
  cfTopLo := 20
  cfTopW := 12
  cfThrLo := 1
  cfThrW := 7
  cfUnitBytes := 8
  cfPairAdv := 2
  cfGroupHdrAdv := 1
  vramSize := 0x00400000
  fbSize := 0x00400000
  regStart := 0x00400000
  regSize := 0x00100000
  texStart := 0x00500000
  texSize := 0x00200000
  gradLo := 0x20
  gradHi := 0x3F
  companionPresent := true
  compReset := Vector.replicate 256 0
  linearSize := 0x00400000
  companionSize := 0x00800000
  romSize := 0x00010000
  probe := ⟨0x003FFFFF#32, 0x0000FFFF#32, 0x007FFFFF#32, 0x0000FFFF#32⟩
  cfgCmd := 0x04
  cfgBar := ⟨0x10, 0x14, 0x18, 0x30⟩
  cfgBarUnused := 0x1C
  cfgIntLine := 0x3C
  cfgIntPin := 0x3D
  cmdIoBit := 0
  cmdMemBit := 1
  cmdBmBit := 2
  cmdWmask := 0x0007#16
  cfgReset := [(0, 0x34#8), (1, 0x12#8), (2, 0x78#8), (3, 0x56#8), (0x3D, 0x01#8)]

end Sys2Proof.Machine
end

