-- ==== Sys2Proof/Machine/State.lean ====
section
/-! DEFINITION. The state of the device (spec/10_state.md R20), why an operation can end without a next state, and the state
after reset (R42, spec/70_reset_and_hazards.md R311). -/

namespace Sys2Proof.Machine

/-- The device reports no fault: "No guest-visible exception mechanism exists" (spec/60_exceptions.md R290). The type has no
constructor, so no meaning can answer with one; safe. -/
inductive Fault where
deriving DecidableEq, Repr

/-- The outcome "refused" of spec/00_scope.md R8: the spec gives the operation no meaning. Every constructor is safe: the run
stops and nothing is claimed of the device. -/
inductive Refusal where
  /-- No meaning is written for the operation: raised by an arm of `exec` only; safe. -/
  | notModelled (mnemonic : String)
  /-- A register-window access whose bytes leave the 64 KiB window: raised by MMIO.R16 to MMIO.W32 (spec/40_regbank.md R132); safe. -/
  | windowEdge
  /-- A configuration access whose bytes leave offsets 0 to 255: raised by CFG.R16 to CFG.W32 (spec/41_pci_aperture.md R162); safe. -/
  | configEdge
  /-- An aperture access whose bytes are not all inside the one enabled aperture: raised by LIN.*, ROM.*, COMP.* and by a host memory
  access (spec/20_memory.md R64); safe. -/
  | apertureEdge
  /-- A bus address that two enabled apertures claim: raised by a host memory access (spec/20_memory.md R68); safe. -/
  | apertureOverlap
  /-- A 1- or 2-byte host access to the Companion aperture: raised by a host memory access (spec/20_memory.md R65); safe. -/
  | companionWidth
  /-- A Companion aperture access at an offset that is no multiple of 4: raised by COMP.R32 and COMP.W32 (spec/42_bridge_puma.md
  R200); safe. -/
  | companionMisaligned
  /-- A framebuffer or texture access at a PUMA address that is no multiple of 4: raised by every PUMA access, also by the register-
  window byte that sets it off (spec/42_bridge_puma.md R208); safe. -/
  | pumaMisaligned
  /-- The bytes name no operation (spec/30_encoding.md R101): raised by `step`; safe. -/
  | undecodable
  /-- The configuration has no THP address or data field, so R5 does not hold and the rules do not apply: raised by THP.RD and
  THP.WR; safe. -/
  | noThpField
deriving DecidableEq, Repr

/-- A memory: the listed bytes, and 0 for every unlisted address, as a list in rising address order with no listed 0. -/
abbrev Mem := List Host.Cell

/-- The committed mapping of one aperture, `ap_en` and `ap_base` (R29). -/
structure Mapping where
  en : Bool
  base : Word
deriving DecidableEq, Repr

/-- The diagnostic records of spec/00_scope.md R8 with the info of spec/60_exceptions.md R291. -/
inductive Diag where
  | invalidAddress (a : Word)
  | malformedPacket (sa : Nat) (aw dw : Word)
  | fifoOutOfRange (ptr : Word) (bottom top : Nat)
  | bridgeNotConfigured
  | bridgeDisabled
deriving DecidableEq, Repr

/-- What the device hands to its collaborators (the output ports of spec/00_scope.md R9). -/
inductive Event where
  | recalcTimings
  | map (ap : Aperture) (base : Word) (size : Nat)
  | unmap (ap : Aperture)
  | companionRegWritten (r : BitVec 8) (v : Word)
  | tri3DBatch (block : List (FieldId × Nat))
  | presentSwap
  | companionVsync
deriving DecidableEq, Repr

/-- The value a read returns (R8), at the width of the read. -/
inductive Reply where
  | r8 (v : Byte)
  | r16 (v : Half)
  | r32 (v : Word)
deriving DecidableEq, Repr

/-- What the outside world asks of the device next (spec/00_scope.md R10, R11): a stream of operations by their descriptor bytes, a
host memory access at a bus address, or a host configuration access to a function of the device. -/
inductive Request where
  | ops (bytes : List Byte)
  | memRead (addr : Word) (n : Width)
  | memWrite (addr : Word) (n : Width) (v : Word)
  | confRead (fn : BitVec 3) (reg : BitVec 8) (n : Width)
  | confWrite (fn : BitVec 3) (reg : BitVec 8) (n : Width) (v : Word)
deriving DecidableEq, Repr

/-- The state of the device: R20 items 1 to 10 in R20's order, between the configuration, which no operation changes, and the three
fields of the model's own at the end (log entries 1, 2 and 8). -/
structure State where
  /-- `Cfg` (spec/00_scope.md R4): no state of the device; carried here because `exec` takes no other argument. -/
  cfg : Cfg
  /-- (1) `rb[0..65535]`, the register window. -/
  rb : Mem
  /-- (2) `cfg[0..255]`, the configuration space of function 0. -/
  conf : Mem
  /-- (3) `ap_en[ap]` and `ap_base[ap]`. -/
  ap : PerAp Mapping
  /-- (4) `vram[0..VRAM_SIZE-1]`, the shared video memory. -/
  vram : Mem
  /-- (5) `comp[0..255]`, the companion register file. -/
  comp : Vector Word 256
  /-- (6) `tex[0..TEX_SIZE-1]`, the texture memory. -/
  tex : Mem
  /-- (7) `bridge_en` -/
  bridgeEn : Bool
  /-- (7) `thp_stage` -/
  thpStage : Word
  /-- (7) `thp_request` -/
  thpRequest : Bool
  /-- (7) `thp_grant` -/
  thpGrant : Bool
  /-- (8) `cf_enabled` -/
  cfEnabled : Bool
  /-- (8) `cf_bottom`, a page number below 2^20 -/
  cfBottom : BitVec 20
  /-- (8) `cf_top`, a page number below 2^20 -/
  cfTop : BitVec 20
  /-- (8) `cf_threshold`, of the configuration's width `CF_THR_W` -/
  cfThreshold : Nat
  /-- (8) `cf_read_ptr` -/
  cfReadPtr : Word
  /-- (8) `cf_entry_count` -/
  cfEntryCount : Word
  /-- (8) `cf_thresh_status` -/
  cfThreshStatus : Bool
  /-- (9) `d2_busy` -/
  d2Busy : Bool
  /-- (9) `d3_busy` -/
  d3Busy : Bool
  /-- (9) `d3_batch`, the captured parameter block -/
  d3Batch : List (FieldId × Nat)
  /-- (9) `swap_req` -/
  swapReq : Bool
  /-- (9) `swap_pending`, 0 to 7 -/
  swapPending : BitVec 3
  /-- (10) The diagnostic stream, oldest first. -/
  diags : List Diag
  /-- The model's own: the events handed to collaborators so far, oldest first (log entry 2). -/
  events : List Event
  /-- The model's own: the value the last request returned, where it returned one (log entry 2). -/
  reply : Option Reply
  /-- The model's own: the requests of the outside world that the device has not yet taken (log entry 8). -/
  bus : List Request
deriving DecidableEq, Repr

/-- A device of configuration `c` right after construction and reset (R42, R310, R311), with no request waiting. `vram`, `tex`,
`d3_batch` and `ap_base`, of which R42 says "unspecified", have the values log entry 4 names. -/
def State.resetOf (c : Cfg) : State where
  cfg := c
  rb := []
  conf := c.cfgReset
  ap := ⟨⟨false, 0⟩, ⟨false, 0⟩, ⟨false, 0⟩, ⟨false, 0⟩⟩
  vram := []
  comp := c.compReset
  tex := []
  bridgeEn := false
  thpStage := 0
  thpRequest := false
  thpGrant := false
  cfEnabled := false
  cfBottom := 0
  cfTop := 0
  cfThreshold := 0
  cfReadPtr := 0
  cfEntryCount := 0
  cfThreshStatus := false
  d2Busy := false
  d3Busy := false
  d3Batch := []
  swapReq := false
  swapPending := 0
  diags := []
  events := []
  reply := none
  bus := []

/-- The machine right after reset, with the example configuration `CFG_REF` (log entry 1). -/
def State.reset : State := State.resetOf cfgRef

end Sys2Proof.Machine
end

