-- ==== Sys2Proof/Machine/Ops.lean ====
section
/-! DEFINITION. The named operations over the memories, the register window, the companion registers and the output streams
(spec/00_scope.md R7 and R8), and the decomposition of a wide host access into byte accesses (spec/20_memory.md R63).
There is no exception entry or return to model: spec/60_exceptions.md R295 and R296; what stands in their place is
`State.log` (an error case completes with its defined result and one diagnostic) and the outcome "refused". -/

namespace Sys2Proof.Machine

/-! ## Memory -/

/-- What an address that a memory does not list reads as: 0x00. For `rb` it is the reset value (R42), for the configuration space the
canonical form of `CFG_RESET`; for `vram` and `tex` log entry 4 says so. -/
abbrev unlistedByte : Byte := 0#8

/-- The byte at an address. -/
def Mem.read : Mem → Nat → Byte
  | [], _ => unlistedByte
  | (k, x) :: m, a => if a = k then x else Mem.read m a

/-- The memory without an entry at an address. -/
def Mem.erase : Mem → Nat → Mem
  | [], _ => []
  | (k, x) :: m, a => if a = k then Mem.erase m a else (k, x) :: Mem.erase m a

/-- The memory with an entry put before the first higher address. -/
def Mem.insert : Mem → Nat → Byte → Mem
  | [], a, v => [(a, v)]
  | (k, x) :: m, a, v => if a < k then (a, v) :: (k, x) :: m else (k, x) :: Mem.insert m a v

/-- One byte of the memory replaced; writing the value of an unlisted address removes the entry. -/
def Mem.write (m : Mem) (a : Nat) (v : Byte) : Mem :=
  if v = unlistedByte then m.erase a else (m.erase a).insert a v

/-- The canonical form: addresses strictly rising, no entry equal to what an unlisted address reads as. -/
def Mem.wf (m : Mem) : Bool :=
  decide (m.Pairwise (fun c d => c.1 < d.1)) && m.all (fun c => c.2 != unlistedByte)

/-- Every listed address is below `n`. -/
def Mem.below (m : Mem) (n : Nat) : Bool := m.all (fun c => decide (c.1 < n))

/-- `Rd32LE(mem, i)` (R7). -/
def Mem.rd32 (m : Mem) (i : Nat) : Word := word (m.read i) (m.read (i + 1)) (m.read (i + 2)) (m.read (i + 3))

/-- `Wr32LE(mem, i, v)` (R7). -/
def Mem.wr32 (m : Mem) (i : Nat) (v : Word) : Mem :=
  (((m.write i (lane v 0)).write (i + 1) (lane v 1)).write (i + 2) (lane v 2)).write (i + 3) (lane v 3)

/-- The little-endian value of `n` bytes from an address (spec/10_state.md R22). -/
def Mem.readLE (m : Mem) (a : Nat) : Nat → Nat
  | 0 => 0
  | n + 1 => (m.read a).toNat + 256 * m.readLE (a + 1) n

/-- `v[lo + w - 1 : lo]` of a natural number (R6). -/
def bitsOf (v lo w : Nat) : Nat := v / 2 ^ lo % 2 ^ w

/-! ## Output streams -/

/-- `Diag(kind, info)` (R8). -/
def State.log (s : State) (d : Diag) : State := { s with diags := s.diags ++ [d] }

/-- `emit <Event>(args)` (R7, R9). -/
def State.emit (s : State) (e : Event) : State := { s with events := s.events ++ [e] }

/-! ## The register window and its fields -/

/-- `rb[o] <- v`. -/
def State.setRb (s : State) (o : Nat) (v : Byte) : State := { s with rb := s.rb.write o v }

/-- `Field(f)`: the little-endian value of the field's bytes as they are stored now (spec/10_state.md R22). -/
def State.fieldVal (s : State) (f : RegField) : Nat := s.rb.readLE f.base f.width

/-- The field of a kind, where the configuration has one (R5: exactly one of each kind the rules read). -/
def Cfg.fieldOfKind (c : Cfg) (k : FieldKind) : Option RegField := c.fields.find? (fun f => f.kind == k)

/-- The field of an id. -/
def Cfg.fieldOfId (c : Cfg) (i : FieldId) : Option RegField := c.fields.find? (fun f => f.id == i)

/-- `Field(f)` of the field of a kind; 0 where the configuration has none (log entry 5). -/
def State.kindVal (s : State) (k : FieldKind) : Nat := ((Cfg.fieldOfKind s.cfg k).map s.fieldVal).getD 0

/-- `Field(f)` of the field of an id; 0 where the configuration has none (log entry 5). -/
def State.idVal (s : State) (i : FieldId) : Nat := ((Cfg.fieldOfId s.cfg i).map s.fieldVal).getD 0

/-! ## The configuration space, the apertures, the memories -/

/-- `cfg[reg] <- v`. -/
def State.setConf (s : State) (reg : Nat) (v : Byte) : State := { s with conf := s.conf.write reg v }

/-- `ap_en[ap]` and `ap_base[ap]` set together. -/
def State.setMapping (s : State) (ap : Aperture) (m : Mapping) : State := { s with ap := s.ap.set ap m }

/-- `vram` replaced. -/
def State.setVram (s : State) (m : Mem) : State := { s with vram := m }

/-- `tex` replaced. -/
def State.setTex (s : State) (m : Mem) : State := { s with tex := m }

/-! ## The companion registers -/

/-- `comp[r]`. -/
def State.compGet (s : State) (r : BitVec 8) : Word := s.comp[r.toNat]'(by have := r.isLt; omega)

/-- `comp[r] <- v`. -/
def State.compSet (s : State) (r : BitVec 8) (v : Word) : State :=
  { s with comp := s.comp.set r.toNat v (by have := r.isLt; omega) }

/-- `CompRegRead(r)`: a register of the gradient range is sign-extended from 24 bits (spec/42_bridge_puma.md R195). -/
def compRegRead (s : State) (r : BitVec 8) : Word :=
  if s.cfg.gradLo ≤ r.toNat ∧ r.toNat ≤ s.cfg.gradHi then ((s.compGet r).extractLsb' 0 24).signExtend 32
  else s.compGet r

/-- `CompRegWrite(r, v)`: all 32 bits stored, the rasterizer told (R196). -/
def compRegWrite (r : BitVec 8) (v : Word) (s : State) : State :=
  (s.compSet r v).emit (.companionRegWritten r v)

/-! ## Wide accesses as byte accesses, and outcomes -/

/-- What an operation answers. -/
abbrev Result := Host.Outcome State Fault Refusal

/-- `n` byte reads at `a, a+1, ...` in increasing order, each to completion with its own side effects (spec/20_memory.md R63). -/
def readBytes (f : Nat → State → Except Refusal (Byte × State)) : Nat → Nat → State → Except Refusal (List Byte × State)
  | 0, _, s => .ok ([], s)
  | n + 1, a, s =>
    match f a s with
    | .error r => .error r
    | .ok (b, s1) =>
      match readBytes f n (a + 1) s1 with
      | .error r => .error r
      | .ok (bs, s2) => .ok (b :: bs, s2)

/-- Byte writes at `a, a+1, ...` in increasing order, each to completion with its own side effects (spec/20_memory.md R63). -/
def writeBytes (f : Nat → Byte → State → Except Refusal State) : List Byte → Nat → State → Except Refusal State
  | [], _, s => .ok s
  | b :: bs, a, s =>
    match f a b s with
    | .error r => .error r
    | .ok s1 => writeBytes f bs (a + 1) s1

/-- The value a read returns from its bytes, the byte at the lowest address in bits 7:0 (spec/20_memory.md R62). -/
def replyOf : Width → List Byte → Reply
  | .w1, bs => .r8 (bs.getD 0 0)
  | .w2, bs => .r16 (half (bs.getD 0 0) (bs.getD 1 0))
  | .w4, bs => .r32 (word (bs.getD 0 0) (bs.getD 1 0) (bs.getD 2 0) (bs.getD 3 0))

/-- The read returns a value. -/
def State.setReply (s : State) (r : Reply) : State := { s with reply := some r }

/-- A completed or refused operation (R8). -/
def finish : Except Refusal State → Result
  | .ok s => .next s
  | .error r => .refused r

/-- A completed or refused read. -/
def finishRead (n : Width) : Except Refusal (List Byte × State) → Result
  | .ok (bs, s) => .next (s.setReply (replyOf n bs))
  | .error r => .refused r

/-- A completed or refused read of one word. -/
def finishWord : Except Refusal (Word × State) → Result
  | .ok (v, s) => .next (s.setReply (.r32 v))
  | .error r => .refused r

end Sys2Proof.Machine
end

