-- ==== Sys2Proof/Machine/Operands.lean ====
section
/-! DEFINITION. What an offset, a register number, a PUMA address, a ring pointer and a bus address name. -/

namespace Sys2Proof.Machine

/-! ## Register-window offsets -/

/-- `FieldAt(o)`: the field that covers an offset and the byte index in it, `none` at a fallback offset (spec/40_regbank.md R120). -/
def fieldAt (c : Cfg) (o : Nat) : Option (RegField × Nat) :=
  (c.fields.find? (fun f => decide (f.base ≤ o ∧ o < f.base + f.width))).map (fun f => (f, o - f.base))

/-- `BankAt(o)`: the bank whose range holds an offset, `none` for the fallback; no rule's result depends on it (R120, R131). -/
def bankAt (c : Cfg) (o : Nat) : Option BankName :=
  (c.banks.find? (fun b => decide (b.lo ≤ o ∧ o ≤ b.hi))).map (·.name)

/-! ## Configuration-space registers -/

/-- The aperture whose BAR group covers a register number, and the byte index in the group (spec/41_pci_aperture.md R150). -/
def barAt (c : Cfg) (reg : Nat) : Option (Aperture × Nat) :=
  (Aperture.all.find? (fun ap => decide (c.cfgBar.get ap ≤ reg ∧ reg < c.cfgBar.get ap + 4))).map
    (fun ap => (ap, reg - c.cfgBar.get ap))

/-- `Group(ap)`: the 32 bits stored in a BAR group. -/
def barGroup (s : State) (ap : Aperture) : Word := s.conf.rd32 (s.cfg.cfgBar.get ap)

/-- `BaseMask(ap) = 2^32 - AP_ALIGN[ap]` (spec/10_state.md R26, R27). -/
def baseMask (ap : Aperture) : Word := BitVec.allOnes 32 <<< ap.alignBits

/-- `Base(ap)`: the base a BAR group encodes (R26, R156). -/
def barBase (s : State) (ap : Aperture) : Word := barGroup s ap &&& baseMask ap

/-! ## PUMA addresses -/

/-- The four classes of a PUMA address (spec/42_bridge_puma.md R192). -/
inductive Region where
  | fb
  | reg (r : BitVec 8)
  | tex (t : Nat)
  | invalid
deriving DecidableEq, Repr

/-- `Classify(a)`, the first test that holds winning (R192, R100). -/
def classify (c : Cfg) (a : Word) : Region :=
  if a.toNat < c.fbSize then .fb
  else if c.regStart ≤ a.toNat ∧ a.toNat < c.regStart + c.regSize then
    .reg (BitVec.ofNat 8 ((a.toNat - c.regStart) / 2 ^ 12))
  else if c.texStart ≤ a.toNat ∧ a.toNat < c.texStart + c.texSize then .tex (a.toNat - c.texStart)
  else .invalid

/-! ## The CmdFifo ring (spec/10_state.md R35) -/

/-- `B = cf_bottom << 12`. -/
def ringBottom (s : State) : Nat := s.cfBottom.toNat * 4096

/-- `T = cf_top << 12`. -/
def ringTop (s : State) : Nat := s.cfTop.toNat * 4096

/-- `ring_bytes = T - B`. -/
def ringBytes (s : State) : Nat := ringTop s - ringBottom s

/-- `N`, the ring's slot count. -/
def ringSlots (s : State) : Nat := ringBytes s / s.cfg.cfUnitBytes

/-- A PUMA framebuffer address inside the enabled ring (spec/43_cmdfifo.md R233). -/
def insideRing (s : State) (a : Nat) : Bool :=
  s.cfEnabled && decide (ringBottom s ≤ a ∧ a < ringTop s)

/-- `sa`, the byte address of the slot the read pointer names (R238). -/
def slotAddr (s : State) : Nat := ringBottom s + (s.cfReadPtr.toNat * s.cfg.cfUnitBytes) % ringBytes s

/-- `wa_k`, the byte address of data word `k` of a grouped packet (R240, spec/30_encoding.md R95). -/
def dataAddr (s : State) (k : Nat) : Nat :=
  ringBottom s + (s.cfReadPtr.toNat * s.cfg.cfUnitBytes + 8 + 4 * k) % ringBytes s

/-- `InRange(x, len)` (R238). -/
def inRange (s : State) (x len : Nat) : Bool :=
  decide (ringBottom s ≤ x ∧ x + len ≤ ringTop s ∧ x + len ≤ s.cfg.fbSize)

/-- The positions of a mask's set bits, ascending (R240). -/
def maskBits (m : Word) : List Nat := (List.range 32).filter (fun i => m.getLsbD i)

/-- `popcount(m)` (R6). -/
def popcount (m : Word) : Nat := (maskBits m).length

/-! ## Host bus addresses -/

/-- Whether an aperture claims a bus address; computed without 32-bit wrap (spec/20_memory.md R67). -/
def claims (s : State) (addr : Nat) (ap : Aperture) : Bool :=
  (s.ap.get ap).en
    && decide ((s.ap.get ap).base.toNat ≤ addr ∧ addr < (s.ap.get ap).base.toNat + s.cfg.apSize ap ∧ addr < 2 ^ 32)

/-- The apertures that claim a bus address. -/
def claimants (s : State) (addr : Nat) : List Aperture := Aperture.all.filter (claims s addr)

/-- Where a host memory access goes. -/
inductive Target where
  /-- All its bytes lie in one enabled aperture, from this offset on. -/
  | aperture (ap : Aperture) (off : Nat)
  /-- No enabled aperture claims any of its bytes: not this device's access (R67). -/
  | elsewhere
  /-- The spec gives the access no meaning (R64, R68). -/
  | refused (r : Refusal)
deriving DecidableEq, Repr

/-- The dispatch of an `n`-byte host access (R67), refusing an address that two apertures claim (R68) and an access that is not
wholly inside one aperture (R64). -/
def target (s : State) (addr : Nat) (n : Nat) : Target :=
  let cs := (List.range n).map (fun k => claimants s (addr + k))
  if cs.any (fun l => decide (2 ≤ l.length)) then .refused .apertureOverlap
  else if cs.all (fun l => l.isEmpty) then .elsewhere
  else
    match cs.head? with
    | some [ap] => if cs.all (fun l => decide (l = [ap])) then .aperture ap (addr - (s.ap.get ap).base.toNat) else .refused .apertureEdge
    | _ => .refused .apertureEdge

end Sys2Proof.Machine
end

