-- ==== Sys2Proof/Machine/Flags.lean ====
section
/-! DEFINITION. The one-bit pieces of state of spec/10_state.md R40: what sets, clears and reads each. The device has no condition
codes and no arithmetic flags. -/

namespace Sys2Proof.Machine

/-- `MemEn`: the memory-enable bit of the command register (spec/41_pci_aperture.md, notation). -/
def memEn (s : State) : Bool := (s.conf.read s.cfg.cfgCmd).getLsbD s.cfg.cmdMemBit

/-- The start bit in the last byte of a control field (spec/40_regbank.md R123: bit number modulo 8). -/
def startOf (bit : Nat) (v : Byte) : Bool := v.getLsbD (bit % 8)

/-- A byte with its start bit cleared (spec/44_neighbour_engines.md R274). -/
def clearStart (bit : Nat) (v : Byte) : Byte := v &&& ~~~(1#8 <<< (bit % 8))

/-- The start bit of a control field cleared in the window; no other bit changes (R274, R279). -/
def State.clearStartBit (s : State) (f : RegField) (bit : Nat) : State :=
  s.setRb f.last (clearStart bit (s.rb.read f.last))

/-- `thp_request` and `thp_grant`, both set on completion of a THP access (spec/42_bridge_puma.md R206). -/
def State.setHandshake (s : State) : State := { s with thpRequest := true, thpGrant := true }

/-- The threshold status bit, set when a counted write leaves the count at the threshold or above (spec/43_cmdfifo.md R235). -/
def State.raiseThresh (s : State) : State :=
  if s.cfThreshold ≤ s.cfEntryCount.toNat then { s with cfThreshStatus := true } else s

/-- The after-drain step: the bit is cleared when the count is below the threshold (R245). -/
def State.lowerThresh (s : State) : State :=
  if s.cfEntryCount.toNat < s.cfThreshold then { s with cfThreshStatus := false } else s

/-- Why the bridge stops an access, `none` when `bridge_on` (spec/42_bridge_puma.md R190 `BridgeGate`). -/
def bridgeGate (s : State) : Option Diag :=
  if s.cfg.companionPresent then (if s.bridgeEn then none else some .bridgeDisabled) else some .bridgeNotConfigured

end Sys2Proof.Machine
end

