-- ==== Sys2Proof/Machine/Aperture.lean ====
section
/-! DEFINITION. The aperture controller (spec/41_pci_aperture.md): configuration reads and writes, BAR commit, and access through the
Linear and ROM apertures. -/

namespace Sys2Proof.Machine

/-! ## Configuration reads -/

/-- `BarReadByte(ap, i)`: the probe byte while all four stored bytes are zero (R151). -/
def barReadByte (ap : Aperture) (i : Nat) (s : State) : Byte :=
  if barGroup s ap = 0 then lane (s.cfg.probe.get ap) i else s.conf.read (s.cfg.cfgBar.get ap + i)

/-- `CfgRead8(reg)` (R150). -/
def confByte (reg : Nat) (s : State) : Byte :=
  match barAt s.cfg reg with
  | some (ap, i) => barReadByte ap i s
  | none => s.conf.read reg

/-- `CfgRead8(reg)` as a step of a wide access: it changes no state. -/
def confRead8 (reg : Nat) (s : State) : Except Refusal (Byte × State) := .ok (confByte reg s, s)

/-! ## Configuration writes -/

/-- The aperture disabled, and the collaborator told if it was enabled (R153, R154). -/
def unmapAp (ap : Aperture) (s : State) : State :=
  if (s.ap.get ap).en then (s.setMapping ap ⟨false, (s.ap.get ap).base⟩).emit (.unmap ap) else s

/-- All four apertures disabled, in the spec's order (R153, spec/70_reset_and_hazards.md R311). -/
def unmapAll (s : State) : State := unmapAp .rom (unmapAp .companion (unmapAp .mmio (unmapAp .linear s)))

/-- `CommandWriteLow(v)` (R153). -/
def commandWriteLow (v : Byte) (s : State) : State :=
  let s1 := s.setConf s.cfg.cfgCmd (v &&& lane s.cfg.cmdWmask 0)
  if memEn s1 then s1 else unmapAll s1

/-- The `Unmap` that a move of an enabled aperture emits before the `Map` (R155). -/
def moveEvent (ap : Aperture) (base : Word) (s : State) : State :=
  if (s.ap.get ap).en ∧ (s.ap.get ap).base ≠ base then s.emit (.unmap ap) else s

/-- `Commit(ap, base)` (R155). -/
def commit (ap : Aperture) (base : Word) (s : State) : State :=
  if memEn s then ((moveEvent ap base s).setMapping ap ⟨true, base⟩).emit (.map ap base (s.cfg.apSize ap))
  else unmapAp ap s

/-- `BarWriteByte(ap, i, v)` (R154). -/
def barWriteByte (ap : Aperture) (i : Nat) (v : Byte) (s : State) : State :=
  let s1 := s.setConf (s.cfg.cfgBar.get ap + i) v
  if barBase s1 ap = 0 then unmapAp ap s1
  else if i = 3 then commit ap (barBase s1 ap) s1
  else s1

/-- `CfgWrite8(reg, v)` (R152). -/
def confWriteByte (reg : Nat) (v : Byte) (s : State) : State :=
  if reg = s.cfg.cfgCmd then commandWriteLow v s
  else if reg = s.cfg.cfgCmd + 1 then s.setConf reg (v &&& lane s.cfg.cmdWmask 1)
  else
    match barAt s.cfg reg with
    | some (ap, i) => barWriteByte ap i v s
    | none => if reg = s.cfg.cfgIntLine then s.setConf reg v else s

/-- `CfgWrite8(reg, v)` as a step of a wide access: it is never refused. -/
def confWrite8 (reg : Nat) (v : Byte) (s : State) : Except Refusal State := .ok (confWriteByte reg v s)

/-- An `n`-byte configuration read, refused past offset 255 (R162). -/
def confRead (reg : Nat) (n : Width) (s : State) : Except Refusal (List Byte × State) :=
  if 256 < reg + n.bytes then .error .configEdge else readBytes confRead8 n.bytes reg s

/-- A configuration write of some bytes, refused past offset 255 (R162). -/
def confWrite (reg : Nat) (bs : List Byte) (s : State) : Except Refusal State :=
  if 256 < reg + bs.length then .error .configEdge else writeBytes confWrite8 bs reg s

/-- `CFG.R8` (R150). -/
def execCfgR8 (reg : BitVec 8) (s : State) : Result := finishRead .w1 (confRead reg.toNat .w1 s)

/-- `CFG.R16` (R162). -/
def execCfgR16 (reg : BitVec 8) (s : State) : Result := finishRead .w2 (confRead reg.toNat .w2 s)

/-- `CFG.R32` (R162). -/
def execCfgR32 (reg : BitVec 8) (s : State) : Result := finishRead .w4 (confRead reg.toNat .w4 s)

/-- `CFG.W8` (R152). -/
def execCfgW8 (reg : BitVec 8) (v : Byte) (s : State) : Result := finish (confWrite reg.toNat [v] s)

/-- `CFG.W16` (R162). -/
def execCfgW16 (reg : BitVec 8) (v : Half) (s : State) : Result := finish (confWrite reg.toNat (halfBytes v) s)

/-- `CFG.W32` (R162). -/
def execCfgW32 (reg : BitVec 8) (v : Word) (s : State) : Result := finish (confWrite reg.toNat (wordBytes v) s)

/-! ## The Linear aperture -/

/-- The byte of video memory a Linear offset names: "address-masked" (R164). -/
def linAddr (c : Cfg) (off : Nat) : Nat := off &&& (c.vramSize - 1)

/-- `LinRead8(off)` (R164). -/
def linRead8 (off : Nat) (s : State) : Except Refusal (Byte × State) := .ok (s.vram.read (linAddr s.cfg off), s)

/-- `LinWrite8(off, v)`: no CmdFifo entry is counted (R164, spec/20_memory.md R75). -/
def linWrite8 (off : Nat) (v : Byte) (s : State) : Except Refusal State := .ok (s.setVram (s.vram.write (linAddr s.cfg off) v))

/-- An `n`-byte Linear read, refused past the aperture's end (R164, spec/20_memory.md R64). -/
def linRead (off : Nat) (n : Width) (s : State) : Except Refusal (List Byte × State) :=
  if s.cfg.linearSize < off + n.bytes then .error .apertureEdge else readBytes linRead8 n.bytes off s

/-- A Linear write of some bytes, refused past the aperture's end (R164, spec/20_memory.md R64). -/
def linWrite (off : Nat) (bs : List Byte) (s : State) : Except Refusal State :=
  if s.cfg.linearSize < off + bs.length then .error .apertureEdge else writeBytes linWrite8 bs off s

/-- `LIN.R8` (R164). -/
def execLinR8 (off : Word) (s : State) : Result := finishRead .w1 (linRead off.toNat .w1 s)

/-- `LIN.R16` (R164). -/
def execLinR16 (off : Word) (s : State) : Result := finishRead .w2 (linRead off.toNat .w2 s)

/-- `LIN.R32` (R164). -/
def execLinR32 (off : Word) (s : State) : Result := finishRead .w4 (linRead off.toNat .w4 s)

/-- `LIN.W8` (R164). -/
def execLinW8 (off : Word) (v : Byte) (s : State) : Result := finish (linWrite off.toNat [v] s)

/-- `LIN.W16` (R164). -/
def execLinW16 (off : Word) (v : Half) (s : State) : Result := finish (linWrite off.toNat (halfBytes v) s)

/-- `LIN.W32` (R164). -/
def execLinW32 (off v : Word) (s : State) : Result := finish (linWrite off.toNat (wordBytes v) s)

/-! ## The ROM aperture -/

/-- `RomByte(off)` from the collaborator that holds the image (R165). -/
def romRead8 (off : Nat) (s : State) : Except Refusal (Byte × State) := .ok (Config.romByte off, s)

/-- An `n`-byte ROM read, refused past the aperture's end (R165, spec/20_memory.md R64). -/
def romRead (off : Nat) (n : Width) (s : State) : Except Refusal (List Byte × State) :=
  if s.cfg.romSize < off + n.bytes then .error .apertureEdge else readBytes romRead8 n.bytes off s

/-- An `n`-byte ROM write: it changes nothing (R165). -/
def romWrite (off : Nat) (n : Width) (s : State) : Except Refusal State :=
  if s.cfg.romSize < off + n.bytes then .error .apertureEdge else .ok s

/-- `ROM.R8` (R165). -/
def execRomR8 (off : Word) (s : State) : Result := finishRead .w1 (romRead off.toNat .w1 s)

/-- `ROM.R16` (R165). -/
def execRomR16 (off : Word) (s : State) : Result := finishRead .w2 (romRead off.toNat .w2 s)

/-- `ROM.R32` (R165). -/
def execRomR32 (off : Word) (s : State) : Result := finishRead .w4 (romRead off.toNat .w4 s)

/-- `ROM.W8`: the value goes nowhere (R165). -/
def execRomW8 (off : Word) (s : State) : Result := finish (romWrite off.toNat .w1 s)

/-- `ROM.W16`: the value goes nowhere (R165). -/
def execRomW16 (off : Word) (s : State) : Result := finish (romWrite off.toNat .w2 s)

/-- `ROM.W32`: the value goes nowhere (R165). -/
def execRomW32 (off : Word) (s : State) : Result := finish (romWrite off.toNat .w4 s)

end Sys2Proof.Machine
end

