-- ==== Sys2Proof/Machine/Reset.lean ====
section
/-! DEFINITION. `RESET` (spec/70_reset_and_hazards.md R311). -/

namespace Sys2Proof.Machine

/-- `Reset()`: enabled apertures are reported unmapped; `vram`, `tex`, `d3_batch` and `ap_base` are not written; the diagnostic
stream is emptied (R311, R42). The event stream, the reply and the waiting requests are no state of the device and stay. -/
def resetState (s : State) : State :=
  let u := unmapAll s
  { State.resetOf s.cfg with
    ap := u.ap
    vram := s.vram
    tex := s.tex
    d3Batch := s.d3Batch
    events := u.events
    reply := s.reply
    bus := s.bus }

/-- `RESET` (R311). -/
def execReset (s : State) : Result := .next (resetState s)

end Sys2Proof.Machine
end

