-- ==== Sys2Proof/Machine/CmdFifo.lean ====
section
/-! DEFINITION. The CmdFifo processor (spec/43_cmdfifo.md): configuration, ring writes, the drain and its packets. -/

namespace Sys2Proof.Machine

/-! ## Configuration -/

/-- `CfCfgTrigger()`: the packed configuration loads all four latches (R230). -/
def cfCfgTrigger (f : RegField) (s : State) : State :=
  let v := s.fieldVal f
  { s with
    cfEnabled := v.testBit s.cfg.cfEnBit
    cfBottom := BitVec.ofNat 20 (bitsOf v s.cfg.cfBotLo s.cfg.cfBotW)
    cfTop := BitVec.ofNat 20 (bitsOf v s.cfg.cfTopLo s.cfg.cfTopW)
    cfThreshold := bitsOf v s.cfg.cfThrLo s.cfg.cfThrW }

/-- `CfDiscrete(cf_bottom)` (R231). -/
def cfBottomWrite (f : RegField) (s : State) : State :=
  { s with cfBottom := BitVec.ofNat 20 (s.fieldVal f % 2 ^ s.cfg.cfBotW) }

/-- `CfDiscrete(cf_top)` (R231). -/
def cfTopWrite (f : RegField) (s : State) : State :=
  { s with cfTop := BitVec.ofNat 20 (s.fieldVal f % 2 ^ s.cfg.cfTopW) }

/-- `CfDiscrete(cf_thresh)` (R231). -/
def cfThreshWrite (f : RegField) (s : State) : State :=
  { s with cfThreshold := s.fieldVal f % 2 ^ s.cfg.cfThrW }

/-! ## Taking a packet -/

/-- How one packet of a drain ended: `ok`, or `abort`, which ends the drain (R236, R244). -/
inductive Drained where
  | ok (s : State)
  | abort (s : State)
deriving DecidableEq, Repr

def Drained.state : Drained → State
  | .ok s => s
  | .abort s => s

/-- One entry fewer; never below 0 (R248 item 2; log entry 12 for a count that is 0 already). -/
def State.dropEntry (s : State) : State :=
  { s with cfEntryCount := if s.cfEntryCount = 0 then 0 else s.cfEntryCount - 1 }

/-- `cf_read_ptr <- (cf_read_ptr + adv) mod N` (R243). -/
def State.advance (s : State) (adv : Nat) : State :=
  { s with cfReadPtr := BitVec.ofNat 32 ((s.cfReadPtr.toNat + adv) % ringSlots s) }

/-- The out-of-range abort: logged, the entry dropped, the pointer moved on when there is a ring (R244). -/
def abortDrain (s : State) : State :=
  let s1 := (s.log (.fifoOutOfRange s.cfReadPtr (ringBottom s) (ringTop s))).dropEntry
  if ringBottom s < ringTop s then s1.advance s.cfg.cfPairAdv else s1

/-- The register writes of a grouped packet, in ascending mask order: mask position and address of the data word (R240). -/
def writeGroup (base : Nat) : List (Nat × Nat) → State → State
  | [], s => s
  | (i, wa) :: l, s => writeGroup base l (compRegWrite (BitVec.ofNat 8 (base + i)) (s.vram.rd32 wa) s)

/-- The effect of a packet whose header slot is the one the read pointer names (R239 to R242). -/
def runPacket (p : Packet) (s : State) : Drained :=
  match p with
  | .nop => .ok (s.advance s.cfg.cfPairAdv).dropEntry
  | .rejected hi reg lo =>
    .ok ((s.log (.malformedPacket (slotAddr s) (header 1 hi reg lo) 0)).advance s.cfg.cfGroupHdrAdv).dropEntry
  | .grouped _ reg _ mask =>
    let n := popcount mask
    let was := (List.range n).map (dataAddr s)
    if was.all (fun wa => inRange s wa 4) then
      .ok (((writeGroup reg.toNat ((maskBits mask).zip was) s).advance (s.cfg.cfGroupHdrAdv + n)).dropEntry)
    else .abort (abortDrain s)
  | .single _ reg _ data =>
    .ok ((compRegWrite (BitVec.ofNat 8 reg.toNat) data s).advance s.cfg.cfPairAdv).dropEntry

/-- Whether the slot the read pointer names can be fetched (R238). -/
def slotOk (s : State) : Bool := decide (ringBottom s < ringTop s) && inRange s (slotAddr s) 8

/-- A packet taken at the read pointer: the fetch's range check, then the packet's effect (R238, R244). -/
def takePacket (p : Packet) (s : State) : Drained :=
  if slotOk s then runPacket p s else .abort (abortDrain s)

/-- The packet in the slot the read pointer names (R92, R94, R238). -/
def fetchPacket (s : State) : Packet :=
  decodePacket (s.vram.rd32 (slotAddr s)) (s.vram.rd32 (slotAddr s + 4))

/-- `DrainOne()` (R238). -/
def drainOne (s : State) : Drained := takePacket (fetchPacket s) s

/-! ## The drain and the ring write -/

/-- The loop of `CfProcess()`: while the budget and the entry count last (R236, R250). -/
def drainLoop : Nat → State → Drained
  | 0, s => .ok s
  | budget + 1, s =>
    if s.cfEntryCount = 0 then .ok s
    else
      match drainOne s with
      | .ok s1 => drainLoop budget s1
      | .abort s1 => .abort s1

/-- How many packets a call may take (R237). -/
def drainBudget (s : State) : Nat := if s.cfThreshold ≠ 0 then s.cfThreshold else s.cfEntryCount.toNat

/-- `CfProcess()`; an abort skips the after-drain step (R236, R244, R245). -/
def cfProcess (s : State) : State :=
  if s.cfEnabled then
    match drainLoop (drainBudget s) s with
    | .ok s1 => s1.lowerThresh
    | .abort s1 => s1
  else s

/-- `FbWrite32(a, v)`: store, and for the second word of a pair inside the enabled ring count an entry and drain (R234). -/
def fbWrite32 (a : Nat) (v : Word) (s : State) : State :=
  let s1 := s.setVram (s.vram.wr32 a v)
  if insideRing s1 a && decide (a % 8 = 4) then
    cfProcess ({ s1 with cfEntryCount := s1.cfEntryCount + 1 } : State).raiseThresh
  else s1

/-! ## The operations of the table -/

/-- `CF.PROCESS` (R236). As an operation of its own it follows R236 alone: no rule puts the bridge's gate before it (log entry 11). -/
def execCfProcess (s : State) : Result := .next (cfProcess s)

/-- `NOP` at the read pointer (R239). -/
def execNop (s : State) : Result := .next (takePacket .nop s).state

/-- `WRG` rejected at the read pointer (R241). -/
def execWrgRejected (hi : BitVec 8) (reg : BitVec 21) (lo : BitVec 2) (s : State) : Result :=
  .next (takePacket (.rejected hi reg lo) s).state

/-- `WRG` at the read pointer (R240). -/
def execWrg (hi : BitVec 8) (reg : BitVec 21) (lo : BitVec 2) (mask : Word) (s : State) : Result :=
  .next (takePacket (.grouped hi reg lo mask) s).state

/-- `WR` at the read pointer (R242). -/
def execWr (hi : BitVec 8) (reg : BitVec 21) (lo : BitVec 2) (data : Word) (s : State) : Result :=
  .next (takePacket (.single hi reg lo data) s).state

end Sys2Proof.Machine
end

