-- ==== Sys2Proof/Machine/Bridge.lean ====
section
/-! DEFINITION. The bridge (spec/42_bridge_puma.md): the THP control trigger, PUMA accesses, the Companion aperture, and the THP
indirect accesses that the register window sets off. -/

namespace Sys2Proof.Machine

/-- `ThpCtrlTrigger()`: the enable latch is loaded, or the missing companion logged (R191). -/
def thpCtrlTrigger (f : RegField) (s : State) : State :=
  if s.cfg.companionPresent then { s with bridgeEn := (s.fieldVal f).testBit s.cfg.thpEnBit }
  else s.log .bridgeNotConfigured

/-! ## PUMA accesses past the gate -/

/-- `PumaRead(a)` (R193). -/
def pumaRead (a : Word) (s : State) : Except Refusal (Word × State) :=
  match classify s.cfg a with
  | .fb => if a.toNat % 4 = 0 then .ok (s.vram.rd32 a.toNat, s) else .error .pumaMisaligned
  | .reg r => .ok (compRegRead s r, s)
  | .tex t => if a.toNat % 4 = 0 then .ok (s.tex.rd32 t, s) else .error .pumaMisaligned
  | .invalid => .ok (0, s.log (.invalidAddress a))

/-- `PumaWrite(a, v)` (R194). -/
def pumaWrite (a v : Word) (s : State) : Except Refusal State :=
  match classify s.cfg a with
  | .fb => if a.toNat % 4 = 0 then .ok (fbWrite32 a.toNat v s) else .error .pumaMisaligned
  | .reg r => .ok (compRegWrite r v s)
  | .tex t => if a.toNat % 4 = 0 then .ok (s.setTex (s.tex.wr32 t v)) else .error .pumaMisaligned
  | .invalid => .ok (s.log (.invalidAddress a))

/-! ## Gated accesses -/

/-- A PUMA read behind `BridgeGate()`: 0 and a diagnostic while the bridge is off (R190, R200). -/
def bridgeRead (a : Word) (s : State) : Except Refusal (Word × State) :=
  match bridgeGate s with
  | some d => .ok (0, s.log d)
  | none => pumaRead a s

/-- A PUMA write behind `BridgeGate()`: dropped with a diagnostic while the bridge is off (R190, R200). -/
def bridgeWrite (a v : Word) (s : State) : Except Refusal State :=
  match bridgeGate s with
  | some d => .ok (s.log d)
  | none => pumaWrite a v s

/-- `PUMA.R32` (R193). Issued on its own it passes the gate that "every PUMA access, direct or indirect" passes (R190; log entry
11). -/
def execPumaR32 (a : Word) (s : State) : Result := finishWord (bridgeRead a s)

/-- `PUMA.W32` (R194), behind the same gate. -/
def execPumaW32 (a v : Word) (s : State) : Result := finish (bridgeWrite a v s)

/-- Whether the Companion aperture admits a 4-byte access at an offset (R200, spec/20_memory.md R64, R65). -/
def companionAdmits (s : State) (off : Word) : Option Refusal :=
  if s.cfg.companionSize < off.toNat + 4 then some .apertureEdge
  else if off.toNat % 4 = 0 then none else some .companionMisaligned

/-- `COMP.R32 off`: the PUMA address is the offset itself (R200). -/
def execCompR32 (off : Word) (s : State) : Result :=
  match companionAdmits s off with
  | some r => .refused r
  | none => finishWord (bridgeRead off s)

/-- `COMP.W32 off, v` (R200). -/
def execCompW32 (off v : Word) (s : State) : Result :=
  match companionAdmits s off with
  | some r => .refused r
  | none => finish (bridgeWrite off v s)

/-! ## THP accesses as the register window sets them off -/

/-- The PUMA address in `THP_ADDR` (R205). -/
def thpAddr (s : State) : Word := BitVec.ofNat 32 (s.kindVal .thpAddr)

/-- The word in `THP_DATA`'s window bytes (R203). -/
def thpDataWord (s : State) : Word := BitVec.ofNat 32 (s.kindVal .thpData)

/-- `ThpIndirectWrite()` (R201). -/
def thpIndirectWrite (s : State) : Except Refusal State :=
  match bridgeGate s with
  | some d => .ok (s.log d)
  | none =>
    match pumaWrite (thpAddr s) (thpDataWord s) s with
    | .error r => .error r
    | .ok s1 => .ok s1.setHandshake

/-- `thp_stage <- v`. -/
def State.setStage (s : State) (v : Word) : State := { s with thpStage := v }

/-- `ThpIndirectRead()` (R202). -/
def thpIndirectRead (s : State) : Except Refusal State :=
  match bridgeGate s with
  | some d => .ok ((s.log d).setStage 0)
  | none =>
    match pumaRead (thpAddr s) s with
    | .error r => .error r
    | .ok (v, s1) => .ok (s1.setStage v).setHandshake

/-- `ThpDataReadByte(i)`: byte 0 performs the access, the other bytes come from the stage (R204). -/
def thpDataReadByte (i : Nat) (s : State) : Except Refusal (Byte × State) :=
  if i = 0 then
    match thpIndirectRead s with
    | .error r => .error r
    | .ok s1 => .ok (lane s1.thpStage 0, s1)
  else .ok (lane s.thpStage i, s)

end Sys2Proof.Machine
end

