-- ==== Sys2Proof/Machine/Engines.lean ====
section
/-! DEFINITION. The neighbour engines at their interface (spec/44_neighbour_engines.md): the 2D fill, the 3D setup and the swap
scheduler. Jobs complete inside the triggering byte write (R272, R277). -/

namespace Sys2Proof.Machine

/-! ## Draw2DEngine -/

/-- What a 2D fill reads of its fields while it runs (R273, spec/70_reset_and_hazards.md R324). -/
structure FillJob where
  dstX : Nat
  dstY : Nat
  sizeX : Nat
  sizeY : Nat
  pitch : Nat
  clipOn : Bool
  clipL : Nat
  clipT : Nat
  clipR : Nat
  clipB : Nat
  color : Byte
  vramSize : Nat
deriving DecidableEq, Repr

/-- The job in the register window; `f` is the control field, which holds the clip-enable bit (R270). -/
def fillJob (f : RegField) (s : State) : FillJob where
  dstX := s.idVal .d2DstX
  dstY := s.idVal .d2DstY
  sizeX := s.idVal .d2SizeX
  sizeY := s.idVal .d2SizeY
  pitch := s.idVal .d2DstPitch
  clipOn := (s.fieldVal f).testBit s.cfg.d2ClipEnBit
  clipL := s.idVal .d2ClipL
  clipT := s.idVal .d2ClipT
  clipR := s.idVal .d2ClipR
  clipB := s.idVal .d2ClipB
  color := BitVec.ofNat 8 (s.idVal .d2Fg)
  vramSize := s.cfg.vramSize

/-- Whether a pixel is drawn: clipping off, or the pixel inside the half-open clip rectangle (R273). -/
def pixelShown (j : FillJob) (x y : Nat) : Bool :=
  !j.clipOn || decide (j.clipL ≤ x ∧ x < j.clipR ∧ j.clipT ≤ y ∧ y < j.clipB)

/-- The byte a pixel is stored at (R273). -/
def pixelAddr (j : FillJob) (x y : Nat) : Nat := (y * j.pitch + x) % j.vramSize

/-- `n` pixels of row `y` from `x` on. -/
def fillRow (j : FillJob) (y : Nat) : Nat → Nat → Mem → Mem
  | 0, _, m => m
  | n + 1, x, m => fillRow j y n (x + 1) (if pixelShown j x y then m.write (pixelAddr j x y) j.color else m)

/-- `n` rows from `y` on. -/
def fillRows (j : FillJob) : Nat → Nat → Mem → Mem
  | 0, _, m => m
  | n + 1, y, m => fillRows j n (y + 1) (fillRow j y j.sizeX j.dstX m)

/-- `D2Run()`: a fill, and for any other raster operation no change of memory (R273). -/
def d2Run (f : RegField) (s : State) : State :=
  if s.idVal .d2Rop = s.cfg.ropFill then
    s.setVram (fillRows (fillJob f s) (fillJob f s).sizeY (fillJob f s).dstY s.vram)
  else s

/-- `d2_busy <- b`. -/
def State.setD2Busy (s : State) (b : Bool) : State := { s with d2Busy := b }

/-- `D2Complete()` (R274). -/
def d2Complete (f : RegField) (s : State) : State := (s.setD2Busy false).clearStartBit f s.cfg.d2StartBit

/-- `D2Trigger(old_start, new_start)` (R272). -/
def d2Trigger (f : RegField) (oldStart newStart : Bool) (s : State) : State :=
  if s.d2Busy = false ∧ oldStart = false ∧ newStart = true then d2Complete f (d2Run f (s.setD2Busy true)) else s

/-! ## Triangle3DSetup -/

/-- The values of every Triangle3D job field, read now (R277, R270). -/
def d3Capture (s : State) : List (FieldId × Nat) := d3JobFields.map (fun i => (i, s.idVal i))

/-- `d3_busy <- b`. -/
def State.setD3Busy (s : State) (b : Bool) : State := { s with d3Busy := b }

/-- `d3_batch <- block`. -/
def State.setD3Batch (s : State) (block : List (FieldId × Nat)) : State := { s with d3Batch := block }

/-- `D3Complete()` (R279). -/
def d3Complete (f : RegField) (s : State) : State := (s.setD3Busy false).clearStartBit f s.cfg.d3StartBit

/-- `D3Trigger(old_start, new_start)`: the parameter block is copied and handed over; no pixel is written (R277, R278). -/
def d3Trigger (f : RegField) (oldStart newStart : Bool) (s : State) : State :=
  if s.d3Busy = false ∧ oldStart = false ∧ newStart = true then
    d3Complete f (((s.setD3Busy true).setD3Batch (d3Capture s)).emit (.tri3DBatch (d3Capture s)))
  else s

/-! ## SwapScheduler -/

/-- `requestSwap()` (R281). -/
def execSwapReq (s : State) : Result := .next { s with swapReq := true }

/-- `requestSwapPending()`: saturating at 7 (R281). -/
def execSwapPend (s : State) : Result :=
  .next { s with swapPending := if s.swapPending = 7 then 7 else s.swapPending + 1 }

/-- The part of the tick that counts a pending swap down and performs it (R282). -/
def swapTick (s : State) : State :=
  if s.swapPending ≠ 0 ∧ s.swapReq = true then
    let s1 : State := { s with swapPending := s.swapPending - 1 }
    if s1.swapPending = 0 then ({ s1 with swapReq := false } : State).emit .presentSwap else s1
  else s

/-- `VSYNC` (R282). -/
def execVsync (s : State) : Result := .next ((swapTick s).emit .companionVsync)

end Sys2Proof.Machine
end

