-- ==== Sys2Proof/Machine/RegBank.lean ====
section
/-! DEFINITION. The register bank (spec/40_regbank.md): byte accesses, the last-byte actions, and the 16- and 32-bit accesses. -/

namespace Sys2Proof.Machine

/-- `MMIO.R8` on an offset (R121). -/
def mmioRead8 (o : Nat) (s : State) : Except Refusal (Byte × State) :=
  match fieldAt s.cfg o with
  | some (f, i) => if f.kind = .thpData then thpDataReadByte i s else .ok (s.rb.read o, s)
  | none => .ok (s.rb.read o, s)

/-- `LastByteAction(f, old, v)`, after the store (R123). -/
def lastByteAction (f : RegField) (old v : Byte) (s : State) : Except Refusal State :=
  match f.kind with
  | .plain => .ok s
  | .trigD2 => .ok (d2Trigger f (startOf s.cfg.d2StartBit old) (startOf s.cfg.d2StartBit v) s)
  | .trigD3 => .ok (d3Trigger f (startOf s.cfg.d3StartBit old) (startOf s.cfg.d3StartBit v) s)
  | .trigThpCtl => .ok (thpCtrlTrigger f s)
  | .trigCfCfg => .ok (cfCfgTrigger f s)
  | .thpAddr => .ok s
  | .thpData => thpIndirectWrite s
  | .cfBottom => .ok (cfBottomWrite f s)
  | .cfTop => .ok (cfTopWrite f s)
  | .cfThresh => .ok (cfThreshWrite f s)

/-- The recalculate-timings callback of a write to a `recalc` field (R130). -/
def recalcEvent (f : RegField) (s : State) : State := if f.recalc then s.emit .recalcTimings else s

/-- `MMIO.W8` on an offset (R122): the byte stored, then the callback, then the last-byte action. -/
def mmioWrite8 (o : Nat) (v : Byte) (s : State) : Except Refusal State :=
  match fieldAt s.cfg o with
  | none => .ok (s.setRb o v)
  | some (f, i) =>
    if i + 1 = f.width then lastByteAction f (s.rb.read o) v (recalcEvent f (s.setRb o v))
    else .ok (recalcEvent f (s.setRb o v))

/-- An `n`-byte register-window read, refused past the window's edge (R125, R132). -/
def mmioRead (o : Nat) (n : Width) (s : State) : Except Refusal (List Byte × State) :=
  if winSize < o + n.bytes then .error .windowEdge else readBytes mmioRead8 n.bytes o s

/-- A register-window write of some bytes, refused past the window's edge (R126, R132). -/
def mmioWrite (o : Nat) (bs : List Byte) (s : State) : Except Refusal State :=
  if winSize < o + bs.length then .error .windowEdge else writeBytes mmioWrite8 bs o s

/-- `MMIO.R8` (R121). -/
def execMmioR8 (o : BitVec 16) (s : State) : Result := finishRead .w1 (mmioRead o.toNat .w1 s)

/-- `MMIO.R16` (R125). -/
def execMmioR16 (o : BitVec 16) (s : State) : Result := finishRead .w2 (mmioRead o.toNat .w2 s)

/-- `MMIO.R32` (R125). -/
def execMmioR32 (o : BitVec 16) (s : State) : Result := finishRead .w4 (mmioRead o.toNat .w4 s)

/-- `MMIO.W8` (R122). -/
def execMmioW8 (o : BitVec 16) (v : Byte) (s : State) : Result := finish (mmioWrite o.toNat [v] s)

/-- `MMIO.W16` (R126). -/
def execMmioW16 (o : BitVec 16) (v : Half) (s : State) : Result := finish (mmioWrite o.toNat (halfBytes v) s)

/-- `MMIO.W32` (R126). -/
def execMmioW32 (o : BitVec 16) (v : Word) (s : State) : Result := finish (mmioWrite o.toNat (wordBytes v) s)

end Sys2Proof.Machine
end

