-- ==== Sys2Proof/Machine/Thp.lean ====
section
/-! DEFINITION. The abstract THP operations as the exact expansions of spec/30_encoding.md R103 into register-window accesses, which
set off spec/42_bridge_puma.md R201 to R204. -/

namespace Sys2Proof.Machine

/-- `THP.WR a, v` = `MMIO.W32 THP_ADDR.base, a`, then `MMIO.W32 THP_DATA.base, v` (R103, R201). -/
def execThpWr (a v : Word) (s : State) : Result :=
  match Cfg.fieldOfKind s.cfg .thpAddr, Cfg.fieldOfKind s.cfg .thpData with
  | some fa, some fd =>
    match mmioWrite fa.base (wordBytes a) s with
    | .error r => .refused r
    | .ok s1 => finish (mmioWrite fd.base (wordBytes v) s1)
  | _, _ => .refused .noThpField

/-- `THP.RD a` = `MMIO.W32 THP_ADDR.base, a`, then `MMIO.R32 THP_DATA.base` (R103, R202). -/
def execThpRd (a : Word) (s : State) : Result :=
  match Cfg.fieldOfKind s.cfg .thpAddr, Cfg.fieldOfKind s.cfg .thpData with
  | some fa, some fd =>
    match mmioWrite fa.base (wordBytes a) s with
    | .error r => .refused r
    | .ok s1 => finishRead .w4 (mmioRead fd.base .w4 s1)
  | _, _ => .refused .noThpField

end Sys2Proof.Machine
end

