-- ==== Sys2Proof/Machine/Dispatch.lean ====
section
/-! DEFINITION. One arm per operation. -/

namespace Sys2Proof.Machine

def exec (i : Instr) (s : State) : Host.Outcome State Fault Refusal :=
  match i with
  -- register window
  | .mmioR8 o => Sys2Proof.Machine.execMmioR8 o s
  | .mmioR16 o => Sys2Proof.Machine.execMmioR16 o s
  | .mmioR32 o => Sys2Proof.Machine.execMmioR32 o s
  | .mmioW8 o v => Sys2Proof.Machine.execMmioW8 o v s
  | .mmioW16 o v => Sys2Proof.Machine.execMmioW16 o v s
  | .mmioW32 o v => Sys2Proof.Machine.execMmioW32 o v s
  -- Linear aperture
  | .linR8 off => Sys2Proof.Machine.execLinR8 off s
  | .linR16 off => Sys2Proof.Machine.execLinR16 off s
  | .linR32 off => Sys2Proof.Machine.execLinR32 off s
  | .linW8 off v => Sys2Proof.Machine.execLinW8 off v s
  | .linW16 off v => Sys2Proof.Machine.execLinW16 off v s
  | .linW32 off v => Sys2Proof.Machine.execLinW32 off v s
  -- ROM aperture
  | .romR8 off => Sys2Proof.Machine.execRomR8 off s
  | .romR16 off => Sys2Proof.Machine.execRomR16 off s
  | .romR32 off => Sys2Proof.Machine.execRomR32 off s
  | .romW8 off _ => Sys2Proof.Machine.execRomW8 off s
  | .romW16 off _ => Sys2Proof.Machine.execRomW16 off s
  | .romW32 off _ => Sys2Proof.Machine.execRomW32 off s
  -- Companion aperture
  | .compR32 off => Sys2Proof.Machine.execCompR32 off s
  | .compW32 off v => Sys2Proof.Machine.execCompW32 off v s
  -- configuration space
  | .cfgR8 reg => Sys2Proof.Machine.execCfgR8 reg s
  | .cfgR16 reg => Sys2Proof.Machine.execCfgR16 reg s
  | .cfgR32 reg => Sys2Proof.Machine.execCfgR32 reg s
  | .cfgW8 reg v => Sys2Proof.Machine.execCfgW8 reg v s
  | .cfgW16 reg v => Sys2Proof.Machine.execCfgW16 reg v s
  | .cfgW32 reg v => Sys2Proof.Machine.execCfgW32 reg v s
  -- PUMA bus and THP
  | .pumaR32 a => Sys2Proof.Machine.execPumaR32 a s
  | .pumaW32 a v => Sys2Proof.Machine.execPumaW32 a v s
  | .thpRd a => Sys2Proof.Machine.execThpRd a s
  | .thpWr a v => Sys2Proof.Machine.execThpWr a v s
  -- events
  | .reset => Sys2Proof.Machine.execReset s
  | .vsync => Sys2Proof.Machine.execVsync s
  | .swapReq => Sys2Proof.Machine.execSwapReq s
  | .swapPend => Sys2Proof.Machine.execSwapPend s
  -- CmdFifo
  | .cfProcess => Sys2Proof.Machine.execCfProcess s
  | .nop => Sys2Proof.Machine.execNop s
  | .wrgRejected hi reg lo => Sys2Proof.Machine.execWrgRejected hi reg lo s
  | .wrg hi reg lo mask => Sys2Proof.Machine.execWrg hi reg lo mask s
  | .wr hi reg lo data => Sys2Proof.Machine.execWr hi reg lo data s

end Sys2Proof.Machine
end

