-- ==== Sys2Proof/Machine/HostBus.lean ====
section
/-! DEFINITION. What the outside world can ask of the device (spec/00_scope.md R10, R11): operations by their descriptors, host
memory accesses by bus address (spec/20_memory.md R67), host configuration accesses by function (spec/41_pci_aperture.md R163). -/

namespace Sys2Proof.Machine

/-! ## Host memory accesses -/

/-- The operation a host memory read becomes inside an aperture; the Companion aperture carries four bytes only (R65, R67). -/
def readInstr (ap : Aperture) (off : Nat) (n : Width) : Except Refusal Instr :=
  match ap, n with
  | .linear, .w1 => .ok (.linR8 (BitVec.ofNat 32 off))
  | .linear, .w2 => .ok (.linR16 (BitVec.ofNat 32 off))
  | .linear, .w4 => .ok (.linR32 (BitVec.ofNat 32 off))
  | .mmio, .w1 => .ok (.mmioR8 (BitVec.ofNat 16 off))
  | .mmio, .w2 => .ok (.mmioR16 (BitVec.ofNat 16 off))
  | .mmio, .w4 => .ok (.mmioR32 (BitVec.ofNat 16 off))
  | .rom, .w1 => .ok (.romR8 (BitVec.ofNat 32 off))
  | .rom, .w2 => .ok (.romR16 (BitVec.ofNat 32 off))
  | .rom, .w4 => .ok (.romR32 (BitVec.ofNat 32 off))
  | .companion, .w4 => .ok (.compR32 (BitVec.ofNat 32 off))
  | .companion, .w1 => .error .companionWidth
  | .companion, .w2 => .error .companionWidth

/-- The operation a host memory write becomes inside an aperture; the low `n` bytes of `v` are the data (R62, R65, R67). -/
def writeInstr (ap : Aperture) (off : Nat) (n : Width) (v : Word) : Except Refusal Instr :=
  match ap, n with
  | .linear, .w1 => .ok (.linW8 (BitVec.ofNat 32 off) (lane v 0))
  | .linear, .w2 => .ok (.linW16 (BitVec.ofNat 32 off) (v.extractLsb' 0 16))
  | .linear, .w4 => .ok (.linW32 (BitVec.ofNat 32 off) v)
  | .mmio, .w1 => .ok (.mmioW8 (BitVec.ofNat 16 off) (lane v 0))
  | .mmio, .w2 => .ok (.mmioW16 (BitVec.ofNat 16 off) (v.extractLsb' 0 16))
  | .mmio, .w4 => .ok (.mmioW32 (BitVec.ofNat 16 off) v)
  | .rom, .w1 => .ok (.romW8 (BitVec.ofNat 32 off) (lane v 0))
  | .rom, .w2 => .ok (.romW16 (BitVec.ofNat 32 off) (v.extractLsb' 0 16))
  | .rom, .w4 => .ok (.romW32 (BitVec.ofNat 32 off) v)
  | .companion, .w4 => .ok (.compW32 (BitVec.ofNat 32 off) v)
  | .companion, .w1 => .error .companionWidth
  | .companion, .w2 => .error .companionWidth

/-- A dispatched host memory access: `mk` names the operation inside the aperture. An access to no aperture changes nothing and
returns nothing of this device's (R67). -/
def runTarget (t : Target) (mk : Aperture → Nat → Except Refusal Instr) (s : State) : Result :=
  match t with
  | .elsewhere => .next s
  | .refused r => .refused r
  | .aperture ap off =>
    match mk ap off with
    | .error r => .refused r
    | .ok i => exec i s

/-- `MemRead(addr, n)` (R67). -/
def memRead (addr : Word) (n : Width) (s : State) : Result :=
  runTarget (target s addr.toNat n.bytes) (fun ap off => readInstr ap off n) s

/-- `MemWrite(addr, n, v)` (R67). -/
def memWrite (addr : Word) (n : Width) (v : Word) (s : State) : Result :=
  runTarget (target s addr.toNat n.bytes) (fun ap off => writeInstr ap off n v) s

/-! ## Host configuration accesses -/

/-- A read of one byte of an absent function: 0xFF and a diagnostic (R163, spec/60_exceptions.md R291, R292). -/
def absentRead8 (reg : Nat) (s : State) : Except Refusal (Byte × State) :=
  .ok (0xFF#8, s.log (.invalidAddress (BitVec.ofNat 32 reg)))

/-- A write of one byte of an absent function: ignored, with a diagnostic (R163, spec/60_exceptions.md R292). -/
def absentWrite8 (reg : Nat) (_ : Byte) (s : State) : Except Refusal State :=
  .ok (s.log (.invalidAddress (BitVec.ofNat 32 reg)))

/-- `CfgRead(reg, n)` of a function: function 0 is the device, the others are absent (R163). -/
def confAccessRead (fn : BitVec 3) (reg : BitVec 8) (n : Width) (s : State) : Result :=
  if fn = 0 then
    match n with
    | .w1 => exec (.cfgR8 reg) s
    | .w2 => exec (.cfgR16 reg) s
    | .w4 => exec (.cfgR32 reg) s
  else if 256 < reg.toNat + n.bytes then .refused .configEdge
  else finishRead n (readBytes absentRead8 n.bytes reg.toNat s)

/-- The low `n` bytes of a value, the lowest first (R62). -/
def lowBytes : Width → Word → List Byte
  | .w1, v => [lane v 0]
  | .w2, v => [lane v 0, lane v 1]
  | .w4, v => wordBytes v

/-- `CfgWrite(reg, n, v)` of a function (R163). -/
def confAccessWrite (fn : BitVec 3) (reg : BitVec 8) (n : Width) (v : Word) (s : State) : Result :=
  if fn = 0 then
    match n with
    | .w1 => exec (.cfgW8 reg (lane v 0)) s
    | .w2 => exec (.cfgW16 reg (v.extractLsb' 0 16)) s
    | .w4 => exec (.cfgW32 reg v) s
  else if 256 < reg.toNat + n.bytes then .refused .configEdge
  else finish (writeBytes absentWrite8 (lowBytes n v) reg.toNat s)

/-! ## Taking a request -/

/-- The waiting requests with the rest of an operation stream put back, where there is one. -/
def putBack (rest : List Byte) (bus : List Request) : List Request :=
  if rest = [] then bus else .ops rest :: bus

/-- The first operation of a stream, with the rest of the stream left waiting. A stream with no byte asks nothing. -/
def runOps (bytes : List Byte) (s : State) : Result :=
  if bytes = [] then .next s
  else
    match decodeOp bytes with
    | .error _ => .refused .undecodable
    | .ok (i, rest) =>
      if i.wellFormed then exec i { s with bus := putBack rest s.bus } else .refused .undecodable

/-- One request, with the state's own queue holding the requests after it. -/
def runRequest (r : Request) (s : State) : Result :=
  match r with
  | .ops bytes => runOps bytes s
  | .memRead addr n => memRead addr n s
  | .memWrite addr n v => memWrite addr n v s
  | .confRead fn reg n => confAccessRead fn reg n s
  | .confWrite fn reg n v => confAccessWrite fn reg n v s

/-- A slot's bytes and zeros after it, stored from address 0 on. -/
def storeBytes : List Byte → Nat → Mem → Mem
  | [], _, m => m
  | b :: bs, a, m => storeBytes bs (a + 1) (m.write a b)

/-- The ring set up so that the next drain fetches the header slot at address 0: ring pages 0 to 1, the pointer at slot 0, one
entry pending, the FIFO enabled, the slot's bytes in place (log entry 8). -/
def State.withSlot (s : State) (bytes : List Byte) : State :=
  { s with
    vram := storeBytes bytes 0 s.vram
    cfEnabled := true
    cfBottom := 0
    cfTop := 1
    cfReadPtr := 0
    cfEntryCount := 1 }

/-- The state with one more request in front. -/
def State.pushRequest (s : State) (r : Request) : State := { s with bus := r :: s.bus }

end Sys2Proof.Machine
end

