-- ==== Sys2Proof/Machine/Step.lean ====
section
/-! DEFINITION. One step of the device: the next waiting request runs to completion (spec/00_scope.md R10). -/

namespace Sys2Proof.Machine

/-- The device takes the first waiting request, returns nothing of the one before, and runs it whole. With no request waiting
nothing happens: "the device waits for transactions" (spec/70_reset_and_hazards.md R311). -/
def step (s : State) : Host.Outcome State Fault Refusal :=
  match s.bus with
  | [] => .next s
  | r :: rest => runRequest r { s with bus := rest, reply := none }

/-- The state with an instruction of the opcode table stored where `step` fetches its next one: a descriptor (8 bits) at the head of
the operation stream; a CmdFifo header slot (more bits) in the ring, with `CF.PROCESS`, the operation that takes packets from the
ring, at the head of the operation stream (log entry 8). -/
def State.withFetchWord (s : State) (nbits w : Nat) : State :=
  if nbits ≤ 8 then s.pushRequest (.ops (tableBytes nbits w))
  else (s.withSlot (tableBytes nbits w)).pushRequest (.ops [0x80#8])

end Sys2Proof.Machine
end

