-- ==== Sys2Proof/Safety.lean ====
section
/-! DEFINITION. The terms in which statements speak of runs: the bridge being on, operations run one after another, register-window
bytes whose write acts on nothing, and the invariants of the device. A run is safe when no step faults (no step can: the type of
faults is empty, spec/60_exceptions.md R290); a refused operation is the spec's own "refused" (spec/00_scope.md R8). -/

namespace Sys2Proof.Machine

/-- `bridge_on` (spec/42_bridge_puma.md R190). -/
def bridgeOn (s : State) : Prop := s.cfg.companionPresent = true ∧ s.bridgeEn = true

/-- Operations one after another, up to the first that is refused. -/
def runAll : List Instr → State → Result
  | [], s => .next s
  | i :: l, s =>
    match exec i s with
    | .next t => runAll l t
    | .fault r => .fault r
    | .refused r => .refused r

/-- A byte read, and then what its state and its byte go into; a read that is refused ends there, and so does one that returns no
byte. -/
def readThen (r : Result) (k : State → Byte → Result) : Result :=
  match r with
  | .next t =>
    match t.reply with
    | some (.r8 b) => k t b
    | some (.r16 _) => .next t
    | some (.r32 _) => .next t
    | none => .next t
  | .fault f => .fault f
  | .refused e => .refused e

/-- An offset whose byte is stored and nothing more: a fallback byte, a byte that is not its field's last, or a byte of a `plain` or
`thp_addr` field (spec/40_regbank.md R122, R123). -/
def quietOffset (c : Cfg) (o : Nat) : Prop :=
  ∀ f i, fieldAt c o = some (f, i) → i + 1 ≠ f.width ∨ f.kind = .plain ∨ f.kind = .thpAddr

/-- An offset whose byte a read returns as stored: every offset but those of `THP_DATA` (R121). -/
def storedOffset (c : Cfg) (o : Nat) : Prop := ∀ f i, fieldAt c o = some (f, i) → f.kind ≠ .thpData

/-- The events a write of an offset's byte emits before any last-byte action (R130). -/
def recalcAt (c : Cfg) (o : Nat) : List Event :=
  match fieldAt c o with
  | some (f, _) => if f.recalc then [.recalcTimings] else []
  | none => []

/-- A ring between page borders of the framebuffer with the spec's slot of 8 bytes (spec/10_state.md R35: "valid"). -/
def validRing (s : State) : Prop :=
  ringBottom s < ringTop s ∧ ringTop s ≤ s.cfg.fbSize ∧ s.cfg.cfUnitBytes = 8

/-! ## Invariants -/

/-- The four memories are canonical and hold no address outside their range (spec/10_state.md R20). -/
def memoryInv (s : State) : Prop :=
  (s.rb.wf = true ∧ s.rb.below winSize = true) ∧ (s.conf.wf = true ∧ s.conf.below 256 = true)
    ∧ (s.vram.wf = true ∧ s.vram.below s.cfg.vramSize = true) ∧ (s.tex.wf = true ∧ s.tex.below s.cfg.texSize = true)

/-- An enabled aperture stands at a nonzero aligned base, and none is enabled while memory decode is off
(spec/41_pci_aperture.md R153, R155, R156). -/
def apertureInv (s : State) : Prop :=
  ∀ ap, (s.ap.get ap).en = true →
    memEn s = true ∧ (s.ap.get ap).base ≠ 0 ∧ (s.ap.get ap).base &&& baseMask ap = (s.ap.get ap).base

/-- A configuration byte that no write changes: all but the command register, the BAR groups, the ROM BAR and the interrupt line
(spec/10_state.md R28). -/
def readOnlyByte (c : Cfg) (reg : Nat) : Prop :=
  reg ≠ c.cfgCmd ∧ reg ≠ c.cfgCmd + 1 ∧ barAt c reg = none ∧ reg ≠ c.cfgIntLine

/-- Read-only configuration bytes hold `CFG_RESET`, and the command register's bits outside `CMD_WMASK` read 0 (R25, R28). -/
def confInv (s : State) : Prop :=
  (∀ reg, readOnlyByte s.cfg reg → s.conf.read reg = Mem.read s.cfg.cfgReset reg)
    ∧ s.conf.read s.cfg.cfgCmd &&& ~~~lane s.cfg.cmdWmask 0 = 0
    ∧ s.conf.read (s.cfg.cfgCmd + 1) &&& ~~~lane s.cfg.cmdWmask 1 = 0

/-- Nothing is pending between requests: no entry, no job, both start bits clear (spec/43_cmdfifo.md R248 item 5, spec/10_state.md
R41); and the bridge is enabled only with a companion (spec/42_bridge_puma.md R191). -/
def idleInv (s : State) : Prop :=
  s.cfEntryCount = 0 ∧ s.d2Busy = false ∧ s.d3Busy = false
    ∧ (∀ f ∈ s.cfg.fields, f.kind = .trigD2 → startOf s.cfg.d2StartBit (s.rb.read f.last) = false)
    ∧ (∀ f ∈ s.cfg.fields, f.kind = .trigD3 → startOf s.cfg.d3StartBit (s.rb.read f.last) = false)
    ∧ (s.bridgeEn = true → s.cfg.companionPresent = true)

/-- The CmdFifo latches fit the widths of the configuration (spec/10_state.md R20 item 8). -/
def latchInv (s : State) : Prop :=
  s.cfBottom.toNat < 2 ^ s.cfg.cfBotW ∧ s.cfTop.toNat < 2 ^ s.cfg.cfTopW ∧ s.cfThreshold < 2 ^ s.cfg.cfThrW

end Sys2Proof.Machine
end

