-- ==== Sys2Proof/Certificates/Slice0/Obligations.lean ====
section
/-! DEFINITION. The statements for the provers. An equation `t = { s with ... }` names every field that may differ between the two
states, so it is the frame of the operation; memories are described by the bytes they read. -/

open Sys2Proof Sys2Proof.Machine

/-! ## Encodings -/

/-- Decoding the bytes of a transaction or event gives it back, with every operand at every value, and leaves the bytes after it. The
operand layout is the model's (log entry 3). -/
def Obligations.TransactionDecodeEncode : Prop :=
  ∀ (i : Instr) (rest : List Byte), i.packet? = none → decodeOp (encode i ++ rest) = .ok (i, rest)

/-- Every well-formed packet is read back from its header slot, and every header slot is the slot of exactly the well-formed packet it
decodes to: no bit of the 64 is dropped (spec/30_encoding.md R92, R93). -/
def Obligations.PacketSlotRoundTrip : Prop :=
  (∀ (i : Instr) (p : Packet) (rest : List Byte), i.packet? = some p → i.wellFormed = true →
    decodeSlot (encode i ++ rest) = .ok (i, rest))
  ∧ (∀ aw dw : Word, (decodePacket aw dw).wellFormed = true ∧ (decodePacket aw dw).words = (aw, dw))

/-- R94's four rows as match and mask on the 64-bit slot, the first that matches winning; the register index is R96's. -/
def Obligations.PacketClassificationPriority : Prop :=
  ∀ aw dw : Word,
    let slot : BitVec 64 := dw ++ aw
    if slot &&& 0xFFFFFFFFFFFFFFFF#64 = 0x0000000000000000#64 then decodePacket aw dw = .nop
    else if slot &&& 0xFFFFFFFF80000000#64 = 0x0000000080000000#64 then
      ∃ hi reg lo, decodePacket aw dw = .rejected hi reg lo ∧ reg.toNat = aw.toNat / 4 % 2 ^ 21
    else if slot &&& 0x0000000080000000#64 = 0x0000000080000000#64 then
      ∃ hi reg lo, decodePacket aw dw = .grouped hi reg lo dw ∧ reg.toNat = aw.toNat / 4 % 2 ^ 21
    else ∃ hi reg lo, decodePacket aw dw = .single hi reg lo dw ∧ reg.toNat = aw.toNat / 4 % 2 ^ 21

/-- A few words written out from R91 and R93 decode to what they stand for. -/
def Obligations.SampleWordsDecode : Prop :=
  decodeTableWord 8 0x0C = some (.mmioW32 0 0) ∧ decodeTableWord 8 0x1A = some (.linW16 0 0)
    ∧ decodeTableWord 8 0x20 = some (.romR8 0) ∧ decodeTableWord 8 0x3C = some (.compW32 0 0)
    ∧ decodeTableWord 8 0x4A = some (.cfgW16 0 0) ∧ decodeTableWord 8 0x54 = some (.pumaR32 0)
    ∧ decodeTableWord 8 0x6C = some (.thpWr 0 0) ∧ decodeTableWord 8 0x72 = some .vsync
    ∧ decodeTableWord 8 0x80 = some .cfProcess ∧ decodeTableWord 64 0 = some .nop
    ∧ decodeTableWord 64 0x000000110000000C = some (.wr 0 3 0 0x11)
    ∧ decodeTableWord 64 0x0000000580000040 = some (.wrg 0 0x10 0 5)
    ∧ decodeTableWord 64 0x0000000080000040 = some (.wrgRejected 0 0x10 0)

/-! ## A step -/

/-- A step whose next request is a stream of operations runs the operation its bytes decode to, with that operation's bytes taken
from the stream and the previous reply cleared. The stream is the model's (log entries 3 and 8). -/
def Obligations.StepRunsDecodedOperation : Prop :=
  ∀ (s : State) (bytes rest : List Byte) (bus : List Request) (i : Instr),
    s.bus = .ops bytes :: bus → decodeOp bytes = .ok (i, rest) → i.wellFormed = true →
    step s = exec i { s with bus := putBack rest bus, reply := none }

/-- A drain with one entry pending runs the packet in the slot at the read pointer, and then the after-drain step, which clears the
status bit when the count is below the threshold, unless that packet aborted (R236, R238, R244, R245). -/
def Obligations.DrainRunsFetchedPacket : Prop :=
  ∀ s : State, s.cfEnabled = true → s.cfEntryCount = 1 → slotOk s = true →
    let p := decodePacket (s.vram.rd32 (slotAddr s)) (s.vram.rd32 (slotAddr s + 4))
    exec p.toInstr s = .next (takePacket p s).state
    ∧ exec .cfProcess s = .next (match takePacket p s with
        | .ok t => { t with cfThreshStatus := if t.cfEntryCount.toNat < t.cfThreshold then false else t.cfThreshStatus }
        | .abort t => t)

/-- A host memory access wholly inside one enabled aperture, none of whose bytes another aperture claims, is that aperture's
operation of the access's width at the offset from its base, a write with the low bytes of its value; a 1- or 2-byte access to the
Companion aperture is refused (spec/20_memory.md R62, R65, R67). -/
def Obligations.HostAccessRunsApertureOperation : Prop :=
  ∀ (s : State) (ap : Aperture) (addr : Word) (n : Width) (bus : List Request),
    (s.ap.get ap).en = true → (s.ap.get ap).base.toNat ≤ addr.toNat →
    addr.toNat + n.bytes ≤ (s.ap.get ap).base.toNat + s.cfg.apSize ap → addr.toNat + n.bytes ≤ 2 ^ 32 →
    (∀ q k, q ≠ ap → k < n.bytes → claims s (addr.toNat + k) q = false) →
    let off : Nat := addr.toNat - (s.ap.get ap).base.toNat
    let u : State := { s with bus := bus, reply := none }
    (s.bus = .memRead addr n :: bus →
      step s = match ap, n with
        | .linear, .w1 => exec (.linR8 (BitVec.ofNat 32 off)) u
        | .linear, .w2 => exec (.linR16 (BitVec.ofNat 32 off)) u
        | .linear, .w4 => exec (.linR32 (BitVec.ofNat 32 off)) u
        | .mmio, .w1 => exec (.mmioR8 (BitVec.ofNat 16 off)) u
        | .mmio, .w2 => exec (.mmioR16 (BitVec.ofNat 16 off)) u
        | .mmio, .w4 => exec (.mmioR32 (BitVec.ofNat 16 off)) u
        | .companion, .w1 => .refused .companionWidth
        | .companion, .w2 => .refused .companionWidth
        | .companion, .w4 => exec (.compR32 (BitVec.ofNat 32 off)) u
        | .rom, .w1 => exec (.romR8 (BitVec.ofNat 32 off)) u
        | .rom, .w2 => exec (.romR16 (BitVec.ofNat 32 off)) u
        | .rom, .w4 => exec (.romR32 (BitVec.ofNat 32 off)) u)
    ∧ (∀ v : Word, s.bus = .memWrite addr n v :: bus →
      step s = match ap, n with
        | .linear, .w1 => exec (.linW8 (BitVec.ofNat 32 off) (v.extractLsb' 0 8)) u
        | .linear, .w2 => exec (.linW16 (BitVec.ofNat 32 off) (v.extractLsb' 0 16)) u
        | .linear, .w4 => exec (.linW32 (BitVec.ofNat 32 off) v) u
        | .mmio, .w1 => exec (.mmioW8 (BitVec.ofNat 16 off) (v.extractLsb' 0 8)) u
        | .mmio, .w2 => exec (.mmioW16 (BitVec.ofNat 16 off) (v.extractLsb' 0 16)) u
        | .mmio, .w4 => exec (.mmioW32 (BitVec.ofNat 16 off) v) u
        | .companion, .w1 => .refused .companionWidth
        | .companion, .w2 => .refused .companionWidth
        | .companion, .w4 => exec (.compW32 (BitVec.ofNat 32 off) v) u
        | .rom, .w1 => exec (.romW8 (BitVec.ofNat 32 off) (v.extractLsb' 0 8)) u
        | .rom, .w2 => exec (.romW16 (BitVec.ofNat 32 off) (v.extractLsb' 0 16)) u
        | .rom, .w4 => exec (.romW32 (BitVec.ofNat 32 off) v) u)

/-- Outside one aperture: an access none of whose bytes an enabled aperture claims changes no state of the device (spec/20_memory.md
R67) and returns nothing of it (log entry 15); an access to a bus address that two enabled apertures claim is refused (R68); and so is
an access with one byte in an aperture and another byte outside it (R64). That the access is R64's also where the other byte lies in
another aperture, and R68's where a byte is claimed twice besides, is the model's choice (log entry 7). -/
def Obligations.AccessesOutsideOneAperture : Prop :=
  ∀ (s : State) (addr : Word) (n : Width) (bus : List Request),
    ((∀ q k, k < n.bytes → claims s (addr.toNat + k) q = false) →
      (s.bus = .memRead addr n :: bus → step s = .next { s with bus := bus, reply := none })
      ∧ (∀ v, s.bus = .memWrite addr n v :: bus → step s = .next { s with bus := bus, reply := none }))
    ∧ ((∃ p q k, p ≠ q ∧ k < n.bytes ∧ claims s (addr.toNat + k) p = true ∧ claims s (addr.toNat + k) q = true) →
      (s.bus = .memRead addr n :: bus → step s = .refused .apertureOverlap)
      ∧ (∀ v, s.bus = .memWrite addr n v :: bus → step s = .refused .apertureOverlap))
    ∧ ((∀ p q k, p ≠ q → k < n.bytes → ¬ (claims s (addr.toNat + k) p = true ∧ claims s (addr.toNat + k) q = true)) →
      (∃ p j k, j < n.bytes ∧ claims s (addr.toNat + j) p = true ∧ k < n.bytes ∧ claims s (addr.toNat + k) p = false) →
      (s.bus = .memRead addr n :: bus → step s = .refused .apertureEdge)
      ∧ (∀ v, s.bus = .memWrite addr n v :: bus → step s = .refused .apertureEdge))

/-- A host configuration access addressed to function 0 is the configuration operation of its width. To another function a read
returns 0xFF per byte and a write is ignored (R163); the diagnostic stream keeps its records and gains one `InvalidAddress` per byte
(R292), which carries the register number and comes once per byte by log entry 6. Past offset 255 either is refused, as R64 and R162 refuse
it of the function-0 space; that this holds for an absent function is the model's choice (log entry 7). -/
def Obligations.ConfigurationAccessByFunction : Prop :=
  ∀ (s : State) (fn : BitVec 3) (reg : BitVec 8) (n : Width) (bus : List Request),
    let u : State := { s with bus := bus, reply := none }
    let logged : List Diag := s.diags ++ (List.range n.bytes).map (fun k => .invalidAddress (BitVec.ofNat 32 (reg.toNat + k)))
    (s.bus = .confRead fn reg n :: bus →
      (fn = 0 → step s = match n with
        | .w1 => exec (.cfgR8 reg) u
        | .w2 => exec (.cfgR16 reg) u
        | .w4 => exec (.cfgR32 reg) u)
      ∧ (fn ≠ 0 → reg.toNat + n.bytes ≤ 256 →
        step s = .next { s with bus := bus, diags := logged, reply := some (match n with
          | .w1 => .r8 0xFF
          | .w2 => .r16 0xFFFF
          | .w4 => .r32 0xFFFFFFFF) })
      ∧ (fn ≠ 0 → 256 < reg.toNat + n.bytes → step s = .refused .configEdge))
    ∧ (∀ v : Word, s.bus = .confWrite fn reg n v :: bus →
      (fn = 0 → step s = match n with
        | .w1 => exec (.cfgW8 reg (v.extractLsb' 0 8)) u
        | .w2 => exec (.cfgW16 reg (v.extractLsb' 0 16)) u
        | .w4 => exec (.cfgW32 reg v) u)
      ∧ (fn ≠ 0 → reg.toNat + n.bytes ≤ 256 → step s = .next { s with bus := bus, reply := none, diags := logged })
      ∧ (fn ≠ 0 → 256 < reg.toNat + n.bytes → step s = .refused .configEdge))

/-! ## Register window -/

/-- Reads of bytes outside `THP_DATA` return the stored bytes, the lowest offset in the lowest bits, and change nothing else (R121,
R125). -/
def Obligations.StoredBytesRead : Prop :=
  ∀ (s : State) (o : BitVec 16),
    (storedOffset s.cfg o.toNat → exec (.mmioR8 o) s = .next (s.setReply (.r8 (s.rb.read o.toNat))))
    ∧ (o.toNat + 2 ≤ winSize → (∀ k, k < 2 → storedOffset s.cfg (o.toNat + k)) →
      exec (.mmioR16 o) s = .next (s.setReply (.r16 (half (s.rb.read o.toNat) (s.rb.read (o.toNat + 1))))))
    ∧ (o.toNat + 4 ≤ winSize → (∀ k, k < 4 → storedOffset s.cfg (o.toNat + k)) →
      exec (.mmioR32 o) s = .next (s.setReply (.r32 (s.rb.rd32 o.toNat))))

/-- 16- and 32-bit accesses are byte accesses in increasing address order: a read returns the bytes of its byte reads, the first in the
lowest bits, with their side effects (R125), a write is its byte writes (R126); an access past the window's edge is refused (R132). -/
def Obligations.WideWindowAccessIsByteAccesses : Prop :=
  ∀ (s : State) (o : BitVec 16),
    (exec (.mmioR16 o) s = if o.toNat + 2 ≤ winSize
      then readThen (exec (.mmioR8 o) s) fun t b0 => readThen (exec (.mmioR8 (o + 1)) t) fun u b1 => .next (u.setReply (.r16 (b1 ++ b0)))
      else .refused .windowEdge)
    ∧ (exec (.mmioR32 o) s = if o.toNat + 4 ≤ winSize
      then readThen (exec (.mmioR8 o) s) fun t b0 => readThen (exec (.mmioR8 (o + 1)) t) fun u b1 =>
        readThen (exec (.mmioR8 (o + 2)) u) fun v b2 => readThen (exec (.mmioR8 (o + 3)) v) fun w b3 =>
          .next (w.setReply (.r32 (b3 ++ b2 ++ b1 ++ b0)))
      else .refused .windowEdge)
    ∧ (∀ v : Half, exec (.mmioW16 o v) s = if o.toNat + 2 ≤ winSize
      then runAll [.mmioW8 o (lane v 0), .mmioW8 (o + 1) (lane v 1)] s else .refused .windowEdge)
    ∧ (∀ v : Word, exec (.mmioW32 o v) s = if o.toNat + 4 ≤ winSize
      then runAll [.mmioW8 o (lane v 0), .mmioW8 (o + 1) (lane v 1), .mmioW8 (o + 2) (lane v 2), .mmioW8 (o + 3) (lane v 3)] s
      else .refused .windowEdge)

/-- A write of bytes none of which acts stores exactly those bytes, emits the recalculate events of R130 in address order and changes
nothing else (R122, R126, R129). -/
def Obligations.QuietWriteStoresItsBytes : Prop :=
  ∀ (s : State) (o : BitVec 16),
    (∀ v : Byte, quietOffset s.cfg o.toNat →
      ∃ t, exec (.mmioW8 o v) s = .next t
        ∧ t = { s with rb := t.rb, events := s.events ++ recalcAt s.cfg o.toNat }
        ∧ ∀ a, t.rb.read a = if a = o.toNat then v else s.rb.read a)
    ∧ (∀ v : Half, o.toNat + 2 ≤ winSize → (∀ k, k < 2 → quietOffset s.cfg (o.toNat + k)) →
      ∃ t, exec (.mmioW16 o v) s = .next t
        ∧ t = { s with rb := t.rb, events := s.events ++ (List.range 2).flatMap (fun k => recalcAt s.cfg (o.toNat + k)) }
        ∧ ∀ a, t.rb.read a = if o.toNat ≤ a ∧ a < o.toNat + 2 then lane v (a - o.toNat) else s.rb.read a)
    ∧ (∀ v : Word, o.toNat + 4 ≤ winSize → (∀ k, k < 4 → quietOffset s.cfg (o.toNat + k)) →
      ∃ t, exec (.mmioW32 o v) s = .next t
        ∧ t = { s with rb := t.rb, events := s.events ++ (List.range 4).flatMap (fun k => recalcAt s.cfg (o.toNat + k)) }
        ∧ ∀ a, t.rb.read a = if o.toNat ≤ a ∧ a < o.toNat + 4 then lane v (a - o.toNat) else s.rb.read a)

/-- An offset no field covers stores on a write, returns the stored byte on a read, emits and fires nothing, and reads 0 after reset
(R129). -/
def Obligations.FallbackOffsetIsPlainStorage : Prop :=
  ∀ (s : State) (o : BitVec 16) (v : Byte), fieldAt s.cfg o.toNat = none →
    (∃ t, exec (.mmioW8 o v) s = .next t ∧ t = { s with rb := t.rb }
      ∧ (∀ a, t.rb.read a = if a = o.toNat then v else s.rb.read a)
      ∧ exec (.mmioR8 o) t = .next (t.setReply (.r8 v)))
    ∧ exec (.mmioR8 o) s = .next (s.setReply (.r8 (s.rb.read o.toNat)))
    ∧ (∃ t, exec .reset s = .next t ∧ t.rb.read o.toNat = 0)

/-- Writing one byte of a field of any kind but `THP_DATA` and the two engine control fields leaves its sibling bytes, and the byte
reads back as written (R128). -/
def Obligations.ByteWritesAreIsolated : Prop :=
  ∀ (s : State) (f : RegField) (o p : BitVec 16) (v : Byte), s.cfg.wf = true → f ∈ s.cfg.fields →
    f.kind ≠ .thpData → f.kind ≠ .trigD2 → f.kind ≠ .trigD3 →
    f.base ≤ o.toNat → o.toNat < f.base + f.width → f.base ≤ p.toNat → p.toNat < f.base + f.width →
    ∃ t, exec (.mmioW8 o v) s = .next t
      ∧ exec (.mmioR8 p) t = .next (t.setReply (.r8 (if p = o then v else s.rb.read p.toNat)))

/-- The write of the last byte of `THP_CTRL` loads `bridge_en` from the enable bit of the whole field as stored, when the companion
is present; without it `bridge_en` stays and the case is logged (spec/42_bridge_puma.md R191). -/
def Obligations.ThpControlLastByteLoadsEnable : Prop :=
  ∀ (s : State) (o : BitVec 16) (v : Byte) (f : RegField) (i : Nat),
    fieldAt s.cfg o.toNat = some (f, i) → f.kind = .trigThpCtl → i + 1 = f.width →
    ∃ t, exec (.mmioW8 o v) s = .next t
      ∧ (∀ a, t.rb.read a = if a = o.toNat then v else s.rb.read a)
      ∧ (s.cfg.companionPresent = true →
        t = { s with rb := t.rb, events := s.events ++ recalcAt s.cfg o.toNat, bridgeEn := (t.fieldVal f).testBit s.cfg.thpEnBit })
      ∧ (s.cfg.companionPresent = false →
        t = { s with rb := t.rb, events := s.events ++ recalcAt s.cfg o.toNat, diags := s.diags ++ [.bridgeNotConfigured] })

/-! ## CmdFifo configuration -/

/-- The write of the last byte of `CF_CFG` loads the four latches from the whole field; pointer, count, status and memories stay and
nothing is drained (spec/43_cmdfifo.md R230, R232). -/
def Obligations.PackedConfigurationLoadsLatches : Prop :=
  ∀ (s : State) (o : BitVec 16) (v : Byte) (f : RegField) (i : Nat),
    fieldAt s.cfg o.toNat = some (f, i) → f.kind = .trigCfCfg → i + 1 = f.width → s.cfg.cfBotW ≤ 20 → s.cfg.cfTopW ≤ 20 →
    ∃ t, exec (.mmioW8 o v) s = .next t
      ∧ (∀ a, t.rb.read a = if a = o.toNat then v else s.rb.read a)
      ∧ t = { s with
          rb := t.rb, events := s.events ++ recalcAt s.cfg o.toNat, cfEnabled := t.cfEnabled, cfBottom := t.cfBottom,
          cfTop := t.cfTop, cfThreshold := t.cfThreshold }
      ∧ t.cfEnabled = (t.fieldVal f).testBit s.cfg.cfEnBit
      ∧ t.cfBottom.toNat = t.fieldVal f / 2 ^ s.cfg.cfBotLo % 2 ^ s.cfg.cfBotW
      ∧ t.cfTop.toNat = t.fieldVal f / 2 ^ s.cfg.cfTopLo % 2 ^ s.cfg.cfTopW
      ∧ t.cfThreshold = t.fieldVal f / 2 ^ s.cfg.cfThrLo % 2 ^ s.cfg.cfThrW

/-- The write of the last byte of a discrete page or threshold register loads the one matching latch (R231, R232). -/
def Obligations.DiscreteRegisterLoadsOneLatch : Prop :=
  ∀ (s : State) (o : BitVec 16) (v : Byte) (f : RegField) (i : Nat),
    fieldAt s.cfg o.toNat = some (f, i) → i + 1 = f.width → s.cfg.cfBotW ≤ 20 → s.cfg.cfTopW ≤ 20 →
    f.kind = .cfBottom ∨ f.kind = .cfTop ∨ f.kind = .cfThresh →
    ∃ t, exec (.mmioW8 o v) s = .next t
      ∧ (∀ a, t.rb.read a = if a = o.toNat then v else s.rb.read a)
      ∧ t = { s with
          rb := t.rb, events := s.events ++ recalcAt s.cfg o.toNat, cfBottom := t.cfBottom, cfTop := t.cfTop,
          cfThreshold := t.cfThreshold }
      ∧ (if f.kind = .cfBottom then t.cfBottom.toNat = t.fieldVal f % 2 ^ s.cfg.cfBotW else t.cfBottom = s.cfBottom)
      ∧ (if f.kind = .cfTop then t.cfTop.toNat = t.fieldVal f % 2 ^ s.cfg.cfTopW else t.cfTop = s.cfTop)
      ∧ (if f.kind = .cfThresh then t.cfThreshold = t.fieldVal f % 2 ^ s.cfg.cfThrW else t.cfThreshold = s.cfThreshold)

/-! ## The 2D and 3D triggers -/

/-- A 2D fill: the write of the control field's last byte with the start bit going from 0 to 1 colours exactly the shown pixels of the
destination rectangle, clears the start bit and leaves the engine idle (spec/44_neighbour_engines.md R272 to R274). -/
def Obligations.FillColoursExactlyTheShownPixels : Prop :=
  ∀ (s : State) (o : BitVec 16) (v : Byte) (f : RegField) (i : Nat),
    fieldAt s.cfg o.toNat = some (f, i) → f.kind = .trigD2 → i + 1 = f.width →
    s.d2Busy = false → startOf s.cfg.d2StartBit (s.rb.read o.toNat) = false → startOf s.cfg.d2StartBit v = true →
    let w := s.setRb o.toNat v
    w.idVal .d2Rop = s.cfg.ropFill →
    let clipOn := (w.fieldVal f).testBit s.cfg.d2ClipEnBit
    let shown : Nat → Nat → Prop := fun x y =>
      (w.idVal .d2DstX ≤ x ∧ x < w.idVal .d2DstX + w.idVal .d2SizeX)
      ∧ (w.idVal .d2DstY ≤ y ∧ y < w.idVal .d2DstY + w.idVal .d2SizeY)
      ∧ (clipOn = true → (w.idVal .d2ClipL ≤ x ∧ x < w.idVal .d2ClipR) ∧ (w.idVal .d2ClipT ≤ y ∧ y < w.idVal .d2ClipB))
    let addr : Nat → Nat → Nat := fun x y => (y * w.idVal .d2DstPitch + x) % s.cfg.vramSize
    ∃ t, exec (.mmioW8 o v) s = .next t
      ∧ t = { s with rb := t.rb, vram := t.vram, events := s.events ++ recalcAt s.cfg o.toNat }
      ∧ (∀ a, t.rb.read a = if a = o.toNat then clearStart s.cfg.d2StartBit v else s.rb.read a)
      ∧ (∀ x y, shown x y → t.vram.read (addr x y) = BitVec.ofNat 8 (w.idVal .d2Fg))
      ∧ (∀ a, (∀ x y, shown x y → a ≠ addr x y) → t.vram.read a = s.vram.read a)

/-- A 2D job whose raster operation is not the fill changes no memory and still clears the start bit (R273, R274); a write of the last
byte that makes no 0-to-1 transition of an idle engine only stores (R272). -/
def Obligations.OtherRasterOpsAndNonStartsDrawNothing : Prop :=
  ∀ (s : State) (o : BitVec 16) (v : Byte) (f : RegField) (i : Nat),
    fieldAt s.cfg o.toNat = some (f, i) → f.kind = .trigD2 → i + 1 = f.width →
    let starts := s.d2Busy = false ∧ startOf s.cfg.d2StartBit (s.rb.read o.toNat) = false ∧ startOf s.cfg.d2StartBit v = true
    (starts → (s.setRb o.toNat v).idVal .d2Rop ≠ s.cfg.ropFill →
      ∃ t, exec (.mmioW8 o v) s = .next t
        ∧ t = { s with rb := t.rb, events := s.events ++ recalcAt s.cfg o.toNat }
        ∧ ∀ a, t.rb.read a = if a = o.toNat then clearStart s.cfg.d2StartBit v else s.rb.read a)
    ∧ (¬ starts →
      ∃ t, exec (.mmioW8 o v) s = .next t
        ∧ t = { s with rb := t.rb, events := s.events ++ recalcAt s.cfg o.toNat }
        ∧ ∀ a, t.rb.read a = if a = o.toNat then v else s.rb.read a)

/-- A 3D trigger copies the job fields, hands the block over once, draws nothing and clears the start bit; without the transition it
only stores (R277 to R279). The exact contents and order of the block, every field R270 lists in its order with the control field and
its start bit last, are the model's reading (log entry 16). -/
def Obligations.TriangleTriggerHandsOverTheBatch : Prop :=
  ∀ (s : State) (o : BitVec 16) (v : Byte) (f : RegField) (i : Nat),
    fieldAt s.cfg o.toNat = some (f, i) → f.kind = .trigD3 → i + 1 = f.width →
    let starts := s.d3Busy = false ∧ startOf s.cfg.d3StartBit (s.rb.read o.toNat) = false ∧ startOf s.cfg.d3StartBit v = true
    let block := d3JobFields.map (fun id => (id, (s.setRb o.toNat v).idVal id))
    (starts →
      ∃ t, exec (.mmioW8 o v) s = .next t
        ∧ t = { s with rb := t.rb, d3Batch := block, events := s.events ++ recalcAt s.cfg o.toNat ++ [.tri3DBatch block] }
        ∧ ∀ a, t.rb.read a = if a = o.toNat then clearStart s.cfg.d3StartBit v else s.rb.read a)
    ∧ (¬ starts →
      ∃ t, exec (.mmioW8 o v) s = .next t
        ∧ t = { s with rb := t.rb, events := s.events ++ recalcAt s.cfg o.toNat }
        ∧ ∀ a, t.rb.read a = if a = o.toNat then v else s.rb.read a)

/-! ## The bridge -/

/-- A PUMA address at or above `FB_SIZE` and inside the register region names register `((a - REG_START) / 4096) mod 256` (R192, R100;
R209's address is one), whatever the texture region is. Its read returns the companion register, sign-extended from bit 23 in the
gradient range, and changes nothing; on the PUMA bus and through the Companion aperture (spec/42_bridge_puma.md R193, R195, R200). -/
def Obligations.RegisterReadSignExtendsGradients : Prop :=
  ∀ (s : State) (a : Word) (r : BitVec 8), bridgeOn s →
    s.cfg.fbSize ≤ a.toNat → s.cfg.regStart ≤ a.toNat → a.toNat < s.cfg.regStart + s.cfg.regSize →
    r.toNat = (a.toNat - s.cfg.regStart) / 4096 % 256 →
    classify s.cfg a = .reg r
    ∧ ∃ v : Word,
      (∀ k, k < 32 → v.getLsbD k = (s.compGet r).getLsbD
        (if s.cfg.gradLo ≤ r.toNat ∧ r.toNat ≤ s.cfg.gradHi ∧ 24 ≤ k then 23 else k))
      ∧ exec (.pumaR32 a) s = .next (s.setReply (.r32 v))
      ∧ (a.toNat % 4 = 0 → a.toNat + 4 ≤ s.cfg.companionSize → exec (.compR32 a) s = .next (s.setReply (.r32 v)))

/-- A write of a PUMA address at or above `FB_SIZE` and inside the register region stores all 32 bits in the one register
`((a - REG_START) / 4096) mod 256`, tells the rasterizer, and changes nothing else (R192, R100, R194, R196, R200). -/
def Obligations.RegisterWriteStoresOneRegister : Prop :=
  ∀ (s : State) (a v : Word) (r : BitVec 8), bridgeOn s →
    s.cfg.fbSize ≤ a.toNat → s.cfg.regStart ≤ a.toNat → a.toNat < s.cfg.regStart + s.cfg.regSize →
    r.toNat = (a.toNat - s.cfg.regStart) / 4096 % 256 →
    ∃ t, exec (.pumaW32 a v) s = .next t
      ∧ t = { s with comp := t.comp, events := s.events ++ [.companionRegWritten r v] }
      ∧ (∀ q, t.compGet q = if q = r then v else s.compGet q)
      ∧ (a.toNat % 4 = 0 → a.toNat + 4 ≤ s.cfg.companionSize → exec (.compW32 a v) s = .next t)

/-- With the bridge off a read returns 0 and a write does nothing, each with the one diagnostic that tells a missing companion from a
disabled bridge (R190, R207). R207 lists the Companion aperture and the THP accesses; that `PUMA.R32` and `PUMA.W32` issued alone pass
the gate, which R193 and R194 give as their callers' precondition, is the model's choice (log entry 11). -/
def Obligations.BridgeOffIsABenignNoOp : Prop :=
  ∀ (s : State) (a v : Word), ¬ bridgeOn s →
    let d := if s.cfg.companionPresent = true then Diag.bridgeDisabled else Diag.bridgeNotConfigured
    exec (.pumaR32 a) s = .next ((s.log d).setReply (.r32 0))
    ∧ exec (.pumaW32 a v) s = .next (s.log d)
    ∧ (a.toNat % 4 = 0 → a.toNat + 4 ≤ s.cfg.companionSize →
      exec (.compR32 a) s = .next ((s.log d).setReply (.r32 0)) ∧ exec (.compW32 a v) s = .next (s.log d))

/-- A PUMA address below `FB_SIZE` is a framebuffer word, whatever the other regions are (R192). The read returns its four bytes; a
write stores four bytes, least significant first. Outside the enabled ring, or as the first word of a pair inside it, it counts nothing
and changes nothing else; as the second word of a pair inside it, it counts one entry, sets the threshold status bit when the count
reaches the threshold, and drains (R197, spec/43_cmdfifo.md R234, R235, R236). The Companion aperture does the same (R200). -/
def Obligations.FramebufferWordsStoreAndCount : Prop :=
  ∀ (s : State) (a v : Word), bridgeOn s → a.toNat < s.cfg.fbSize → a.toNat % 4 = 0 →
    let inRing : Prop := s.cfEnabled = true ∧ s.cfBottom.toNat * 4096 ≤ a.toNat ∧ a.toNat < s.cfTop.toNat * 4096
    classify s.cfg a = .fb
    ∧ exec (.pumaR32 a) s = .next (s.setReply (.r32
      (s.vram.read (a.toNat + 3) ++ s.vram.read (a.toNat + 2) ++ s.vram.read (a.toNat + 1) ++ s.vram.read a.toNat)))
    ∧ (a.toNat + 4 ≤ s.cfg.companionSize →
      exec (.compR32 a) s = exec (.pumaR32 a) s ∧ exec (.compW32 a v) s = exec (.pumaW32 a v) s)
    ∧ ∃ m : Mem, (∀ b, m.read b = if a.toNat ≤ b ∧ b < a.toNat + 4 then v.extractLsb' (8 * (b - a.toNat)) 8 else s.vram.read b)
      ∧ (¬ inRing ∨ a.toNat % 8 = 0 → exec (.pumaW32 a v) s = .next { s with vram := m })
      ∧ exec (.pumaR32 a) { s with vram := m } = .next { s with vram := m, reply := some (.r32 v) }
      ∧ (inRing → a.toNat % 8 = 4 →
        exec (.pumaW32 a v) s = exec .cfProcess { s with
          vram := m, cfEntryCount := s.cfEntryCount + 1,
          cfThreshStatus := if s.cfThreshold ≤ (s.cfEntryCount + 1).toNat then true else s.cfThreshStatus })

/-- A PUMA address at or above `FB_SIZE`, outside the register region and inside the texture region names texture byte
`a - TEX_START` (R192), and its word is plain little-endian storage (spec/42_bridge_puma.md R198), on the PUMA bus and through the
Companion aperture (R200). -/
def Obligations.TextureWordsArePlainStorage : Prop :=
  ∀ (s : State) (a v : Word), bridgeOn s → s.cfg.fbSize ≤ a.toNat →
    ¬ (s.cfg.regStart ≤ a.toNat ∧ a.toNat < s.cfg.regStart + s.cfg.regSize) →
    s.cfg.texStart ≤ a.toNat → a.toNat < s.cfg.texStart + s.cfg.texSize → a.toNat % 4 = 0 →
    let k := a.toNat - s.cfg.texStart
    classify s.cfg a = .tex k
    ∧ (a.toNat + 4 ≤ s.cfg.companionSize →
      exec (.compR32 a) s = exec (.pumaR32 a) s ∧ exec (.compW32 a v) s = exec (.pumaW32 a v) s)
    ∧ exec (.pumaR32 a) s = .next (s.setReply (.r32
      (s.tex.read (k + 3) ++ s.tex.read (k + 2) ++ s.tex.read (k + 1) ++ s.tex.read k)))
    ∧ ∃ t, exec (.pumaW32 a v) s = .next t ∧ t = { s with tex := t.tex }
      ∧ (∀ b, t.tex.read b = if k ≤ b ∧ b < k + 4 then v.extractLsb' (8 * (b - k)) 8 else s.tex.read b)
      ∧ exec (.pumaR32 a) t = .next (t.setReply (.r32 v))

/-- A read of an address in no region returns 0 and a write is dropped, each logged (R192, R199), on the PUMA bus and
through the Companion aperture (R200). -/
def Obligations.InvalidPumaAddressReadsZero : Prop :=
  ∀ (s : State) (a v : Word), bridgeOn s → s.cfg.fbSize ≤ a.toNat →
    ¬ (s.cfg.regStart ≤ a.toNat ∧ a.toNat < s.cfg.regStart + s.cfg.regSize) →
    ¬ (s.cfg.texStart ≤ a.toNat ∧ a.toNat < s.cfg.texStart + s.cfg.texSize) →
    classify s.cfg a = .invalid
    ∧ exec (.pumaR32 a) s = .next ((s.log (.invalidAddress a)).setReply (.r32 0))
    ∧ exec (.pumaW32 a v) s = .next (s.log (.invalidAddress a))
    ∧ (a.toNat % 4 = 0 → a.toNat + 4 ≤ s.cfg.companionSize →
      exec (.compR32 a) s = .next ((s.log (.invalidAddress a)).setReply (.r32 0))
      ∧ exec (.compW32 a v) s = .next (s.log (.invalidAddress a)))

/-- A framebuffer or texture access at an address that is no multiple of 4 is refused; a register or invalid address is accepted at
any alignment (R208); a misaligned access to the Companion aperture is refused (R200), and so is any access past its end
(spec/20_memory.md R64). That both refusals come with the bridge on or off, and that an access both past the end and misaligned meets
the edge's, is the model's choice (log entry 7); that stand-alone PUMA accesses meet R208 with the bridge on only is log entry 11. -/
def Obligations.MisalignedPumaAccessRefused : Prop :=
  ∀ (s : State) (a v : Word),
    (a.toNat % 4 ≠ 0 → bridgeOn s → (classify s.cfg a = .fb ∨ ∃ k, classify s.cfg a = .tex k) →
      exec (.pumaR32 a) s = .refused .pumaMisaligned ∧ exec (.pumaW32 a v) s = .refused .pumaMisaligned)
    ∧ (bridgeOn s → ((∃ r, classify s.cfg a = .reg r) ∨ classify s.cfg a = .invalid) →
      (∃ t, exec (.pumaR32 a) s = .next t) ∧ (∃ t, exec (.pumaW32 a v) s = .next t))
    ∧ (a.toNat % 4 ≠ 0 → a.toNat + 4 ≤ s.cfg.companionSize →
      exec (.compR32 a) s = .refused .companionMisaligned ∧ exec (.compW32 a v) s = .refused .companionMisaligned)
    ∧ (s.cfg.companionSize < a.toNat + 4 →
      exec (.compR32 a) s = .refused .apertureEdge ∧ exec (.compW32 a v) s = .refused .apertureEdge)

/-! ## THP -/

/-- A THP read: the address lands in `THP_ADDR`'s bytes; with the bridge on the word the PUMA address holds (0 for an invalid address)
is staged and returned and both handshake flags are set; with the bridge off 0 is staged and returned and the flags stay (R202 to R207);
a misaligned framebuffer or texture address is refused (R208). That the address stays in the window bytes, with their recalculate
events, and that a refusal refuses the whole, is R103's expansion taken literally: the model's reading (log entry 10). -/
def Obligations.ThpReadStagesTheResult : Prop :=
  ∀ (s : State) (a : Word) (fa : RegField), s.cfg.wf = true → fa ∈ s.cfg.fields → fa.kind = .thpAddr →
    let ev : List Event := s.events ++ (List.range 4).flatMap (fun k => recalcAt s.cfg (fa.base + k))
    (∀ x : Word, bridgeOn s →
      (∃ r, classify s.cfg a = .reg r ∧ x = compRegRead s r)
        ∨ (a.toNat % 4 = 0 ∧ classify s.cfg a = .fb ∧ x = s.vram.rd32 a.toNat)
        ∨ (a.toNat % 4 = 0 ∧ ∃ k, classify s.cfg a = .tex k ∧ x = s.tex.rd32 k) →
      ∃ t, exec (.thpRd a) s = .next t
        ∧ t = { s with rb := t.rb, thpStage := x, thpRequest := true, thpGrant := true, events := ev, reply := some (.r32 x) }
        ∧ ∀ b, t.rb.read b = if fa.base ≤ b ∧ b < fa.base + 4 then lane a (b - fa.base) else s.rb.read b)
    ∧ (bridgeOn s → classify s.cfg a = .invalid →
      ∃ t, exec (.thpRd a) s = .next t
        ∧ t = { s with rb := t.rb, thpStage := 0, thpRequest := true, thpGrant := true,
                       diags := s.diags ++ [.invalidAddress a], events := ev, reply := some (.r32 0) }
        ∧ ∀ b, t.rb.read b = if fa.base ≤ b ∧ b < fa.base + 4 then lane a (b - fa.base) else s.rb.read b)
    ∧ (¬ bridgeOn s →
      ∃ t, exec (.thpRd a) s = .next t
        ∧ t = { s with rb := t.rb, thpStage := 0, diags := t.diags, events := ev, reply := some (.r32 0) }
        ∧ t.diags = s.diags ++ [if s.cfg.companionPresent = true then Diag.bridgeDisabled else Diag.bridgeNotConfigured]
        ∧ ∀ b, t.rb.read b = if fa.base ≤ b ∧ b < fa.base + 4 then lane a (b - fa.base) else s.rb.read b)
    ∧ (bridgeOn s → a.toNat % 4 ≠ 0 → classify s.cfg a = .fb ∨ (∃ k, classify s.cfg a = .tex k) →
      exec (.thpRd a) s = .refused .pumaMisaligned)

/-- A THP write: address and data land in their window bytes; with the bridge on exactly the PUMA write of the whole data word is made
and both flags are set, also when the address is invalid; with the bridge off nothing is accessed and the flags stay (R201, R203, R206,
R207). That the window bytes stay written, with their recalculate events, and that a refusal refuses the whole, is R103's expansion
taken literally: the model's reading (log entry 10). -/
def Obligations.ThpWriteMakesOneAccess : Prop :=
  ∀ (s : State) (a v : Word) (fa fd : RegField), s.cfg.wf = true → fa ∈ s.cfg.fields → fa.kind = .thpAddr →
    fd ∈ s.cfg.fields → fd.kind = .thpData →
    let stored : Mem → Prop := fun m => ∀ b, m.read b = if fa.base ≤ b ∧ b < fa.base + 4 then lane a (b - fa.base)
      else if fd.base ≤ b ∧ b < fd.base + 4 then lane v (b - fd.base) else s.rb.read b
    let ev : List Event := s.events ++ (List.range 4).flatMap (fun k => recalcAt s.cfg (fa.base + k))
      ++ (List.range 4).flatMap (fun k => recalcAt s.cfg (fd.base + k))
    (bridgeOn s → ∃ m : Mem, stored m
      ∧ exec (.thpWr a v) s = match exec (.pumaW32 a v) { s with rb := m, events := ev } with
        | .next u => .next { u with thpRequest := true, thpGrant := true }
        | .fault r => .fault r
        | .refused r => .refused r)
    ∧ (∀ r, bridgeOn s → classify s.cfg a = .reg r →
      ∃ t, exec (.thpWr a v) s = .next t
        ∧ t = { s with rb := t.rb, comp := t.comp, events := ev ++ [.companionRegWritten r v], thpRequest := true,
                       thpGrant := true }
        ∧ (∀ q, t.compGet q = if q = r then v else s.compGet q)
        ∧ stored t.rb)
    ∧ (bridgeOn s → classify s.cfg a = .invalid →
      ∃ t, exec (.thpWr a v) s = .next t
        ∧ t = { s with rb := t.rb, diags := s.diags ++ [.invalidAddress a], events := ev, thpRequest := true, thpGrant := true }
        ∧ stored t.rb)
    ∧ (¬ bridgeOn s →
      ∃ t, exec (.thpWr a v) s = .next t ∧ t = { s with rb := t.rb, diags := t.diags, events := ev }
        ∧ t.diags = s.diags ++ [if s.cfg.companionPresent = true then Diag.bridgeDisabled else Diag.bridgeNotConfigured]
        ∧ stored t.rb)

/-- Accesses to `THP_DATA` in the window. A read of byte 0, alone or as the first byte of a 16- or 32-bit read, makes one PUMA read of
the address in `THP_ADDR`, stages its word, sets the flags and returns the word's low bits (0 for an invalid address or with the bridge
off, where the flags stay); a read from byte 1, 2 or 3 on comes from the stage and performs no access (R202, R204, R206, R207). A write of
byte 0, 1 or 2 only stores; a write of byte 3 stores and makes the PUMA write of the four stored bytes, bytes 0 to 2 at their old values,
and sets the flags (R203); with the bridge off it only stores and logs. A misaligned framebuffer or texture address refuses the PUMA
access (R208); that it refuses the window access whole is the model's reading (log entry 10). -/
def Obligations.ThpDataAccesses : Prop :=
  ∀ (s : State) (o : BitVec 16) (fa fd : RegField) (i : Nat), s.cfg.wf = true → fa ∈ s.cfg.fields → fa.kind = .thpAddr →
    fd ∈ s.cfg.fields → fd.kind = .thpData → i < 4 → o.toNat = fd.base + i →
    let a : Word := s.rb.rd32 fa.base
    let off : Diag := if s.cfg.companionPresent = true then .bridgeDisabled else .bridgeNotConfigured
    let reads : Word → State → Prop := fun x t =>
      exec (.mmioR8 o) s = .next (t.setReply (.r8 (x.extractLsb' 0 8)))
      ∧ exec (.mmioR16 o) s = .next (t.setReply (.r16 (x.extractLsb' 0 16)))
      ∧ exec (.mmioR32 o) s = .next (t.setReply (.r32 x))
    (i ≠ 0 → exec (.mmioR8 o) s = .next (s.setReply (.r8 (s.thpStage.extractLsb' (8 * i) 8)))
      ∧ (i ≠ 3 → exec (.mmioR16 o) s = .next (s.setReply (.r16 (s.thpStage.extractLsb' (8 * i) 16)))))
    ∧ (∀ x : Word, i = 0 → bridgeOn s →
      (∃ r, classify s.cfg a = .reg r ∧ x = compRegRead s r)
        ∨ (a.toNat % 4 = 0 ∧ classify s.cfg a = .fb ∧ x = s.vram.rd32 a.toNat)
        ∨ (a.toNat % 4 = 0 ∧ ∃ k, classify s.cfg a = .tex k ∧ x = s.tex.rd32 k) →
      reads x { s with thpStage := x, thpRequest := true, thpGrant := true })
    ∧ (i = 0 → bridgeOn s → classify s.cfg a = .invalid →
      reads 0 { s with thpStage := 0, thpRequest := true, thpGrant := true, diags := s.diags ++ [.invalidAddress a] })
    ∧ (i = 0 → ¬ bridgeOn s → reads 0 { s with thpStage := 0, diags := s.diags ++ [off] })
    ∧ (∀ v : Byte, ∃ m : Mem, (∀ b, m.read b = if b = o.toNat then v else s.rb.read b)
      ∧ (i ≠ 3 → exec (.mmioW8 o v) s = .next { s with rb := m, events := s.events ++ recalcAt s.cfg o.toNat })
      ∧ (i = 3 → bridgeOn s →
        exec (.mmioW8 o v) s =
          match exec (.pumaW32 a (v ++ s.rb.read (fd.base + 2) ++ s.rb.read (fd.base + 1) ++ s.rb.read fd.base))
            { s with rb := m, events := s.events ++ recalcAt s.cfg o.toNat } with
          | .next u => .next { u with thpRequest := true, thpGrant := true }
          | .fault r => .fault r
          | .refused r => .refused r)
      ∧ (i = 3 → ¬ bridgeOn s →
        exec (.mmioW8 o v) s = .next { s with
          rb := m, events := s.events ++ recalcAt s.cfg o.toNat, diags := s.diags ++ [off] }))
    ∧ (bridgeOn s → a.toNat % 4 ≠ 0 → classify s.cfg a = .fb ∨ (∃ k, classify s.cfg a = .tex k) →
      (i = 0 → exec (.mmioR8 o) s = .refused .pumaMisaligned ∧ exec (.mmioR16 o) s = .refused .pumaMisaligned
        ∧ exec (.mmioR32 o) s = .refused .pumaMisaligned)
      ∧ (i = 3 → ∀ v, exec (.mmioW8 o v) s = .refused .pumaMisaligned))

/-! ## Packets -/

/-- A no-op packet advances the pointer by `CF_PAIR_ADV` modulo the slot count, removes one entry and changes nothing else (R239). -/
def Obligations.NopPacketAdvancesByAPair : Prop :=
  ∀ s : State, slotOk s = true → s.cfEntryCount ≠ 0 →
    exec .nop s = .next { s with
      cfReadPtr := BitVec.ofNat 32 ((s.cfReadPtr.toNat + s.cfg.cfPairAdv) % ((ringTop s - ringBottom s) / s.cfg.cfUnitBytes))
      cfEntryCount := s.cfEntryCount - 1 }

/-- A non-grouped packet writes its data to register `idx mod 256`, advances by `CF_PAIR_ADV` and removes one entry (R242, R246). -/
def Obligations.WritePacketWritesOneRegister : Prop :=
  ∀ (s : State) (hi : BitVec 8) (reg : BitVec 21) (lo : BitVec 2) (data : Word), slotOk s = true → s.cfEntryCount ≠ 0 →
    ∃ t, exec (.wr hi reg lo data) s = .next t
      ∧ t = { s with
          comp := t.comp, events := s.events ++ [.companionRegWritten (BitVec.ofNat 8 reg.toNat) data],
          cfReadPtr := BitVec.ofNat 32 ((s.cfReadPtr.toNat + s.cfg.cfPairAdv) % ((ringTop s - ringBottom s) / s.cfg.cfUnitBytes)),
          cfEntryCount := s.cfEntryCount - 1 }
      ∧ ∀ q : BitVec 8, t.compGet q = if q.toNat = reg.toNat % 256 then data else s.compGet q

/-- A rejected grouped header is logged with its address and words, writes no register, advances by `CF_GROUP_HDR_ADV` and removes one
entry (R241). -/
def Obligations.RejectedHeaderIsConsumed : Prop :=
  ∀ (s : State) (hi : BitVec 8) (reg : BitVec 21) (lo : BitVec 2), slotOk s = true → s.cfEntryCount ≠ 0 →
    exec (.wrgRejected hi reg lo) s = .next { s with
      diags := s.diags ++ [.malformedPacket (ringBottom s + (s.cfReadPtr.toNat * s.cfg.cfUnitBytes) % (ringTop s - ringBottom s))
        (1#1 ++ hi ++ reg ++ lo : BitVec 32) 0]
      cfReadPtr := BitVec.ofNat 32
        ((s.cfReadPtr.toNat + s.cfg.cfGroupHdrAdv) % ((ringTop s - ringBottom s) / s.cfg.cfUnitBytes))
      cfEntryCount := s.cfEntryCount - 1 }

/-- A grouped packet writes, for each set bit `i` of its mask, register `(base + i) mod 256` with the ring word whose number is the
count of set bits below `i`; registers at clear bits stay; the pointer advances by the header and the number of words (R240). -/
def Obligations.GroupedPacketWritesByMaskPosition : Prop :=
  ∀ (s : State) (hi : BitVec 8) (reg : BitVec 21) (lo : BitVec 2) (mask : Word),
    let below : Nat → Nat := fun i => ((List.range i).filter (fun j => mask.getLsbD j)).length
    let wa : Nat → Nat := fun k =>
      ringBottom s + (s.cfReadPtr.toNat * s.cfg.cfUnitBytes + 8 + 4 * k) % (ringTop s - ringBottom s)
    slotOk s = true → s.cfEntryCount ≠ 0 → (∀ k, k < below 32 → inRange s (wa k) 4 = true) →
    ∃ t, exec (.wrg hi reg lo mask) s = .next t
      ∧ t = { s with
          comp := t.comp, events := t.events,
          cfReadPtr := BitVec.ofNat 32
            ((s.cfReadPtr.toNat + (s.cfg.cfGroupHdrAdv + below 32)) % ((ringTop s - ringBottom s) / s.cfg.cfUnitBytes)),
          cfEntryCount := s.cfEntryCount - 1 }
      ∧ (∀ (q : BitVec 8) (i : Nat), i < 32 → mask.getLsbD i = true → q.toNat = (reg.toNat + i) % 256 →
          t.compGet q = s.vram.rd32 (wa (below i)))
      ∧ (∀ q : BitVec 8, (∀ i, i < 32 → mask.getLsbD i = true → q.toNat ≠ (reg.toNat + i) % 256) → t.compGet q = s.compGet q)
      ∧ t.events = s.events ++ ((List.range 32).filter (fun i => mask.getLsbD i)).map
          (fun i => .companionRegWritten (BitVec.ofNat 8 (reg.toNat + i)) (s.vram.rd32 (wa (below i))))

/-- A packet whose slot, or one of whose data words, lies outside the ring or the framebuffer is dropped: logged, one entry removed,
the pointer moved on when there is a ring, no register written (R244). -/
def Obligations.OutOfRangePacketIsDropped : Prop :=
  ∀ (s : State) (p : Packet), s.cfEntryCount ≠ 0 →
    (slotOk s = false ∨ ∃ hi reg lo mask k, p = .grouped hi reg lo mask ∧ k < popcount mask ∧ inRange s (dataAddr s k) 4 = false) →
    ∃ t, takePacket p s = .abort t ∧ exec p.toInstr s = .next t
      ∧ t = { s with cfReadPtr := t.cfReadPtr, cfEntryCount := s.cfEntryCount - 1,
                     diags := s.diags ++ [.fifoOutOfRange s.cfReadPtr (ringBottom s) (ringTop s)] }
      ∧ t.cfReadPtr = if ringBottom s < ringTop s
          then BitVec.ofNat 32 ((s.cfReadPtr.toNat + s.cfg.cfPairAdv) % ((ringTop s - ringBottom s) / s.cfg.cfUnitBytes))
          else s.cfReadPtr

/-- In a valid ring with 8-byte slots no packet of any kind aborts: every address a drain computes lies in the ring (R244, R248
item 3). -/
def Obligations.ValidRingNeverAborts : Prop :=
  ∀ (s : State) (p : Packet), validRing s → ∃ t, takePacket p s = .ok t

/-- A drain always completes and changes only the companion registers, the read pointer, the entry count, the status bit and the two
output streams; no memory (R248 item 4, R250). -/
def Obligations.DrainChangesOnlyFifoAndRegisters : Prop :=
  ∀ s : State, ∃ t, exec .cfProcess s = .next t
    ∧ t = { s with comp := t.comp, cfReadPtr := t.cfReadPtr, cfEntryCount := t.cfEntryCount, cfThreshStatus := t.cfThreshStatus,
                   diags := t.diags, events := t.events }

/-- A drain with no threshold of an enabled valid ring removes every pending entry; with a threshold it removes at most that many
(R236, R237); afterwards the status bit is clear when the count left is below the threshold, and otherwise as before (R245). -/
def Obligations.DrainRemovesItsBudget : Prop :=
  ∀ s : State, s.cfEnabled = true → validRing s →
    ∃ t, exec .cfProcess s = .next t
      ∧ t.cfEntryCount.toNat = s.cfEntryCount.toNat - (if s.cfThreshold = 0 then s.cfEntryCount.toNat else s.cfThreshold)
      ∧ t.cfThreshStatus = if t.cfEntryCount.toNat < s.cfThreshold then false else s.cfThreshStatus

/-- DOC0's round trip: the write of the second word of a non-grouped packet at the slot the read pointer names replays it at once and
tells the rasterizer of the one register write (R249, R242, R246). The ring is valid and nothing else is pending; afterwards nothing is
pending and the status bit is set exactly with no threshold, since the increment sets it at a threshold of 0 or 1 and the drain clears
it below one (R235, R245, R248 item 5). -/
def Obligations.RingWriteReplaysAWritePacket : Prop :=
  ∀ (s : State) (a d : Word) (hi : BitVec 8) (reg : BitVec 21) (lo : BitVec 2),
    bridgeOn s → s.cfEnabled = true → validRing s → s.cfEntryCount = 0 → a.toNat = slotAddr s + 4 →
    s.vram.rd32 (slotAddr s) = (0#1 ++ hi ++ reg ++ lo : BitVec 32) → (Packet.single hi reg lo d).wellFormed = true →
    ∃ t, exec (.pumaW32 a d) s = .next t
      ∧ t = { s with
          vram := t.vram, comp := t.comp, events := s.events ++ [.companionRegWritten (BitVec.ofNat 8 reg.toNat) d],
          cfReadPtr := t.cfReadPtr, cfThreshStatus := decide (s.cfThreshold = 0) }
      ∧ (∀ q : BitVec 8, t.compGet q = if q.toNat = reg.toNat % 256 then d else s.compGet q)
      ∧ t.cfReadPtr.toNat = (s.cfReadPtr.toNat + s.cfg.cfPairAdv) % ((ringTop s - ringBottom s) / 8)
      ∧ (∀ b, t.vram.read b = if a.toNat ≤ b ∧ b < a.toNat + 4 then lane d (b - a.toNat) else s.vram.read b)

/-! ## Configuration space and apertures -/

/-- A configuration byte reads as stored, but for a BAR group whose four bytes are all zero, which reads as its probe bytes; 16- and
32-bit reads are their bytes; nothing changes; past offset 255 the read is refused (R150, R151, R162). -/
def Obligations.ConfigurationReads : Prop :=
  ∀ (s : State) (reg : BitVec 8),
    let byteAt : Nat → Byte := fun a =>
      match barAt s.cfg a with
      | some (ap, i) => if s.conf.rd32 (s.cfg.cfgBar.get ap) = 0 then lane (s.cfg.probe.get ap) i else s.conf.read a
      | none => s.conf.read a
    exec (.cfgR8 reg) s = .next (s.setReply (.r8 (byteAt reg.toNat)))
    ∧ exec (.cfgR16 reg) s = (if reg.toNat + 2 ≤ 256
        then .next (s.setReply (.r16 (half (byteAt reg.toNat) (byteAt (reg.toNat + 1))))) else .refused .configEdge)
    ∧ exec (.cfgR32 reg) s = (if reg.toNat + 4 ≤ 256
        then .next (s.setReply (.r32 (word (byteAt reg.toNat) (byteAt (reg.toNat + 1)) (byteAt (reg.toNat + 2)) (byteAt (reg.toNat + 3)))))
        else .refused .configEdge)

/-- 16- and 32-bit configuration writes are byte writes in increasing order, refused past offset 255 (R162). -/
def Obligations.WideConfigurationWriteIsByteWrites : Prop :=
  ∀ (s : State) (reg : BitVec 8),
    (∀ v : Half, exec (.cfgW16 reg v) s = if reg.toNat + 2 ≤ 256
      then runAll [.cfgW8 reg (lane v 0), .cfgW8 (reg + 1) (lane v 1)] s else .refused .configEdge)
    ∧ (∀ v : Word, exec (.cfgW32 reg v) s = if reg.toNat + 4 ≤ 256
      then runAll [.cfgW8 reg (lane v 0), .cfgW8 (reg + 1) (lane v 1), .cfgW8 (reg + 2) (lane v 2), .cfgW8 (reg + 3) (lane v 3)] s
      else .refused .configEdge)

/-- Every configuration write inside the 256 bytes completes and changes only configuration bytes it addresses, aperture mappings and
the event stream (R152, R161). -/
def Obligations.ConfigurationWritesCompleteAndFrame : Prop :=
  ∀ (s : State) (reg : BitVec 8),
    (∀ v : Byte, ∃ t, exec (.cfgW8 reg v) s = .next t ∧ t = { s with conf := t.conf, ap := t.ap, events := t.events }
      ∧ ∀ a, a ≠ reg.toNat → t.conf.read a = s.conf.read a)
    ∧ (∀ v : Half, reg.toNat + 2 ≤ 256 →
      ∃ t, exec (.cfgW16 reg v) s = .next t ∧ t = { s with conf := t.conf, ap := t.ap, events := t.events }
        ∧ ∀ a, ¬ (reg.toNat ≤ a ∧ a < reg.toNat + 2) → t.conf.read a = s.conf.read a)
    ∧ (∀ v : Word, reg.toNat + 4 ≤ 256 →
      ∃ t, exec (.cfgW32 reg v) s = .next t ∧ t = { s with conf := t.conf, ap := t.ap, events := t.events }
        ∧ ∀ a, ¬ (reg.toNat ≤ a ∧ a < reg.toNat + 4) → t.conf.read a = s.conf.read a)

/-- A BAR byte write stores the byte and then acts on the base of the four stored bytes: a zero base unmaps at once; the high byte of
a nonzero base commits it while memory decode is on, and unmaps while it is off; a lower byte of a nonzero base leaves the mapping
where it was (R154, R155); the other apertures stay (R161). -/
def Obligations.BarByteWriteActsOnTheStoredBase : Prop :=
  ∀ (s : State) (ap : Aperture) (i : Nat) (reg : BitVec 8) (v : Byte), s.cfg.wf = true → i < 4 →
    reg.toNat = s.cfg.cfgBar.get ap + i →
    let base := barBase (s.setConf reg.toNat v) ap
    let old := s.ap.get ap
    ∃ t, exec (.cfgW8 reg v) s = .next t
      ∧ t = { s with conf := t.conf, ap := t.ap, events := t.events }
      ∧ (∀ a, t.conf.read a = if a = reg.toNat then v else s.conf.read a)
      ∧ (∀ q, q ≠ ap → t.ap.get q = s.ap.get q)
      ∧ (base = 0 ∨ (i = 3 ∧ memEn s = false) →
        (t.ap.get ap).en = false ∧ t.events = s.events ++ (if old.en = true then [.unmap ap] else []))
      ∧ (base ≠ 0 → i = 3 → memEn s = true →
        t.ap.get ap = ⟨true, base⟩
        ∧ t.events = s.events ++ (if old.en = true ∧ old.base ≠ base then [.unmap ap] else []) ++ [.map ap base (s.cfg.apSize ap)])
      ∧ (base ≠ 0 → i ≠ 3 → t.ap.get ap = old ∧ t.events = s.events)

/-- A write of the command register's low byte keeps the bits of `CMD_WMASK`; clearing memory decode unmaps every aperture at once, and
setting it maps nothing (R153). -/
def Obligations.CommandWriteGatesApertures : Prop :=
  ∀ (s : State) (reg : BitVec 8) (v : Byte), reg.toNat = s.cfg.cfgCmd →
    ∃ t, exec (.cfgW8 reg v) s = .next t
      ∧ t = { s with conf := t.conf, ap := t.ap, events := t.events }
      ∧ (∀ a, t.conf.read a = if a = reg.toNat then v &&& lane s.cfg.cmdWmask 0 else s.conf.read a)
      ∧ (memEn t = true → t.ap = s.ap ∧ t.events = s.events)
      ∧ (memEn t = false → (∀ ap, (t.ap.get ap).en = false)
        ∧ t.events = s.events ++ (Aperture.all.filter (fun ap => (s.ap.get ap).en)).map (fun ap => .unmap ap))

/-- A 32-bit write of a nonzero base to a BAR with memory decode on maps the aperture there, and the BAR then reads as the literal
stored bytes (R162, R169). -/
def Obligations.BarDwordMapsTheAperture : Prop :=
  ∀ (s : State) (ap : Aperture) (reg : BitVec 8) (v : Word), s.cfg.wf = true → reg.toNat = s.cfg.cfgBar.get ap →
    memEn s = true → v &&& baseMask ap ≠ 0 →
    ∃ t, exec (.cfgW32 reg v) s = .next t
      ∧ t.ap.get ap = ⟨true, v &&& baseMask ap⟩ ∧ (∀ q, q ≠ ap → t.ap.get q = s.ap.get q)
      ∧ exec (.cfgR32 reg) t = .next (t.setReply (.r32 v))

/-- Identification bytes, the unused BAR group and the interrupt pin ignore writes; the interrupt line stores the byte; the command
register's high byte keeps the bits of `CMD_WMASK`; no aperture moves (R152, R157, R159, R160). -/
def Obligations.ConfigurationBytesWithoutAnAperture : Prop :=
  ∀ (s : State) (reg : BitVec 8) (v : Byte),
    (readOnlyByte s.cfg reg.toNat → exec (.cfgW8 reg v) s = .next s)
    ∧ (s.cfg.wf = true → reg.toNat = s.cfg.cfgIntLine →
      ∃ t, exec (.cfgW8 reg v) s = .next t ∧ t = { s with conf := t.conf }
        ∧ ∀ a, t.conf.read a = if a = reg.toNat then v else s.conf.read a)
    ∧ (reg.toNat = s.cfg.cfgCmd + 1 →
      ∃ t, exec (.cfgW8 reg v) s = .next t ∧ t = { s with conf := t.conf }
        ∧ ∀ a, t.conf.read a = if a = reg.toNat then v &&& lane s.cfg.cmdWmask 1 else s.conf.read a)

/-- The Linear aperture reads video memory at the offset modulo its size, in little-endian lanes, and changes nothing (R164). A
read past the aperture's end is refused (spec/20_memory.md R64; of the single byte of `LIN.R8`, of which R64 does not speak, by the
model's choice: log entry 7). -/
def Obligations.LinearReadsVideoMemory : Prop :=
  ∀ (s : State) (off : Word), s.cfg.wf = true →
    let byteAt : Nat → Byte := fun k => s.vram.read ((off.toNat + k) % s.cfg.vramSize)
    exec (.linR8 off) s = (if off.toNat + 1 ≤ s.cfg.linearSize then .next (s.setReply (.r8 (byteAt 0))) else .refused .apertureEdge)
    ∧ exec (.linR16 off) s = (if off.toNat + 2 ≤ s.cfg.linearSize
        then .next (s.setReply (.r16 (half (byteAt 0) (byteAt 1)))) else .refused .apertureEdge)
    ∧ exec (.linR32 off) s = (if off.toNat + 4 ≤ s.cfg.linearSize
        then .next (s.setReply (.r32 (word (byteAt 0) (byteAt 1) (byteAt 2) (byteAt 3)))) else .refused .apertureEdge)

/-- A Linear write stores its bytes in video memory and changes nothing else; no CmdFifo entry is counted, inside the ring or not
(R164, spec/20_memory.md R75). A write past the aperture's end is refused (spec/20_memory.md R64; of the single byte of `LIN.W8`, of
which R64 does not speak, by the model's choice: log entry 7). -/
def Obligations.LinearWritesCountNothing : Prop :=
  ∀ (s : State) (off : Word), s.cfg.wf = true →
    (∀ v : Byte, off.toNat + 1 ≤ s.cfg.linearSize →
      ∃ t, exec (.linW8 off v) s = .next t ∧ t = { s with vram := t.vram }
        ∧ ∀ a, t.vram.read a = if a = off.toNat % s.cfg.vramSize then v else s.vram.read a)
    ∧ (∀ v : Half, off.toNat + 2 ≤ s.cfg.linearSize →
      ∃ t, exec (.linW16 off v) s = .next t ∧ t = { s with vram := t.vram }
        ∧ (2 ≤ s.cfg.vramSize → ∀ k, k < 2 → t.vram.read ((off.toNat + k) % s.cfg.vramSize) = lane v k)
        ∧ ∀ a, (∀ k, k < 2 → a ≠ (off.toNat + k) % s.cfg.vramSize) → t.vram.read a = s.vram.read a)
    ∧ (∀ v : Word, off.toNat + 4 ≤ s.cfg.linearSize →
      ∃ t, exec (.linW32 off v) s = .next t ∧ t = { s with vram := t.vram }
        ∧ (4 ≤ s.cfg.vramSize → ∀ k, k < 4 → t.vram.read ((off.toNat + k) % s.cfg.vramSize) = lane v k)
        ∧ ∀ a, (∀ k, k < 4 → a ≠ (off.toNat + k) % s.cfg.vramSize) → t.vram.read a = s.vram.read a)
    ∧ (s.cfg.linearSize < off.toNat + 1 → ∀ v, exec (.linW8 off v) s = .refused .apertureEdge)
    ∧ (s.cfg.linearSize < off.toNat + 2 → ∀ v, exec (.linW16 off v) s = .refused .apertureEdge)
    ∧ (s.cfg.linearSize < off.toNat + 4 → ∀ v, exec (.linW32 off v) s = .refused .apertureEdge)

/-- ROM reads return the image's bytes and ROM writes change nothing (R165); both are refused past the aperture's end
(spec/20_memory.md R64; of the single byte of `ROM.R8` and `ROM.W8`, of which R64 does not speak, by the model's choice: log entry
7). -/
def Obligations.RomReadsTheImageAndIgnoresWrites : Prop :=
  ∀ (s : State) (off : Word),
    (off.toNat + 1 ≤ s.cfg.romSize → exec (.romR8 off) s = .next (s.setReply (.r8 (Config.romByte off.toNat)))
      ∧ ∀ v, exec (.romW8 off v) s = .next s)
    ∧ (off.toNat + 2 ≤ s.cfg.romSize →
      exec (.romR16 off) s = .next (s.setReply (.r16 (Config.romByte (off.toNat + 1) ++ Config.romByte off.toNat)))
      ∧ ∀ v, exec (.romW16 off v) s = .next s)
    ∧ (off.toNat + 4 ≤ s.cfg.romSize →
      exec (.romR32 off) s = .next (s.setReply (.r32 (Config.romByte (off.toNat + 3) ++ Config.romByte (off.toNat + 2)
        ++ Config.romByte (off.toNat + 1) ++ Config.romByte off.toNat)))
      ∧ ∀ v, exec (.romW32 off v) s = .next s)
    ∧ (s.cfg.romSize < off.toNat + 1 → exec (.romR8 off) s = .refused .apertureEdge
      ∧ ∀ v, exec (.romW8 off v) s = .refused .apertureEdge)
    ∧ (s.cfg.romSize < off.toNat + 2 → exec (.romR16 off) s = .refused .apertureEdge
      ∧ ∀ v, exec (.romW16 off v) s = .refused .apertureEdge)
    ∧ (s.cfg.romSize < off.toNat + 4 → exec (.romR32 off) s = .refused .apertureEdge
      ∧ ∀ v, exec (.romW32 off v) s = .refused .apertureEdge)

/-! ## Swaps and reset -/

/-- `requestSwap()` sets `swap_req`; `requestSwapPending()` adds one up to 7, so any number of `requestSwapPending()` calls leave the counter at the sum, at most 7; both change
nothing else (spec/44_neighbour_engines.md R281, R283). -/
def Obligations.SwapRequestsSaturate : Prop :=
  ∀ s : State, exec .swapReq s = .next { s with swapReq := true }
    ∧ exec .swapPend s = .next { s with swapPending := if s.swapPending = 7 then 7 else s.swapPending + 1 }
    ∧ ∀ n, ∃ t, runAll (List.replicate n .swapPend) s = .next t ∧ t = { s with swapPending := t.swapPending }
      ∧ t.swapPending.toNat = min (s.swapPending.toNat + n) 7

/-- The tick counts a pending requested swap down, performs it when the counter reaches 0, and forwards itself to the companion
(R282). -/
def Obligations.VsyncCountsPendingSwapsDown : Prop :=
  ∀ s : State, ∃ t, exec .vsync s = .next t
    ∧ t = { s with swapReq := t.swapReq, swapPending := t.swapPending, events := t.events }
    ∧ (s.swapReq = true → 1 < s.swapPending.toNat →
      t.swapPending.toNat = s.swapPending.toNat - 1 ∧ t.swapReq = true ∧ t.events = s.events ++ [.companionVsync])
    ∧ (s.swapReq = true → s.swapPending.toNat = 1 →
      t.swapPending.toNat = 0 ∧ t.swapReq = false ∧ t.events = s.events ++ [.presentSwap, .companionVsync])
    ∧ (s.swapReq = false ∨ s.swapPending.toNat = 0 →
      t.swapPending = s.swapPending ∧ t.swapReq = s.swapReq ∧ t.events = s.events ++ [.companionVsync])

/-- Reset zeroes the window, restores the configuration space and the companion registers to their reset values, disables the apertures
and clears every latch, counter and flag and the diagnostic stream; video and texture memory, the captured batch and the committed
bases stay (spec/70_reset_and_hazards.md R311). -/
def Obligations.ResetLeavesTheResetValues : Prop :=
  ∀ s : State, ∃ t, exec .reset s = .next t
    ∧ (∀ a, t.rb.read a = 0) ∧ (∀ a, t.conf.read a = Mem.read s.cfg.cfgReset a)
    ∧ (∀ ap, t.ap.get ap = ⟨false, (s.ap.get ap).base⟩)
    ∧ t.events = s.events ++ (Aperture.all.filter (fun ap => (s.ap.get ap).en)).map (fun ap => .unmap ap)
    ∧ (∀ r : BitVec 8, t.compGet r = s.cfg.compReset[r.toNat]'(by have := r.isLt; omega))
    ∧ (t.bridgeEn = false ∧ t.thpStage = 0 ∧ t.thpRequest = false ∧ t.thpGrant = false)
    ∧ (t.cfEnabled = false ∧ t.cfBottom = 0 ∧ t.cfTop = 0 ∧ t.cfThreshold = 0 ∧ t.cfReadPtr = 0 ∧ t.cfEntryCount = 0
      ∧ t.cfThreshStatus = false)
    ∧ (t.d2Busy = false ∧ t.d3Busy = false ∧ t.swapReq = false ∧ t.swapPending = 0 ∧ t.diags = [])
    ∧ (t.vram = s.vram ∧ t.tex = s.tex ∧ t.d3Batch = s.d3Batch ∧ t.cfg = s.cfg)

/-! ## The whole machine -/

/-- Only configuration writes and reset change a configuration byte or an aperture mapping (spec/20_memory.md R79,
spec/41_pci_aperture.md R170). -/
def Obligations.OnlyConfigurationWritesMoveApertures : Prop :=
  ∀ (s t : State) (i : Instr), exec i s = .next t → (∀ reg v, i ≠ .cfgW8 reg v) → (∀ reg v, i ≠ .cfgW16 reg v) →
    (∀ reg v, i ≠ .cfgW32 reg v) → i ≠ .reset → t.conf = s.conf ∧ t.ap = s.ap

/-- Nothing but reset clears a handshake flag (spec/42_bridge_puma.md R206). -/
def Obligations.OnlyResetClearsHandshakeFlags : Prop :=
  ∀ (s t : State) (i : Instr), exec i s = .next t → i ≠ .reset →
    (s.thpRequest = true → t.thpRequest = true) ∧ (s.thpGrant = true → t.thpGrant = true)

/-- Without a companion no host transaction and no event but reset changes a companion register, texture memory, the bridge latch, a
handshake flag, the read pointer, the entry count or the status bit (spec/10_state.md R43). -/
def Obligations.AbsentCompanionStateIsFrozen : Prop :=
  ∀ (s t : State) (i : Instr), s.cfg.companionPresent = false → exec i s = .next t → i ≠ .reset → i ≠ .cfProcess →
    i.packet? = none →
    t.comp = s.comp ∧ t.tex = s.tex ∧ t.bridgeEn = s.bridgeEn ∧ t.thpRequest = s.thpRequest ∧ t.thpGrant = s.thpGrant
      ∧ t.cfReadPtr = s.cfReadPtr ∧ t.cfEntryCount = s.cfEntryCount ∧ t.cfThreshStatus = s.cfThreshStatus

/-- Every step keeps the configuration, and the four memories canonical and inside their ranges. -/
def Obligations.StepKeepsMemoriesCanonical : Prop :=
  ∀ s t : State, s.cfg.wf = true → memoryInv s → step s = .next t → t.cfg = s.cfg ∧ memoryInv t

/-- Every step keeps enabled apertures at nonzero aligned bases with memory decode on (R153, R155, R156). -/
def Obligations.StepKeepsAperturesAligned : Prop :=
  ∀ s t : State, s.cfg.wf = true → apertureInv s → step s = .next t → apertureInv t

/-- Every step keeps read-only configuration bytes at `CFG_RESET` and the command register inside `CMD_WMASK` (spec/10_state.md R25,
R28). -/
def Obligations.StepKeepsReadOnlyConfiguration : Prop :=
  ∀ s t : State, s.cfg.wf = true → confInv s → step s = .next t → confInv t

/-- Every step leaves no entry pending (spec/43_cmdfifo.md R248 item 5), no engine busy and both start bits clear (spec/10_state.md R41,
spec/44_neighbour_engines.md R274, R279), the bridge enabled only with a companion (spec/42_bridge_puma.md R191), and keeps the CmdFifo
latches inside their widths (spec/10_state.md R20). -/
def Obligations.StepLeavesNothingPending : Prop :=
  ∀ s t : State, s.cfg.wf = true → idleInv s → latchInv s → step s = .next t → idleInv t ∧ latchInv t

/-- The state after reset meets all the invariants, for every well-formed configuration; the clause on memories rests on log entry 4. -/
def Obligations.ResetMeetsTheInvariants : Prop :=
  ∀ c : Cfg, c.wf = true →
    memoryInv (State.resetOf c) ∧ apertureInv (State.resetOf c) ∧ confInv (State.resetOf c) ∧ idleInv (State.resetOf c)
      ∧ latchInv (State.resetOf c)
end

