-- ==== Sys2Proof/Laws/Memory.lean ====
section
/-! SUPPORT. The laws of a memory: what a read gives after a write, and that every write keeps the canonical form. -/

namespace Sys2Proof.Machine

/-! ## Reads after writes -/

@[simp] theorem Mem.read_nil (a : Nat) : Mem.read [] a = 0#8 := rfl

theorem Mem.read_erase (m : Mem) (a b : Nat) : (m.erase a).read b = if b = a then 0#8 else m.read b := by
  induction m with
  | nil => simp [Mem.erase]
  | cons c m ih =>
    obtain ⟨k, x⟩ := c
    by_cases hk : a = k
    · subst hk
      by_cases hb : b = a
      · subst hb; simpa [Mem.erase] using ih
      · simp [Mem.erase, Mem.read, ih, hb]
    · by_cases hb : b = k
      · subst hb; simp [Mem.erase, hk, Mem.read, Ne.symm hk]
      · simp [Mem.erase, hk, Mem.read, hb, ih]

theorem Mem.read_insert (m : Mem) (a b : Nat) (v : Byte) (hm : m.read a = 0#8 → ∀ c ∈ m, c.1 ≠ a) (h0 : m.read a = 0#8) :
    (m.insert a v).read b = if b = a then v else m.read b := by
  have hne := hm h0
  clear hm h0
  induction m with
  | nil => by_cases hb : b = a <;> simp [Mem.insert, Mem.read, hb]
  | cons c m ih =>
    obtain ⟨k, x⟩ := c
    have hk : k ≠ a := hne (k, x) (by simp)
    have ih' := ih (fun c hc => hne c (by simp [hc]))
    by_cases hlt : a < k
    · by_cases hb : b = a <;> simp [Mem.insert, hlt, Mem.read, hb]
    · by_cases hb : b = k
      · subst hb; simp [Mem.insert, hlt, Mem.read, hk]
      · simp [Mem.insert, hlt, Mem.read, hb, ih']

theorem Mem.mem_erase {m : Mem} {a : Nat} {c : Host.Cell} (h : c ∈ m.erase a) : c ∈ m ∧ c.1 ≠ a := by
  induction m with
  | nil => simp [Mem.erase] at h
  | cons d m ih =>
    obtain ⟨k, x⟩ := d
    by_cases hk : a = k
    · simp only [Mem.erase, hk, if_true] at h
      have := ih (hk ▸ h)
      exact ⟨by simp [this.1], this.2⟩
    · simp only [Mem.erase, hk, if_false, List.mem_cons] at h
      rcases h with rfl | h
      · exact ⟨by simp, Ne.symm hk⟩
      · have := ih h
        exact ⟨by simp [this.1], this.2⟩

/-- The one fact of a write: the byte written reads as written, every other byte as before. -/
theorem Mem.read_write (m : Mem) (a b : Nat) (v : Byte) : (m.write a v).read b = if b = a then v else m.read b := by
  unfold Mem.write
  by_cases hv : v = unlistedByte
  · simp only [hv, if_true, Mem.read_erase]
  · simp only [hv, if_false]
    rw [Mem.read_insert]
    · by_cases hb : b = a <;> simp [hb, Mem.read_erase]
    · intro _ c hc; exact (Mem.mem_erase hc).2
    · simp [Mem.read_erase]

@[simp] theorem Mem.read_write_same (m : Mem) (a : Nat) (v : Byte) : (m.write a v).read a = v := by
  simp [Mem.read_write]

theorem Mem.read_write_ne (m : Mem) {a b : Nat} (v : Byte) (h : b ≠ a) : (m.write a v).read b = m.read b := by
  simp [Mem.read_write, h]

/-! ## Words -/

/-- Two neighbouring lanes are 16 bits of the value. -/
theorem half_lanes_at {w : Nat} (v : BitVec w) (k : Nat) : half (lane v k) (lane v (k + 1)) = v.extractLsb' (8 * k) 16 := by
  unfold half lane
  apply BitVec.eq_of_getLsbD_eq
  intro i hi
  simp only [BitVec.getLsbD_append, BitVec.getLsbD_extractLsb', hi, decide_true, Bool.true_and]
  by_cases h : i < 8
  · simp [h]
  · have e : 8 * (k + 1) + (i - 8) = 8 * k + i := by omega
    have h8 : i - 8 < 8 := by omega
    simp [h, e, h8]

/-- A word is made of its lanes. -/
@[simp] theorem word_lanes (v : Word) : word (lane v 0) (lane v 1) (lane v 2) (lane v 3) = v := by
  unfold word lane
  apply BitVec.eq_of_getLsbD_eq
  intro i hi
  simp only [BitVec.getLsbD_append, BitVec.getLsbD_extractLsb']
  have h4 : i < 8 ∨ (8 ≤ i ∧ i < 16) ∨ (16 ≤ i ∧ i < 24) ∨ (24 ≤ i ∧ i < 32) := by omega
  rcases h4 with h | ⟨h, h'⟩ | ⟨h, h'⟩ | ⟨h, h'⟩
  · simp [h]
  · have e : 8 + (i - 8) = i := by omega
    simp [show ¬ i < 8 by omega, show i - 8 < 8 by omega, e]
  · have e : 16 + (i - 8 - 8) = i := by omega
    simp [show ¬ i < 8 by omega, show ¬ i - 8 < 8 by omega, show i - 8 - 8 < 8 by omega, e]
  · have e : 24 + (i - 8 - 8 - 8) = i := by omega
    simp [show ¬ i < 8 by omega, show ¬ i - 8 < 8 by omega, show ¬ i - 8 - 8 < 8 by omega, show i - 8 - 8 - 8 < 8 by omega, e]

@[simp] theorem half_lanes (v : Half) : half (lane v 0) (lane v 1) = v := by
  unfold half lane
  apply BitVec.eq_of_getLsbD_eq
  intro i hi
  simp only [BitVec.getLsbD_append, BitVec.getLsbD_extractLsb']
  by_cases h : i < 8
  · simp [h]
  · have e : 8 + (i - 8) = i := by omega
    simp [h, show i - 8 < 8 by omega, e]

theorem Mem.read_wr32 (m : Mem) (i a : Nat) (v : Word) :
    (m.wr32 i v).read a = if i ≤ a ∧ a < i + 4 then lane v (a - i) else m.read a := by
  simp only [Mem.wr32, Mem.read_write]
  by_cases h : i ≤ a ∧ a < i + 4
  · simp only [h, and_self, if_true]
    have : a = i ∨ a = i + 1 ∨ a = i + 2 ∨ a = i + 3 := by omega
    rcases this with rfl | rfl | rfl | rfl <;> simp
  · simp only [h, if_false]
    have h0 : a ≠ i := by omega
    have h1 : a ≠ i + 1 := by omega
    have h2 : a ≠ i + 2 := by omega
    have h3 : a ≠ i + 3 := by omega
    simp [h0, h1, h2, h3]

@[simp] theorem Mem.rd32_wr32_same (m : Mem) (i : Nat) (v : Word) : (m.wr32 i v).rd32 i = v := by
  simp [Mem.rd32, Mem.read_wr32]

theorem Mem.rd32_wr32_apart (m : Mem) {i j : Nat} (v : Word) (h : i + 4 ≤ j ∨ j + 4 ≤ i) : (m.wr32 i v).rd32 j = m.rd32 j := by
  have h0 : ¬(i ≤ j ∧ j < i + 4) := by omega
  have h1 : ¬(i ≤ j + 1 ∧ j + 1 < i + 4) := by omega
  have h2 : ¬(i ≤ j + 2 ∧ j + 2 < i + 4) := by omega
  have h3 : ¬(i ≤ j + 3 ∧ j + 3 < i + 4) := by omega
  simp only [Mem.rd32, Mem.read_wr32, h0, h1, h2, h3, if_false]

/-! ## The canonical form -/

theorem Mem.wf_iff (m : Mem) : m.wf = true ↔ m.Pairwise (fun c d => c.1 < d.1) ∧ ∀ c ∈ m, c.2 ≠ unlistedByte := by
  simp [Mem.wf, List.all_eq_true]

theorem Mem.below_iff (m : Mem) (n : Nat) : m.below n = true ↔ ∀ c ∈ m, c.1 < n := by
  simp [Mem.below, List.all_eq_true]

theorem Mem.erase_sublist (m : Mem) (a : Nat) : (m.erase a).Sublist m := by
  induction m with
  | nil => simp [Mem.erase]
  | cons c m ih =>
    obtain ⟨k, x⟩ := c
    by_cases hk : a = k
    · simp only [Mem.erase, hk, if_true]
      exact (hk ▸ ih).trans (List.sublist_cons_self _ _)
    · simp only [Mem.erase, hk, if_false]
      exact ih.cons_cons _

theorem Mem.mem_insert {m : Mem} {a : Nat} {v : Byte} {c : Host.Cell} (h : c ∈ m.insert a v) : c = (a, v) ∨ c ∈ m := by
  induction m with
  | nil => simpa [Mem.insert] using h
  | cons d m ih =>
    obtain ⟨k, x⟩ := d
    by_cases hlt : a < k
    · simp only [Mem.insert, hlt, if_true, List.mem_cons] at h
      rcases h with rfl | rfl | h <;> simp [*]
    · simp only [Mem.insert, hlt, if_false, List.mem_cons] at h
      rcases h with rfl | h
      · simp
      · rcases ih h with rfl | h <;> simp [*]

theorem Mem.insert_sorted {m : Mem} {a : Nat} (v : Byte) (hs : m.Pairwise (fun c d => c.1 < d.1)) (hne : ∀ c ∈ m, c.1 ≠ a) :
    (m.insert a v).Pairwise (fun c d => c.1 < d.1) := by
  induction m with
  | nil => simp [Mem.insert]
  | cons d m ih =>
    obtain ⟨k, x⟩ := d
    rw [List.pairwise_cons] at hs
    have hka : k ≠ a := hne (k, x) (by simp)
    by_cases hlt : a < k
    · simp only [Mem.insert, hlt, if_true]
      refine List.pairwise_cons.2 ⟨?_, List.pairwise_cons.2 hs⟩
      intro c hc
      rcases List.mem_cons.1 hc with rfl | hc
      · exact hlt
      · exact hlt.trans (hs.1 c hc)
    · simp only [Mem.insert, hlt, if_false]
      refine List.pairwise_cons.2 ⟨?_, ih hs.2 (fun c hc => hne c (by simp [hc]))⟩
      intro c hc
      rcases Mem.mem_insert hc with rfl | hc
      · show k < a; omega
      · exact hs.1 c hc

/-- A write keeps the canonical form. -/
theorem Mem.wf_write {m : Mem} (a : Nat) (v : Byte) (h : m.wf = true) : (m.write a v).wf = true := by
  rw [Mem.wf_iff] at h ⊢
  have hsub := Mem.erase_sublist m a
  have hE : (m.erase a).Pairwise (fun c d => c.1 < d.1) := h.1.sublist hsub
  have hZ : ∀ c ∈ m.erase a, c.2 ≠ unlistedByte := fun c hc => h.2 c (hsub.subset hc)
  unfold Mem.write
  by_cases hv : v = unlistedByte
  · simp only [hv, if_true]; exact ⟨hE, hZ⟩
  · simp only [hv, if_false]
    refine ⟨Mem.insert_sorted v hE (fun c hc => (Mem.mem_erase hc).2), ?_⟩
    intro c hc
    rcases Mem.mem_insert hc with rfl | hc
    · exact hv
    · exact hZ c hc

/-- A write below a bound keeps every listed address below it. -/
theorem Mem.below_write {m : Mem} {a n : Nat} (v : Byte) (h : m.below n = true) (ha : a < n) : (m.write a v).below n = true := by
  rw [Mem.below_iff] at h ⊢
  intro c hc
  unfold Mem.write at hc
  split at hc
  · exact h c ((Mem.erase_sublist m a).subset hc)
  · rcases Mem.mem_insert hc with rfl | hc
    · exact ha
    · exact h c ((Mem.erase_sublist m a).subset hc)

theorem Mem.wf_wr32 {m : Mem} (i : Nat) (v : Word) (h : m.wf = true) : (m.wr32 i v).wf = true :=
  Mem.wf_write _ _ (Mem.wf_write _ _ (Mem.wf_write _ _ (Mem.wf_write _ _ h)))

theorem Mem.below_wr32 {m : Mem} {i n : Nat} (v : Word) (h : m.below n = true) (hi : i + 3 < n) : (m.wr32 i v).below n = true :=
  Mem.below_write _ (Mem.below_write _ (Mem.below_write _ (Mem.below_write _ h (by omega)) (by omega)) (by omega)) hi

/-- Canonical memories with the same bytes are the same data. -/
theorem Mem.ext_of_wf {m n : Mem} (hm : m.wf = true) (hn : n.wf = true) (h : ∀ a, m.read a = n.read a) : m = n := by
  rw [Mem.wf_iff] at hm hn
  have notBelow : ∀ {l : Mem} {k : Nat}, (∀ c ∈ l, k < c.1) → l.read k = 0#8 := by
    intro l k hl
    induction l with
    | nil => rfl
    | cons c l ih =>
      obtain ⟨j, x⟩ := c
      have hj : k < j := hl (j, x) (by simp)
      have : k ≠ j := by omega
      simp [Mem.read, this, ih (fun c hc => hl c (by simp [hc]))]
  induction m generalizing n with
  | nil =>
    cases n with
    | nil => rfl
    | cons d n =>
      obtain ⟨k, x⟩ := d
      have := h k
      simp [Mem.read] at this
      exact absurd this.symm (hn.2 (k, x) (by simp))
  | cons c m ih =>
    obtain ⟨k, x⟩ := c
    cases n with
    | nil =>
      have := h k
      simp [Mem.read] at this
      exact absurd this (hm.2 (k, x) (by simp))
    | cons d n =>
      obtain ⟨j, y⟩ := d
      have hm1 := List.pairwise_cons.1 hm.1
      have hn1 := List.pairwise_cons.1 hn.1
      have hkj : k = j := by
        rcases Nat.lt_trichotomy k j with hlt | heq | hgt
        · exfalso
          have h1 := h k
          have h2 : Mem.read ((j, y) :: n) k = 0#8 := notBelow (by
            intro c hc
            rcases List.mem_cons.1 hc with rfl | hc
            · exact hlt
            · exact hlt.trans (hn1.1 c hc))
          rw [h2] at h1
          simp [Mem.read] at h1
          exact hm.2 (k, x) (by simp) h1
        · exact heq
        · exfalso
          have h1 := h j
          have h2 : Mem.read ((k, x) :: m) j = 0#8 := notBelow (by
            intro c hc
            rcases List.mem_cons.1 hc with rfl | hc
            · exact hgt
            · exact hgt.trans (hm1.1 c hc))
          rw [h2] at h1
          simp [Mem.read] at h1
          exact hn.2 (j, y) (by simp) h1.symm
      subst hkj
      have hxy : x = y := by have := h k; simpa [Mem.read] using this
      subst hxy
      congr 1
      refine ih ⟨hm1.2, fun c hc => hm.2 c (by simp [hc])⟩ ⟨hn1.2, fun c hc => hn.2 c (by simp [hc])⟩ ?_
      intro a
      by_cases ha : a = k
      · subst ha
        rw [notBelow hm1.1, notBelow hn1.1]
      · have := h a
        simpa [Mem.read, ha] using this

/-- A read of bytes depends on those bytes only. -/
theorem Mem.readLE_congr {m n : Mem} {k : Nat} : ∀ {a : Nat}, (∀ b, a ≤ b → b < a + k → m.read b = n.read b) → m.readLE a k = n.readLE a k := by
  induction k with
  | zero => intro a _; rfl
  | succ k ih =>
    intro a h
    simp only [Mem.readLE]
    rw [h a (by omega) (by omega), ih (fun b h1 h2 => h b (by omega) (by omega))]

/-- The value of `k` bytes is below `256 ^ k`. -/
theorem Mem.readLE_lt (m : Mem) (k : Nat) : ∀ a, m.readLE a k < 256 ^ k := by
  induction k with
  | zero => intro a; simp [Mem.readLE]
  | succ k ih =>
    intro a
    have h1 := (m.read a).isLt
    have h2 := ih (a + 1)
    simp only [Mem.readLE, Nat.pow_succ]
    omega

/-- Four bytes as a number are the word they make. -/
theorem Mem.readLE_four (m : Mem) (a : Nat) : BitVec.ofNat 32 (m.readLE a 4) = m.rd32 a := by
  have e : m.readLE a 4 = (m.rd32 a).toNat := by
    simp only [Mem.readLE, Mem.rd32, word, BitVec.toNat_append, Nat.add_assoc]
    have h0 := (m.read a).isLt
    have h1 := (m.read (a + 1)).isLt
    have h2 := (m.read (a + 2)).isLt
    have h3 := (m.read (a + 3)).isLt
    simp only [Nat.reduceAdd, Nat.reducePow] at *
    rw [← Nat.shiftLeft_add_eq_or_of_lt (by omega), ← Nat.shiftLeft_add_eq_or_of_lt (by omega),
      ← Nat.shiftLeft_add_eq_or_of_lt (by omega)]
    simp only [Nat.shiftLeft_eq]
    omega
  rw [e]; simp

end Sys2Proof.Machine
end

