-- ==== Sys2Proof/Laws/State.lean ====
section
/-! SUPPORT. What every update of the state leaves and sets: one lemma per field per update, so that no later proof unfolds a record
update. -/

namespace Sys2Proof.Machine

/-! ## `State.log` -/

@[simp] theorem State.log_cfg (s : State) (d : Diag) : (s.log d).cfg = s.cfg := rfl
@[simp] theorem State.log_rb (s : State) (d : Diag) : (s.log d).rb = s.rb := rfl
@[simp] theorem State.log_conf (s : State) (d : Diag) : (s.log d).conf = s.conf := rfl
@[simp] theorem State.log_ap (s : State) (d : Diag) : (s.log d).ap = s.ap := rfl
@[simp] theorem State.log_vram (s : State) (d : Diag) : (s.log d).vram = s.vram := rfl
@[simp] theorem State.log_comp (s : State) (d : Diag) : (s.log d).comp = s.comp := rfl
@[simp] theorem State.log_tex (s : State) (d : Diag) : (s.log d).tex = s.tex := rfl
@[simp] theorem State.log_bridgeEn (s : State) (d : Diag) : (s.log d).bridgeEn = s.bridgeEn := rfl
@[simp] theorem State.log_thpStage (s : State) (d : Diag) : (s.log d).thpStage = s.thpStage := rfl
@[simp] theorem State.log_thpRequest (s : State) (d : Diag) : (s.log d).thpRequest = s.thpRequest := rfl
@[simp] theorem State.log_thpGrant (s : State) (d : Diag) : (s.log d).thpGrant = s.thpGrant := rfl
@[simp] theorem State.log_cfEnabled (s : State) (d : Diag) : (s.log d).cfEnabled = s.cfEnabled := rfl
@[simp] theorem State.log_cfBottom (s : State) (d : Diag) : (s.log d).cfBottom = s.cfBottom := rfl
@[simp] theorem State.log_cfTop (s : State) (d : Diag) : (s.log d).cfTop = s.cfTop := rfl
@[simp] theorem State.log_cfThreshold (s : State) (d : Diag) : (s.log d).cfThreshold = s.cfThreshold := rfl
@[simp] theorem State.log_cfReadPtr (s : State) (d : Diag) : (s.log d).cfReadPtr = s.cfReadPtr := rfl
@[simp] theorem State.log_cfEntryCount (s : State) (d : Diag) : (s.log d).cfEntryCount = s.cfEntryCount := rfl
@[simp] theorem State.log_cfThreshStatus (s : State) (d : Diag) : (s.log d).cfThreshStatus = s.cfThreshStatus := rfl
@[simp] theorem State.log_d2Busy (s : State) (d : Diag) : (s.log d).d2Busy = s.d2Busy := rfl
@[simp] theorem State.log_d3Busy (s : State) (d : Diag) : (s.log d).d3Busy = s.d3Busy := rfl
@[simp] theorem State.log_d3Batch (s : State) (d : Diag) : (s.log d).d3Batch = s.d3Batch := rfl
@[simp] theorem State.log_swapReq (s : State) (d : Diag) : (s.log d).swapReq = s.swapReq := rfl
@[simp] theorem State.log_swapPending (s : State) (d : Diag) : (s.log d).swapPending = s.swapPending := rfl
@[simp] theorem State.log_diags (s : State) (d : Diag) : (s.log d).diags = s.diags ++ [d] := rfl
@[simp] theorem State.log_events (s : State) (d : Diag) : (s.log d).events = s.events := rfl
@[simp] theorem State.log_reply (s : State) (d : Diag) : (s.log d).reply = s.reply := rfl
@[simp] theorem State.log_bus (s : State) (d : Diag) : (s.log d).bus = s.bus := rfl

/-! ## `State.emit` -/

@[simp] theorem State.emit_cfg (s : State) (e : Event) : (s.emit e).cfg = s.cfg := rfl
@[simp] theorem State.emit_rb (s : State) (e : Event) : (s.emit e).rb = s.rb := rfl
@[simp] theorem State.emit_conf (s : State) (e : Event) : (s.emit e).conf = s.conf := rfl
@[simp] theorem State.emit_ap (s : State) (e : Event) : (s.emit e).ap = s.ap := rfl
@[simp] theorem State.emit_vram (s : State) (e : Event) : (s.emit e).vram = s.vram := rfl
@[simp] theorem State.emit_comp (s : State) (e : Event) : (s.emit e).comp = s.comp := rfl
@[simp] theorem State.emit_tex (s : State) (e : Event) : (s.emit e).tex = s.tex := rfl
@[simp] theorem State.emit_bridgeEn (s : State) (e : Event) : (s.emit e).bridgeEn = s.bridgeEn := rfl
@[simp] theorem State.emit_thpStage (s : State) (e : Event) : (s.emit e).thpStage = s.thpStage := rfl
@[simp] theorem State.emit_thpRequest (s : State) (e : Event) : (s.emit e).thpRequest = s.thpRequest := rfl
@[simp] theorem State.emit_thpGrant (s : State) (e : Event) : (s.emit e).thpGrant = s.thpGrant := rfl
@[simp] theorem State.emit_cfEnabled (s : State) (e : Event) : (s.emit e).cfEnabled = s.cfEnabled := rfl
@[simp] theorem State.emit_cfBottom (s : State) (e : Event) : (s.emit e).cfBottom = s.cfBottom := rfl
@[simp] theorem State.emit_cfTop (s : State) (e : Event) : (s.emit e).cfTop = s.cfTop := rfl
@[simp] theorem State.emit_cfThreshold (s : State) (e : Event) : (s.emit e).cfThreshold = s.cfThreshold := rfl
@[simp] theorem State.emit_cfReadPtr (s : State) (e : Event) : (s.emit e).cfReadPtr = s.cfReadPtr := rfl
@[simp] theorem State.emit_cfEntryCount (s : State) (e : Event) : (s.emit e).cfEntryCount = s.cfEntryCount := rfl
@[simp] theorem State.emit_cfThreshStatus (s : State) (e : Event) : (s.emit e).cfThreshStatus = s.cfThreshStatus := rfl
@[simp] theorem State.emit_d2Busy (s : State) (e : Event) : (s.emit e).d2Busy = s.d2Busy := rfl
@[simp] theorem State.emit_d3Busy (s : State) (e : Event) : (s.emit e).d3Busy = s.d3Busy := rfl
@[simp] theorem State.emit_d3Batch (s : State) (e : Event) : (s.emit e).d3Batch = s.d3Batch := rfl
@[simp] theorem State.emit_swapReq (s : State) (e : Event) : (s.emit e).swapReq = s.swapReq := rfl
@[simp] theorem State.emit_swapPending (s : State) (e : Event) : (s.emit e).swapPending = s.swapPending := rfl
@[simp] theorem State.emit_diags (s : State) (e : Event) : (s.emit e).diags = s.diags := rfl
@[simp] theorem State.emit_events (s : State) (e : Event) : (s.emit e).events = s.events ++ [e] := rfl
@[simp] theorem State.emit_reply (s : State) (e : Event) : (s.emit e).reply = s.reply := rfl
@[simp] theorem State.emit_bus (s : State) (e : Event) : (s.emit e).bus = s.bus := rfl

/-! ## `State.setRb` -/

@[simp] theorem State.setRb_cfg (s : State) (o : Nat) (v : Byte) : (s.setRb o v).cfg = s.cfg := rfl
@[simp] theorem State.setRb_rb (s : State) (o : Nat) (v : Byte) : (s.setRb o v).rb = s.rb.write o v := rfl
@[simp] theorem State.setRb_conf (s : State) (o : Nat) (v : Byte) : (s.setRb o v).conf = s.conf := rfl
@[simp] theorem State.setRb_ap (s : State) (o : Nat) (v : Byte) : (s.setRb o v).ap = s.ap := rfl
@[simp] theorem State.setRb_vram (s : State) (o : Nat) (v : Byte) : (s.setRb o v).vram = s.vram := rfl
@[simp] theorem State.setRb_comp (s : State) (o : Nat) (v : Byte) : (s.setRb o v).comp = s.comp := rfl
@[simp] theorem State.setRb_tex (s : State) (o : Nat) (v : Byte) : (s.setRb o v).tex = s.tex := rfl
@[simp] theorem State.setRb_bridgeEn (s : State) (o : Nat) (v : Byte) : (s.setRb o v).bridgeEn = s.bridgeEn := rfl
@[simp] theorem State.setRb_thpStage (s : State) (o : Nat) (v : Byte) : (s.setRb o v).thpStage = s.thpStage := rfl
@[simp] theorem State.setRb_thpRequest (s : State) (o : Nat) (v : Byte) : (s.setRb o v).thpRequest = s.thpRequest := rfl
@[simp] theorem State.setRb_thpGrant (s : State) (o : Nat) (v : Byte) : (s.setRb o v).thpGrant = s.thpGrant := rfl
@[simp] theorem State.setRb_cfEnabled (s : State) (o : Nat) (v : Byte) : (s.setRb o v).cfEnabled = s.cfEnabled := rfl
@[simp] theorem State.setRb_cfBottom (s : State) (o : Nat) (v : Byte) : (s.setRb o v).cfBottom = s.cfBottom := rfl
@[simp] theorem State.setRb_cfTop (s : State) (o : Nat) (v : Byte) : (s.setRb o v).cfTop = s.cfTop := rfl
@[simp] theorem State.setRb_cfThreshold (s : State) (o : Nat) (v : Byte) : (s.setRb o v).cfThreshold = s.cfThreshold := rfl
@[simp] theorem State.setRb_cfReadPtr (s : State) (o : Nat) (v : Byte) : (s.setRb o v).cfReadPtr = s.cfReadPtr := rfl
@[simp] theorem State.setRb_cfEntryCount (s : State) (o : Nat) (v : Byte) : (s.setRb o v).cfEntryCount = s.cfEntryCount := rfl
@[simp] theorem State.setRb_cfThreshStatus (s : State) (o : Nat) (v : Byte) : (s.setRb o v).cfThreshStatus = s.cfThreshStatus := rfl
@[simp] theorem State.setRb_d2Busy (s : State) (o : Nat) (v : Byte) : (s.setRb o v).d2Busy = s.d2Busy := rfl
@[simp] theorem State.setRb_d3Busy (s : State) (o : Nat) (v : Byte) : (s.setRb o v).d3Busy = s.d3Busy := rfl
@[simp] theorem State.setRb_d3Batch (s : State) (o : Nat) (v : Byte) : (s.setRb o v).d3Batch = s.d3Batch := rfl
@[simp] theorem State.setRb_swapReq (s : State) (o : Nat) (v : Byte) : (s.setRb o v).swapReq = s.swapReq := rfl
@[simp] theorem State.setRb_swapPending (s : State) (o : Nat) (v : Byte) : (s.setRb o v).swapPending = s.swapPending := rfl
@[simp] theorem State.setRb_diags (s : State) (o : Nat) (v : Byte) : (s.setRb o v).diags = s.diags := rfl
@[simp] theorem State.setRb_events (s : State) (o : Nat) (v : Byte) : (s.setRb o v).events = s.events := rfl
@[simp] theorem State.setRb_reply (s : State) (o : Nat) (v : Byte) : (s.setRb o v).reply = s.reply := rfl
@[simp] theorem State.setRb_bus (s : State) (o : Nat) (v : Byte) : (s.setRb o v).bus = s.bus := rfl

/-! ## `State.setConf` -/

@[simp] theorem State.setConf_cfg (s : State) (o : Nat) (v : Byte) : (s.setConf o v).cfg = s.cfg := rfl
@[simp] theorem State.setConf_rb (s : State) (o : Nat) (v : Byte) : (s.setConf o v).rb = s.rb := rfl
@[simp] theorem State.setConf_conf (s : State) (o : Nat) (v : Byte) : (s.setConf o v).conf = s.conf.write o v := rfl
@[simp] theorem State.setConf_ap (s : State) (o : Nat) (v : Byte) : (s.setConf o v).ap = s.ap := rfl
@[simp] theorem State.setConf_vram (s : State) (o : Nat) (v : Byte) : (s.setConf o v).vram = s.vram := rfl
@[simp] theorem State.setConf_comp (s : State) (o : Nat) (v : Byte) : (s.setConf o v).comp = s.comp := rfl
@[simp] theorem State.setConf_tex (s : State) (o : Nat) (v : Byte) : (s.setConf o v).tex = s.tex := rfl
@[simp] theorem State.setConf_bridgeEn (s : State) (o : Nat) (v : Byte) : (s.setConf o v).bridgeEn = s.bridgeEn := rfl
@[simp] theorem State.setConf_thpStage (s : State) (o : Nat) (v : Byte) : (s.setConf o v).thpStage = s.thpStage := rfl
@[simp] theorem State.setConf_thpRequest (s : State) (o : Nat) (v : Byte) : (s.setConf o v).thpRequest = s.thpRequest := rfl
@[simp] theorem State.setConf_thpGrant (s : State) (o : Nat) (v : Byte) : (s.setConf o v).thpGrant = s.thpGrant := rfl
@[simp] theorem State.setConf_cfEnabled (s : State) (o : Nat) (v : Byte) : (s.setConf o v).cfEnabled = s.cfEnabled := rfl
@[simp] theorem State.setConf_cfBottom (s : State) (o : Nat) (v : Byte) : (s.setConf o v).cfBottom = s.cfBottom := rfl
@[simp] theorem State.setConf_cfTop (s : State) (o : Nat) (v : Byte) : (s.setConf o v).cfTop = s.cfTop := rfl
@[simp] theorem State.setConf_cfThreshold (s : State) (o : Nat) (v : Byte) : (s.setConf o v).cfThreshold = s.cfThreshold := rfl
@[simp] theorem State.setConf_cfReadPtr (s : State) (o : Nat) (v : Byte) : (s.setConf o v).cfReadPtr = s.cfReadPtr := rfl
@[simp] theorem State.setConf_cfEntryCount (s : State) (o : Nat) (v : Byte) : (s.setConf o v).cfEntryCount = s.cfEntryCount := rfl
@[simp] theorem State.setConf_cfThreshStatus (s : State) (o : Nat) (v : Byte) : (s.setConf o v).cfThreshStatus = s.cfThreshStatus := rfl
@[simp] theorem State.setConf_d2Busy (s : State) (o : Nat) (v : Byte) : (s.setConf o v).d2Busy = s.d2Busy := rfl
@[simp] theorem State.setConf_d3Busy (s : State) (o : Nat) (v : Byte) : (s.setConf o v).d3Busy = s.d3Busy := rfl
@[simp] theorem State.setConf_d3Batch (s : State) (o : Nat) (v : Byte) : (s.setConf o v).d3Batch = s.d3Batch := rfl
@[simp] theorem State.setConf_swapReq (s : State) (o : Nat) (v : Byte) : (s.setConf o v).swapReq = s.swapReq := rfl
@[simp] theorem State.setConf_swapPending (s : State) (o : Nat) (v : Byte) : (s.setConf o v).swapPending = s.swapPending := rfl
@[simp] theorem State.setConf_diags (s : State) (o : Nat) (v : Byte) : (s.setConf o v).diags = s.diags := rfl
@[simp] theorem State.setConf_events (s : State) (o : Nat) (v : Byte) : (s.setConf o v).events = s.events := rfl
@[simp] theorem State.setConf_reply (s : State) (o : Nat) (v : Byte) : (s.setConf o v).reply = s.reply := rfl
@[simp] theorem State.setConf_bus (s : State) (o : Nat) (v : Byte) : (s.setConf o v).bus = s.bus := rfl

/-! ## `State.setMapping` -/

@[simp] theorem State.setMapping_cfg (s : State) (a : Aperture) (m : Mapping) : (s.setMapping a m).cfg = s.cfg := rfl
@[simp] theorem State.setMapping_rb (s : State) (a : Aperture) (m : Mapping) : (s.setMapping a m).rb = s.rb := rfl
@[simp] theorem State.setMapping_conf (s : State) (a : Aperture) (m : Mapping) : (s.setMapping a m).conf = s.conf := rfl
@[simp] theorem State.setMapping_ap (s : State) (a : Aperture) (m : Mapping) : (s.setMapping a m).ap = s.ap.set a m := rfl
@[simp] theorem State.setMapping_vram (s : State) (a : Aperture) (m : Mapping) : (s.setMapping a m).vram = s.vram := rfl
@[simp] theorem State.setMapping_comp (s : State) (a : Aperture) (m : Mapping) : (s.setMapping a m).comp = s.comp := rfl
@[simp] theorem State.setMapping_tex (s : State) (a : Aperture) (m : Mapping) : (s.setMapping a m).tex = s.tex := rfl
@[simp] theorem State.setMapping_bridgeEn (s : State) (a : Aperture) (m : Mapping) : (s.setMapping a m).bridgeEn = s.bridgeEn := rfl
@[simp] theorem State.setMapping_thpStage (s : State) (a : Aperture) (m : Mapping) : (s.setMapping a m).thpStage = s.thpStage := rfl
@[simp] theorem State.setMapping_thpRequest (s : State) (a : Aperture) (m : Mapping) : (s.setMapping a m).thpRequest = s.thpRequest := rfl
@[simp] theorem State.setMapping_thpGrant (s : State) (a : Aperture) (m : Mapping) : (s.setMapping a m).thpGrant = s.thpGrant := rfl
@[simp] theorem State.setMapping_cfEnabled (s : State) (a : Aperture) (m : Mapping) : (s.setMapping a m).cfEnabled = s.cfEnabled := rfl
@[simp] theorem State.setMapping_cfBottom (s : State) (a : Aperture) (m : Mapping) : (s.setMapping a m).cfBottom = s.cfBottom := rfl
@[simp] theorem State.setMapping_cfTop (s : State) (a : Aperture) (m : Mapping) : (s.setMapping a m).cfTop = s.cfTop := rfl
@[simp] theorem State.setMapping_cfThreshold (s : State) (a : Aperture) (m : Mapping) : (s.setMapping a m).cfThreshold = s.cfThreshold := rfl
@[simp] theorem State.setMapping_cfReadPtr (s : State) (a : Aperture) (m : Mapping) : (s.setMapping a m).cfReadPtr = s.cfReadPtr := rfl
@[simp] theorem State.setMapping_cfEntryCount (s : State) (a : Aperture) (m : Mapping) : (s.setMapping a m).cfEntryCount = s.cfEntryCount := rfl
@[simp] theorem State.setMapping_cfThreshStatus (s : State) (a : Aperture) (m : Mapping) : (s.setMapping a m).cfThreshStatus = s.cfThreshStatus := rfl
@[simp] theorem State.setMapping_d2Busy (s : State) (a : Aperture) (m : Mapping) : (s.setMapping a m).d2Busy = s.d2Busy := rfl
@[simp] theorem State.setMapping_d3Busy (s : State) (a : Aperture) (m : Mapping) : (s.setMapping a m).d3Busy = s.d3Busy := rfl
@[simp] theorem State.setMapping_d3Batch (s : State) (a : Aperture) (m : Mapping) : (s.setMapping a m).d3Batch = s.d3Batch := rfl
@[simp] theorem State.setMapping_swapReq (s : State) (a : Aperture) (m : Mapping) : (s.setMapping a m).swapReq = s.swapReq := rfl
@[simp] theorem State.setMapping_swapPending (s : State) (a : Aperture) (m : Mapping) : (s.setMapping a m).swapPending = s.swapPending := rfl
@[simp] theorem State.setMapping_diags (s : State) (a : Aperture) (m : Mapping) : (s.setMapping a m).diags = s.diags := rfl
@[simp] theorem State.setMapping_events (s : State) (a : Aperture) (m : Mapping) : (s.setMapping a m).events = s.events := rfl
@[simp] theorem State.setMapping_reply (s : State) (a : Aperture) (m : Mapping) : (s.setMapping a m).reply = s.reply := rfl
@[simp] theorem State.setMapping_bus (s : State) (a : Aperture) (m : Mapping) : (s.setMapping a m).bus = s.bus := rfl

/-! ## `State.setVram` -/

@[simp] theorem State.setVram_cfg (s : State) (m : Mem) : (s.setVram m).cfg = s.cfg := rfl
@[simp] theorem State.setVram_rb (s : State) (m : Mem) : (s.setVram m).rb = s.rb := rfl
@[simp] theorem State.setVram_conf (s : State) (m : Mem) : (s.setVram m).conf = s.conf := rfl
@[simp] theorem State.setVram_ap (s : State) (m : Mem) : (s.setVram m).ap = s.ap := rfl
@[simp] theorem State.setVram_vram (s : State) (m : Mem) : (s.setVram m).vram = m := rfl
@[simp] theorem State.setVram_comp (s : State) (m : Mem) : (s.setVram m).comp = s.comp := rfl
@[simp] theorem State.setVram_tex (s : State) (m : Mem) : (s.setVram m).tex = s.tex := rfl
@[simp] theorem State.setVram_bridgeEn (s : State) (m : Mem) : (s.setVram m).bridgeEn = s.bridgeEn := rfl
@[simp] theorem State.setVram_thpStage (s : State) (m : Mem) : (s.setVram m).thpStage = s.thpStage := rfl
@[simp] theorem State.setVram_thpRequest (s : State) (m : Mem) : (s.setVram m).thpRequest = s.thpRequest := rfl
@[simp] theorem State.setVram_thpGrant (s : State) (m : Mem) : (s.setVram m).thpGrant = s.thpGrant := rfl
@[simp] theorem State.setVram_cfEnabled (s : State) (m : Mem) : (s.setVram m).cfEnabled = s.cfEnabled := rfl
@[simp] theorem State.setVram_cfBottom (s : State) (m : Mem) : (s.setVram m).cfBottom = s.cfBottom := rfl
@[simp] theorem State.setVram_cfTop (s : State) (m : Mem) : (s.setVram m).cfTop = s.cfTop := rfl
@[simp] theorem State.setVram_cfThreshold (s : State) (m : Mem) : (s.setVram m).cfThreshold = s.cfThreshold := rfl
@[simp] theorem State.setVram_cfReadPtr (s : State) (m : Mem) : (s.setVram m).cfReadPtr = s.cfReadPtr := rfl
@[simp] theorem State.setVram_cfEntryCount (s : State) (m : Mem) : (s.setVram m).cfEntryCount = s.cfEntryCount := rfl
@[simp] theorem State.setVram_cfThreshStatus (s : State) (m : Mem) : (s.setVram m).cfThreshStatus = s.cfThreshStatus := rfl
@[simp] theorem State.setVram_d2Busy (s : State) (m : Mem) : (s.setVram m).d2Busy = s.d2Busy := rfl
@[simp] theorem State.setVram_d3Busy (s : State) (m : Mem) : (s.setVram m).d3Busy = s.d3Busy := rfl
@[simp] theorem State.setVram_d3Batch (s : State) (m : Mem) : (s.setVram m).d3Batch = s.d3Batch := rfl
@[simp] theorem State.setVram_swapReq (s : State) (m : Mem) : (s.setVram m).swapReq = s.swapReq := rfl
@[simp] theorem State.setVram_swapPending (s : State) (m : Mem) : (s.setVram m).swapPending = s.swapPending := rfl
@[simp] theorem State.setVram_diags (s : State) (m : Mem) : (s.setVram m).diags = s.diags := rfl
@[simp] theorem State.setVram_events (s : State) (m : Mem) : (s.setVram m).events = s.events := rfl
@[simp] theorem State.setVram_reply (s : State) (m : Mem) : (s.setVram m).reply = s.reply := rfl
@[simp] theorem State.setVram_bus (s : State) (m : Mem) : (s.setVram m).bus = s.bus := rfl

/-! ## `State.setTex` -/

@[simp] theorem State.setTex_cfg (s : State) (m : Mem) : (s.setTex m).cfg = s.cfg := rfl
@[simp] theorem State.setTex_rb (s : State) (m : Mem) : (s.setTex m).rb = s.rb := rfl
@[simp] theorem State.setTex_conf (s : State) (m : Mem) : (s.setTex m).conf = s.conf := rfl
@[simp] theorem State.setTex_ap (s : State) (m : Mem) : (s.setTex m).ap = s.ap := rfl
@[simp] theorem State.setTex_vram (s : State) (m : Mem) : (s.setTex m).vram = s.vram := rfl
@[simp] theorem State.setTex_comp (s : State) (m : Mem) : (s.setTex m).comp = s.comp := rfl
@[simp] theorem State.setTex_tex (s : State) (m : Mem) : (s.setTex m).tex = m := rfl
@[simp] theorem State.setTex_bridgeEn (s : State) (m : Mem) : (s.setTex m).bridgeEn = s.bridgeEn := rfl
@[simp] theorem State.setTex_thpStage (s : State) (m : Mem) : (s.setTex m).thpStage = s.thpStage := rfl
@[simp] theorem State.setTex_thpRequest (s : State) (m : Mem) : (s.setTex m).thpRequest = s.thpRequest := rfl
@[simp] theorem State.setTex_thpGrant (s : State) (m : Mem) : (s.setTex m).thpGrant = s.thpGrant := rfl
@[simp] theorem State.setTex_cfEnabled (s : State) (m : Mem) : (s.setTex m).cfEnabled = s.cfEnabled := rfl
@[simp] theorem State.setTex_cfBottom (s : State) (m : Mem) : (s.setTex m).cfBottom = s.cfBottom := rfl
@[simp] theorem State.setTex_cfTop (s : State) (m : Mem) : (s.setTex m).cfTop = s.cfTop := rfl
@[simp] theorem State.setTex_cfThreshold (s : State) (m : Mem) : (s.setTex m).cfThreshold = s.cfThreshold := rfl
@[simp] theorem State.setTex_cfReadPtr (s : State) (m : Mem) : (s.setTex m).cfReadPtr = s.cfReadPtr := rfl
@[simp] theorem State.setTex_cfEntryCount (s : State) (m : Mem) : (s.setTex m).cfEntryCount = s.cfEntryCount := rfl
@[simp] theorem State.setTex_cfThreshStatus (s : State) (m : Mem) : (s.setTex m).cfThreshStatus = s.cfThreshStatus := rfl
@[simp] theorem State.setTex_d2Busy (s : State) (m : Mem) : (s.setTex m).d2Busy = s.d2Busy := rfl
@[simp] theorem State.setTex_d3Busy (s : State) (m : Mem) : (s.setTex m).d3Busy = s.d3Busy := rfl
@[simp] theorem State.setTex_d3Batch (s : State) (m : Mem) : (s.setTex m).d3Batch = s.d3Batch := rfl
@[simp] theorem State.setTex_swapReq (s : State) (m : Mem) : (s.setTex m).swapReq = s.swapReq := rfl
@[simp] theorem State.setTex_swapPending (s : State) (m : Mem) : (s.setTex m).swapPending = s.swapPending := rfl
@[simp] theorem State.setTex_diags (s : State) (m : Mem) : (s.setTex m).diags = s.diags := rfl
@[simp] theorem State.setTex_events (s : State) (m : Mem) : (s.setTex m).events = s.events := rfl
@[simp] theorem State.setTex_reply (s : State) (m : Mem) : (s.setTex m).reply = s.reply := rfl
@[simp] theorem State.setTex_bus (s : State) (m : Mem) : (s.setTex m).bus = s.bus := rfl

/-! ## `State.compSet` -/

@[simp] theorem State.compSet_cfg (s : State) (r : BitVec 8) (v : Word) : (s.compSet r v).cfg = s.cfg := rfl
@[simp] theorem State.compSet_rb (s : State) (r : BitVec 8) (v : Word) : (s.compSet r v).rb = s.rb := rfl
@[simp] theorem State.compSet_conf (s : State) (r : BitVec 8) (v : Word) : (s.compSet r v).conf = s.conf := rfl
@[simp] theorem State.compSet_ap (s : State) (r : BitVec 8) (v : Word) : (s.compSet r v).ap = s.ap := rfl
@[simp] theorem State.compSet_vram (s : State) (r : BitVec 8) (v : Word) : (s.compSet r v).vram = s.vram := rfl
@[simp] theorem State.compSet_tex (s : State) (r : BitVec 8) (v : Word) : (s.compSet r v).tex = s.tex := rfl
@[simp] theorem State.compSet_bridgeEn (s : State) (r : BitVec 8) (v : Word) : (s.compSet r v).bridgeEn = s.bridgeEn := rfl
@[simp] theorem State.compSet_thpStage (s : State) (r : BitVec 8) (v : Word) : (s.compSet r v).thpStage = s.thpStage := rfl
@[simp] theorem State.compSet_thpRequest (s : State) (r : BitVec 8) (v : Word) : (s.compSet r v).thpRequest = s.thpRequest := rfl
@[simp] theorem State.compSet_thpGrant (s : State) (r : BitVec 8) (v : Word) : (s.compSet r v).thpGrant = s.thpGrant := rfl
@[simp] theorem State.compSet_cfEnabled (s : State) (r : BitVec 8) (v : Word) : (s.compSet r v).cfEnabled = s.cfEnabled := rfl
@[simp] theorem State.compSet_cfBottom (s : State) (r : BitVec 8) (v : Word) : (s.compSet r v).cfBottom = s.cfBottom := rfl
@[simp] theorem State.compSet_cfTop (s : State) (r : BitVec 8) (v : Word) : (s.compSet r v).cfTop = s.cfTop := rfl
@[simp] theorem State.compSet_cfThreshold (s : State) (r : BitVec 8) (v : Word) : (s.compSet r v).cfThreshold = s.cfThreshold := rfl
@[simp] theorem State.compSet_cfReadPtr (s : State) (r : BitVec 8) (v : Word) : (s.compSet r v).cfReadPtr = s.cfReadPtr := rfl
@[simp] theorem State.compSet_cfEntryCount (s : State) (r : BitVec 8) (v : Word) : (s.compSet r v).cfEntryCount = s.cfEntryCount := rfl
@[simp] theorem State.compSet_cfThreshStatus (s : State) (r : BitVec 8) (v : Word) : (s.compSet r v).cfThreshStatus = s.cfThreshStatus := rfl
@[simp] theorem State.compSet_d2Busy (s : State) (r : BitVec 8) (v : Word) : (s.compSet r v).d2Busy = s.d2Busy := rfl
@[simp] theorem State.compSet_d3Busy (s : State) (r : BitVec 8) (v : Word) : (s.compSet r v).d3Busy = s.d3Busy := rfl
@[simp] theorem State.compSet_d3Batch (s : State) (r : BitVec 8) (v : Word) : (s.compSet r v).d3Batch = s.d3Batch := rfl
@[simp] theorem State.compSet_swapReq (s : State) (r : BitVec 8) (v : Word) : (s.compSet r v).swapReq = s.swapReq := rfl
@[simp] theorem State.compSet_swapPending (s : State) (r : BitVec 8) (v : Word) : (s.compSet r v).swapPending = s.swapPending := rfl
@[simp] theorem State.compSet_diags (s : State) (r : BitVec 8) (v : Word) : (s.compSet r v).diags = s.diags := rfl
@[simp] theorem State.compSet_events (s : State) (r : BitVec 8) (v : Word) : (s.compSet r v).events = s.events := rfl
@[simp] theorem State.compSet_reply (s : State) (r : BitVec 8) (v : Word) : (s.compSet r v).reply = s.reply := rfl
@[simp] theorem State.compSet_bus (s : State) (r : BitVec 8) (v : Word) : (s.compSet r v).bus = s.bus := rfl

/-! ## `State.setReply` -/

@[simp] theorem State.setReply_cfg (s : State) (r : Reply) : (s.setReply r).cfg = s.cfg := rfl
@[simp] theorem State.setReply_rb (s : State) (r : Reply) : (s.setReply r).rb = s.rb := rfl
@[simp] theorem State.setReply_conf (s : State) (r : Reply) : (s.setReply r).conf = s.conf := rfl
@[simp] theorem State.setReply_ap (s : State) (r : Reply) : (s.setReply r).ap = s.ap := rfl
@[simp] theorem State.setReply_vram (s : State) (r : Reply) : (s.setReply r).vram = s.vram := rfl
@[simp] theorem State.setReply_comp (s : State) (r : Reply) : (s.setReply r).comp = s.comp := rfl
@[simp] theorem State.setReply_tex (s : State) (r : Reply) : (s.setReply r).tex = s.tex := rfl
@[simp] theorem State.setReply_bridgeEn (s : State) (r : Reply) : (s.setReply r).bridgeEn = s.bridgeEn := rfl
@[simp] theorem State.setReply_thpStage (s : State) (r : Reply) : (s.setReply r).thpStage = s.thpStage := rfl
@[simp] theorem State.setReply_thpRequest (s : State) (r : Reply) : (s.setReply r).thpRequest = s.thpRequest := rfl
@[simp] theorem State.setReply_thpGrant (s : State) (r : Reply) : (s.setReply r).thpGrant = s.thpGrant := rfl
@[simp] theorem State.setReply_cfEnabled (s : State) (r : Reply) : (s.setReply r).cfEnabled = s.cfEnabled := rfl
@[simp] theorem State.setReply_cfBottom (s : State) (r : Reply) : (s.setReply r).cfBottom = s.cfBottom := rfl
@[simp] theorem State.setReply_cfTop (s : State) (r : Reply) : (s.setReply r).cfTop = s.cfTop := rfl
@[simp] theorem State.setReply_cfThreshold (s : State) (r : Reply) : (s.setReply r).cfThreshold = s.cfThreshold := rfl
@[simp] theorem State.setReply_cfReadPtr (s : State) (r : Reply) : (s.setReply r).cfReadPtr = s.cfReadPtr := rfl
@[simp] theorem State.setReply_cfEntryCount (s : State) (r : Reply) : (s.setReply r).cfEntryCount = s.cfEntryCount := rfl
@[simp] theorem State.setReply_cfThreshStatus (s : State) (r : Reply) : (s.setReply r).cfThreshStatus = s.cfThreshStatus := rfl
@[simp] theorem State.setReply_d2Busy (s : State) (r : Reply) : (s.setReply r).d2Busy = s.d2Busy := rfl
@[simp] theorem State.setReply_d3Busy (s : State) (r : Reply) : (s.setReply r).d3Busy = s.d3Busy := rfl
@[simp] theorem State.setReply_d3Batch (s : State) (r : Reply) : (s.setReply r).d3Batch = s.d3Batch := rfl
@[simp] theorem State.setReply_swapReq (s : State) (r : Reply) : (s.setReply r).swapReq = s.swapReq := rfl
@[simp] theorem State.setReply_swapPending (s : State) (r : Reply) : (s.setReply r).swapPending = s.swapPending := rfl
@[simp] theorem State.setReply_diags (s : State) (r : Reply) : (s.setReply r).diags = s.diags := rfl
@[simp] theorem State.setReply_events (s : State) (r : Reply) : (s.setReply r).events = s.events := rfl
@[simp] theorem State.setReply_reply (s : State) (r : Reply) : (s.setReply r).reply = some r := rfl
@[simp] theorem State.setReply_bus (s : State) (r : Reply) : (s.setReply r).bus = s.bus := rfl

/-! ## `State.clearStartBit` -/

@[simp] theorem State.clearStartBit_cfg (s : State) (f : RegField) (b : Nat) : (s.clearStartBit f b).cfg = s.cfg := rfl
@[simp] theorem State.clearStartBit_rb (s : State) (f : RegField) (b : Nat) : (s.clearStartBit f b).rb = s.rb.write f.last (clearStart b (s.rb.read f.last)) := rfl
@[simp] theorem State.clearStartBit_conf (s : State) (f : RegField) (b : Nat) : (s.clearStartBit f b).conf = s.conf := rfl
@[simp] theorem State.clearStartBit_ap (s : State) (f : RegField) (b : Nat) : (s.clearStartBit f b).ap = s.ap := rfl
@[simp] theorem State.clearStartBit_vram (s : State) (f : RegField) (b : Nat) : (s.clearStartBit f b).vram = s.vram := rfl
@[simp] theorem State.clearStartBit_comp (s : State) (f : RegField) (b : Nat) : (s.clearStartBit f b).comp = s.comp := rfl
@[simp] theorem State.clearStartBit_tex (s : State) (f : RegField) (b : Nat) : (s.clearStartBit f b).tex = s.tex := rfl
@[simp] theorem State.clearStartBit_bridgeEn (s : State) (f : RegField) (b : Nat) : (s.clearStartBit f b).bridgeEn = s.bridgeEn := rfl
@[simp] theorem State.clearStartBit_thpStage (s : State) (f : RegField) (b : Nat) : (s.clearStartBit f b).thpStage = s.thpStage := rfl
@[simp] theorem State.clearStartBit_thpRequest (s : State) (f : RegField) (b : Nat) : (s.clearStartBit f b).thpRequest = s.thpRequest := rfl
@[simp] theorem State.clearStartBit_thpGrant (s : State) (f : RegField) (b : Nat) : (s.clearStartBit f b).thpGrant = s.thpGrant := rfl
@[simp] theorem State.clearStartBit_cfEnabled (s : State) (f : RegField) (b : Nat) : (s.clearStartBit f b).cfEnabled = s.cfEnabled := rfl
@[simp] theorem State.clearStartBit_cfBottom (s : State) (f : RegField) (b : Nat) : (s.clearStartBit f b).cfBottom = s.cfBottom := rfl
@[simp] theorem State.clearStartBit_cfTop (s : State) (f : RegField) (b : Nat) : (s.clearStartBit f b).cfTop = s.cfTop := rfl
@[simp] theorem State.clearStartBit_cfThreshold (s : State) (f : RegField) (b : Nat) : (s.clearStartBit f b).cfThreshold = s.cfThreshold := rfl
@[simp] theorem State.clearStartBit_cfReadPtr (s : State) (f : RegField) (b : Nat) : (s.clearStartBit f b).cfReadPtr = s.cfReadPtr := rfl
@[simp] theorem State.clearStartBit_cfEntryCount (s : State) (f : RegField) (b : Nat) : (s.clearStartBit f b).cfEntryCount = s.cfEntryCount := rfl
@[simp] theorem State.clearStartBit_cfThreshStatus (s : State) (f : RegField) (b : Nat) : (s.clearStartBit f b).cfThreshStatus = s.cfThreshStatus := rfl
@[simp] theorem State.clearStartBit_d2Busy (s : State) (f : RegField) (b : Nat) : (s.clearStartBit f b).d2Busy = s.d2Busy := rfl
@[simp] theorem State.clearStartBit_d3Busy (s : State) (f : RegField) (b : Nat) : (s.clearStartBit f b).d3Busy = s.d3Busy := rfl
@[simp] theorem State.clearStartBit_d3Batch (s : State) (f : RegField) (b : Nat) : (s.clearStartBit f b).d3Batch = s.d3Batch := rfl
@[simp] theorem State.clearStartBit_swapReq (s : State) (f : RegField) (b : Nat) : (s.clearStartBit f b).swapReq = s.swapReq := rfl
@[simp] theorem State.clearStartBit_swapPending (s : State) (f : RegField) (b : Nat) : (s.clearStartBit f b).swapPending = s.swapPending := rfl
@[simp] theorem State.clearStartBit_diags (s : State) (f : RegField) (b : Nat) : (s.clearStartBit f b).diags = s.diags := rfl
@[simp] theorem State.clearStartBit_events (s : State) (f : RegField) (b : Nat) : (s.clearStartBit f b).events = s.events := rfl
@[simp] theorem State.clearStartBit_reply (s : State) (f : RegField) (b : Nat) : (s.clearStartBit f b).reply = s.reply := rfl
@[simp] theorem State.clearStartBit_bus (s : State) (f : RegField) (b : Nat) : (s.clearStartBit f b).bus = s.bus := rfl

/-! ## `State.setHandshake` -/

@[simp] theorem State.setHandshake_cfg (s : State) : s.setHandshake.cfg = s.cfg := rfl
@[simp] theorem State.setHandshake_rb (s : State) : s.setHandshake.rb = s.rb := rfl
@[simp] theorem State.setHandshake_conf (s : State) : s.setHandshake.conf = s.conf := rfl
@[simp] theorem State.setHandshake_ap (s : State) : s.setHandshake.ap = s.ap := rfl
@[simp] theorem State.setHandshake_vram (s : State) : s.setHandshake.vram = s.vram := rfl
@[simp] theorem State.setHandshake_comp (s : State) : s.setHandshake.comp = s.comp := rfl
@[simp] theorem State.setHandshake_tex (s : State) : s.setHandshake.tex = s.tex := rfl
@[simp] theorem State.setHandshake_bridgeEn (s : State) : s.setHandshake.bridgeEn = s.bridgeEn := rfl
@[simp] theorem State.setHandshake_thpStage (s : State) : s.setHandshake.thpStage = s.thpStage := rfl
@[simp] theorem State.setHandshake_thpRequest (s : State) : s.setHandshake.thpRequest = true := rfl
@[simp] theorem State.setHandshake_thpGrant (s : State) : s.setHandshake.thpGrant = true := rfl
@[simp] theorem State.setHandshake_cfEnabled (s : State) : s.setHandshake.cfEnabled = s.cfEnabled := rfl
@[simp] theorem State.setHandshake_cfBottom (s : State) : s.setHandshake.cfBottom = s.cfBottom := rfl
@[simp] theorem State.setHandshake_cfTop (s : State) : s.setHandshake.cfTop = s.cfTop := rfl
@[simp] theorem State.setHandshake_cfThreshold (s : State) : s.setHandshake.cfThreshold = s.cfThreshold := rfl
@[simp] theorem State.setHandshake_cfReadPtr (s : State) : s.setHandshake.cfReadPtr = s.cfReadPtr := rfl
@[simp] theorem State.setHandshake_cfEntryCount (s : State) : s.setHandshake.cfEntryCount = s.cfEntryCount := rfl
@[simp] theorem State.setHandshake_cfThreshStatus (s : State) : s.setHandshake.cfThreshStatus = s.cfThreshStatus := rfl
@[simp] theorem State.setHandshake_d2Busy (s : State) : s.setHandshake.d2Busy = s.d2Busy := rfl
@[simp] theorem State.setHandshake_d3Busy (s : State) : s.setHandshake.d3Busy = s.d3Busy := rfl
@[simp] theorem State.setHandshake_d3Batch (s : State) : s.setHandshake.d3Batch = s.d3Batch := rfl
@[simp] theorem State.setHandshake_swapReq (s : State) : s.setHandshake.swapReq = s.swapReq := rfl
@[simp] theorem State.setHandshake_swapPending (s : State) : s.setHandshake.swapPending = s.swapPending := rfl
@[simp] theorem State.setHandshake_diags (s : State) : s.setHandshake.diags = s.diags := rfl
@[simp] theorem State.setHandshake_events (s : State) : s.setHandshake.events = s.events := rfl
@[simp] theorem State.setHandshake_reply (s : State) : s.setHandshake.reply = s.reply := rfl
@[simp] theorem State.setHandshake_bus (s : State) : s.setHandshake.bus = s.bus := rfl

/-! ## `State.setStage` -/

@[simp] theorem State.setStage_cfg (s : State) (v : Word) : (s.setStage v).cfg = s.cfg := rfl
@[simp] theorem State.setStage_rb (s : State) (v : Word) : (s.setStage v).rb = s.rb := rfl
@[simp] theorem State.setStage_conf (s : State) (v : Word) : (s.setStage v).conf = s.conf := rfl
@[simp] theorem State.setStage_ap (s : State) (v : Word) : (s.setStage v).ap = s.ap := rfl
@[simp] theorem State.setStage_vram (s : State) (v : Word) : (s.setStage v).vram = s.vram := rfl
@[simp] theorem State.setStage_comp (s : State) (v : Word) : (s.setStage v).comp = s.comp := rfl
@[simp] theorem State.setStage_tex (s : State) (v : Word) : (s.setStage v).tex = s.tex := rfl
@[simp] theorem State.setStage_bridgeEn (s : State) (v : Word) : (s.setStage v).bridgeEn = s.bridgeEn := rfl
@[simp] theorem State.setStage_thpStage (s : State) (v : Word) : (s.setStage v).thpStage = v := rfl
@[simp] theorem State.setStage_thpRequest (s : State) (v : Word) : (s.setStage v).thpRequest = s.thpRequest := rfl
@[simp] theorem State.setStage_thpGrant (s : State) (v : Word) : (s.setStage v).thpGrant = s.thpGrant := rfl
@[simp] theorem State.setStage_cfEnabled (s : State) (v : Word) : (s.setStage v).cfEnabled = s.cfEnabled := rfl
@[simp] theorem State.setStage_cfBottom (s : State) (v : Word) : (s.setStage v).cfBottom = s.cfBottom := rfl
@[simp] theorem State.setStage_cfTop (s : State) (v : Word) : (s.setStage v).cfTop = s.cfTop := rfl
@[simp] theorem State.setStage_cfThreshold (s : State) (v : Word) : (s.setStage v).cfThreshold = s.cfThreshold := rfl
@[simp] theorem State.setStage_cfReadPtr (s : State) (v : Word) : (s.setStage v).cfReadPtr = s.cfReadPtr := rfl
@[simp] theorem State.setStage_cfEntryCount (s : State) (v : Word) : (s.setStage v).cfEntryCount = s.cfEntryCount := rfl
@[simp] theorem State.setStage_cfThreshStatus (s : State) (v : Word) : (s.setStage v).cfThreshStatus = s.cfThreshStatus := rfl
@[simp] theorem State.setStage_d2Busy (s : State) (v : Word) : (s.setStage v).d2Busy = s.d2Busy := rfl
@[simp] theorem State.setStage_d3Busy (s : State) (v : Word) : (s.setStage v).d3Busy = s.d3Busy := rfl
@[simp] theorem State.setStage_d3Batch (s : State) (v : Word) : (s.setStage v).d3Batch = s.d3Batch := rfl
@[simp] theorem State.setStage_swapReq (s : State) (v : Word) : (s.setStage v).swapReq = s.swapReq := rfl
@[simp] theorem State.setStage_swapPending (s : State) (v : Word) : (s.setStage v).swapPending = s.swapPending := rfl
@[simp] theorem State.setStage_diags (s : State) (v : Word) : (s.setStage v).diags = s.diags := rfl
@[simp] theorem State.setStage_events (s : State) (v : Word) : (s.setStage v).events = s.events := rfl
@[simp] theorem State.setStage_reply (s : State) (v : Word) : (s.setStage v).reply = s.reply := rfl
@[simp] theorem State.setStage_bus (s : State) (v : Word) : (s.setStage v).bus = s.bus := rfl

/-! ## `State.setD2Busy` -/

@[simp] theorem State.setD2Busy_cfg (s : State) (b : Bool) : (s.setD2Busy b).cfg = s.cfg := rfl
@[simp] theorem State.setD2Busy_rb (s : State) (b : Bool) : (s.setD2Busy b).rb = s.rb := rfl
@[simp] theorem State.setD2Busy_conf (s : State) (b : Bool) : (s.setD2Busy b).conf = s.conf := rfl
@[simp] theorem State.setD2Busy_ap (s : State) (b : Bool) : (s.setD2Busy b).ap = s.ap := rfl
@[simp] theorem State.setD2Busy_vram (s : State) (b : Bool) : (s.setD2Busy b).vram = s.vram := rfl
@[simp] theorem State.setD2Busy_comp (s : State) (b : Bool) : (s.setD2Busy b).comp = s.comp := rfl
@[simp] theorem State.setD2Busy_tex (s : State) (b : Bool) : (s.setD2Busy b).tex = s.tex := rfl
@[simp] theorem State.setD2Busy_bridgeEn (s : State) (b : Bool) : (s.setD2Busy b).bridgeEn = s.bridgeEn := rfl
@[simp] theorem State.setD2Busy_thpStage (s : State) (b : Bool) : (s.setD2Busy b).thpStage = s.thpStage := rfl
@[simp] theorem State.setD2Busy_thpRequest (s : State) (b : Bool) : (s.setD2Busy b).thpRequest = s.thpRequest := rfl
@[simp] theorem State.setD2Busy_thpGrant (s : State) (b : Bool) : (s.setD2Busy b).thpGrant = s.thpGrant := rfl
@[simp] theorem State.setD2Busy_cfEnabled (s : State) (b : Bool) : (s.setD2Busy b).cfEnabled = s.cfEnabled := rfl
@[simp] theorem State.setD2Busy_cfBottom (s : State) (b : Bool) : (s.setD2Busy b).cfBottom = s.cfBottom := rfl
@[simp] theorem State.setD2Busy_cfTop (s : State) (b : Bool) : (s.setD2Busy b).cfTop = s.cfTop := rfl
@[simp] theorem State.setD2Busy_cfThreshold (s : State) (b : Bool) : (s.setD2Busy b).cfThreshold = s.cfThreshold := rfl
@[simp] theorem State.setD2Busy_cfReadPtr (s : State) (b : Bool) : (s.setD2Busy b).cfReadPtr = s.cfReadPtr := rfl
@[simp] theorem State.setD2Busy_cfEntryCount (s : State) (b : Bool) : (s.setD2Busy b).cfEntryCount = s.cfEntryCount := rfl
@[simp] theorem State.setD2Busy_cfThreshStatus (s : State) (b : Bool) : (s.setD2Busy b).cfThreshStatus = s.cfThreshStatus := rfl
@[simp] theorem State.setD2Busy_d2Busy (s : State) (b : Bool) : (s.setD2Busy b).d2Busy = b := rfl
@[simp] theorem State.setD2Busy_d3Busy (s : State) (b : Bool) : (s.setD2Busy b).d3Busy = s.d3Busy := rfl
@[simp] theorem State.setD2Busy_d3Batch (s : State) (b : Bool) : (s.setD2Busy b).d3Batch = s.d3Batch := rfl
@[simp] theorem State.setD2Busy_swapReq (s : State) (b : Bool) : (s.setD2Busy b).swapReq = s.swapReq := rfl
@[simp] theorem State.setD2Busy_swapPending (s : State) (b : Bool) : (s.setD2Busy b).swapPending = s.swapPending := rfl
@[simp] theorem State.setD2Busy_diags (s : State) (b : Bool) : (s.setD2Busy b).diags = s.diags := rfl
@[simp] theorem State.setD2Busy_events (s : State) (b : Bool) : (s.setD2Busy b).events = s.events := rfl
@[simp] theorem State.setD2Busy_reply (s : State) (b : Bool) : (s.setD2Busy b).reply = s.reply := rfl
@[simp] theorem State.setD2Busy_bus (s : State) (b : Bool) : (s.setD2Busy b).bus = s.bus := rfl

/-! ## `State.setD3Busy` -/

@[simp] theorem State.setD3Busy_cfg (s : State) (b : Bool) : (s.setD3Busy b).cfg = s.cfg := rfl
@[simp] theorem State.setD3Busy_rb (s : State) (b : Bool) : (s.setD3Busy b).rb = s.rb := rfl
@[simp] theorem State.setD3Busy_conf (s : State) (b : Bool) : (s.setD3Busy b).conf = s.conf := rfl
@[simp] theorem State.setD3Busy_ap (s : State) (b : Bool) : (s.setD3Busy b).ap = s.ap := rfl
@[simp] theorem State.setD3Busy_vram (s : State) (b : Bool) : (s.setD3Busy b).vram = s.vram := rfl
@[simp] theorem State.setD3Busy_comp (s : State) (b : Bool) : (s.setD3Busy b).comp = s.comp := rfl
@[simp] theorem State.setD3Busy_tex (s : State) (b : Bool) : (s.setD3Busy b).tex = s.tex := rfl
@[simp] theorem State.setD3Busy_bridgeEn (s : State) (b : Bool) : (s.setD3Busy b).bridgeEn = s.bridgeEn := rfl
@[simp] theorem State.setD3Busy_thpStage (s : State) (b : Bool) : (s.setD3Busy b).thpStage = s.thpStage := rfl
@[simp] theorem State.setD3Busy_thpRequest (s : State) (b : Bool) : (s.setD3Busy b).thpRequest = s.thpRequest := rfl
@[simp] theorem State.setD3Busy_thpGrant (s : State) (b : Bool) : (s.setD3Busy b).thpGrant = s.thpGrant := rfl
@[simp] theorem State.setD3Busy_cfEnabled (s : State) (b : Bool) : (s.setD3Busy b).cfEnabled = s.cfEnabled := rfl
@[simp] theorem State.setD3Busy_cfBottom (s : State) (b : Bool) : (s.setD3Busy b).cfBottom = s.cfBottom := rfl
@[simp] theorem State.setD3Busy_cfTop (s : State) (b : Bool) : (s.setD3Busy b).cfTop = s.cfTop := rfl
@[simp] theorem State.setD3Busy_cfThreshold (s : State) (b : Bool) : (s.setD3Busy b).cfThreshold = s.cfThreshold := rfl
@[simp] theorem State.setD3Busy_cfReadPtr (s : State) (b : Bool) : (s.setD3Busy b).cfReadPtr = s.cfReadPtr := rfl
@[simp] theorem State.setD3Busy_cfEntryCount (s : State) (b : Bool) : (s.setD3Busy b).cfEntryCount = s.cfEntryCount := rfl
@[simp] theorem State.setD3Busy_cfThreshStatus (s : State) (b : Bool) : (s.setD3Busy b).cfThreshStatus = s.cfThreshStatus := rfl
@[simp] theorem State.setD3Busy_d2Busy (s : State) (b : Bool) : (s.setD3Busy b).d2Busy = s.d2Busy := rfl
@[simp] theorem State.setD3Busy_d3Busy (s : State) (b : Bool) : (s.setD3Busy b).d3Busy = b := rfl
@[simp] theorem State.setD3Busy_d3Batch (s : State) (b : Bool) : (s.setD3Busy b).d3Batch = s.d3Batch := rfl
@[simp] theorem State.setD3Busy_swapReq (s : State) (b : Bool) : (s.setD3Busy b).swapReq = s.swapReq := rfl
@[simp] theorem State.setD3Busy_swapPending (s : State) (b : Bool) : (s.setD3Busy b).swapPending = s.swapPending := rfl
@[simp] theorem State.setD3Busy_diags (s : State) (b : Bool) : (s.setD3Busy b).diags = s.diags := rfl
@[simp] theorem State.setD3Busy_events (s : State) (b : Bool) : (s.setD3Busy b).events = s.events := rfl
@[simp] theorem State.setD3Busy_reply (s : State) (b : Bool) : (s.setD3Busy b).reply = s.reply := rfl
@[simp] theorem State.setD3Busy_bus (s : State) (b : Bool) : (s.setD3Busy b).bus = s.bus := rfl

/-! ## `State.setD3Batch` -/

@[simp] theorem State.setD3Batch_cfg (s : State) (l : List (FieldId × Nat)) : (s.setD3Batch l).cfg = s.cfg := rfl
@[simp] theorem State.setD3Batch_rb (s : State) (l : List (FieldId × Nat)) : (s.setD3Batch l).rb = s.rb := rfl
@[simp] theorem State.setD3Batch_conf (s : State) (l : List (FieldId × Nat)) : (s.setD3Batch l).conf = s.conf := rfl
@[simp] theorem State.setD3Batch_ap (s : State) (l : List (FieldId × Nat)) : (s.setD3Batch l).ap = s.ap := rfl
@[simp] theorem State.setD3Batch_vram (s : State) (l : List (FieldId × Nat)) : (s.setD3Batch l).vram = s.vram := rfl
@[simp] theorem State.setD3Batch_comp (s : State) (l : List (FieldId × Nat)) : (s.setD3Batch l).comp = s.comp := rfl
@[simp] theorem State.setD3Batch_tex (s : State) (l : List (FieldId × Nat)) : (s.setD3Batch l).tex = s.tex := rfl
@[simp] theorem State.setD3Batch_bridgeEn (s : State) (l : List (FieldId × Nat)) : (s.setD3Batch l).bridgeEn = s.bridgeEn := rfl
@[simp] theorem State.setD3Batch_thpStage (s : State) (l : List (FieldId × Nat)) : (s.setD3Batch l).thpStage = s.thpStage := rfl
@[simp] theorem State.setD3Batch_thpRequest (s : State) (l : List (FieldId × Nat)) : (s.setD3Batch l).thpRequest = s.thpRequest := rfl
@[simp] theorem State.setD3Batch_thpGrant (s : State) (l : List (FieldId × Nat)) : (s.setD3Batch l).thpGrant = s.thpGrant := rfl
@[simp] theorem State.setD3Batch_cfEnabled (s : State) (l : List (FieldId × Nat)) : (s.setD3Batch l).cfEnabled = s.cfEnabled := rfl
@[simp] theorem State.setD3Batch_cfBottom (s : State) (l : List (FieldId × Nat)) : (s.setD3Batch l).cfBottom = s.cfBottom := rfl
@[simp] theorem State.setD3Batch_cfTop (s : State) (l : List (FieldId × Nat)) : (s.setD3Batch l).cfTop = s.cfTop := rfl
@[simp] theorem State.setD3Batch_cfThreshold (s : State) (l : List (FieldId × Nat)) : (s.setD3Batch l).cfThreshold = s.cfThreshold := rfl
@[simp] theorem State.setD3Batch_cfReadPtr (s : State) (l : List (FieldId × Nat)) : (s.setD3Batch l).cfReadPtr = s.cfReadPtr := rfl
@[simp] theorem State.setD3Batch_cfEntryCount (s : State) (l : List (FieldId × Nat)) : (s.setD3Batch l).cfEntryCount = s.cfEntryCount := rfl
@[simp] theorem State.setD3Batch_cfThreshStatus (s : State) (l : List (FieldId × Nat)) : (s.setD3Batch l).cfThreshStatus = s.cfThreshStatus := rfl
@[simp] theorem State.setD3Batch_d2Busy (s : State) (l : List (FieldId × Nat)) : (s.setD3Batch l).d2Busy = s.d2Busy := rfl
@[simp] theorem State.setD3Batch_d3Busy (s : State) (l : List (FieldId × Nat)) : (s.setD3Batch l).d3Busy = s.d3Busy := rfl
@[simp] theorem State.setD3Batch_d3Batch (s : State) (l : List (FieldId × Nat)) : (s.setD3Batch l).d3Batch = l := rfl
@[simp] theorem State.setD3Batch_swapReq (s : State) (l : List (FieldId × Nat)) : (s.setD3Batch l).swapReq = s.swapReq := rfl
@[simp] theorem State.setD3Batch_swapPending (s : State) (l : List (FieldId × Nat)) : (s.setD3Batch l).swapPending = s.swapPending := rfl
@[simp] theorem State.setD3Batch_diags (s : State) (l : List (FieldId × Nat)) : (s.setD3Batch l).diags = s.diags := rfl
@[simp] theorem State.setD3Batch_events (s : State) (l : List (FieldId × Nat)) : (s.setD3Batch l).events = s.events := rfl
@[simp] theorem State.setD3Batch_reply (s : State) (l : List (FieldId × Nat)) : (s.setD3Batch l).reply = s.reply := rfl
@[simp] theorem State.setD3Batch_bus (s : State) (l : List (FieldId × Nat)) : (s.setD3Batch l).bus = s.bus := rfl

/-! ## `State.dropEntry` -/

@[simp] theorem State.dropEntry_cfg (s : State) : s.dropEntry.cfg = s.cfg := rfl
@[simp] theorem State.dropEntry_rb (s : State) : s.dropEntry.rb = s.rb := rfl
@[simp] theorem State.dropEntry_conf (s : State) : s.dropEntry.conf = s.conf := rfl
@[simp] theorem State.dropEntry_ap (s : State) : s.dropEntry.ap = s.ap := rfl
@[simp] theorem State.dropEntry_vram (s : State) : s.dropEntry.vram = s.vram := rfl
@[simp] theorem State.dropEntry_comp (s : State) : s.dropEntry.comp = s.comp := rfl
@[simp] theorem State.dropEntry_tex (s : State) : s.dropEntry.tex = s.tex := rfl
@[simp] theorem State.dropEntry_bridgeEn (s : State) : s.dropEntry.bridgeEn = s.bridgeEn := rfl
@[simp] theorem State.dropEntry_thpStage (s : State) : s.dropEntry.thpStage = s.thpStage := rfl
@[simp] theorem State.dropEntry_thpRequest (s : State) : s.dropEntry.thpRequest = s.thpRequest := rfl
@[simp] theorem State.dropEntry_thpGrant (s : State) : s.dropEntry.thpGrant = s.thpGrant := rfl
@[simp] theorem State.dropEntry_cfEnabled (s : State) : s.dropEntry.cfEnabled = s.cfEnabled := rfl
@[simp] theorem State.dropEntry_cfBottom (s : State) : s.dropEntry.cfBottom = s.cfBottom := rfl
@[simp] theorem State.dropEntry_cfTop (s : State) : s.dropEntry.cfTop = s.cfTop := rfl
@[simp] theorem State.dropEntry_cfThreshold (s : State) : s.dropEntry.cfThreshold = s.cfThreshold := rfl
@[simp] theorem State.dropEntry_cfReadPtr (s : State) : s.dropEntry.cfReadPtr = s.cfReadPtr := rfl
@[simp] theorem State.dropEntry_cfEntryCount (s : State) : s.dropEntry.cfEntryCount = if s.cfEntryCount = 0 then 0 else s.cfEntryCount - 1 := rfl
@[simp] theorem State.dropEntry_cfThreshStatus (s : State) : s.dropEntry.cfThreshStatus = s.cfThreshStatus := rfl
@[simp] theorem State.dropEntry_d2Busy (s : State) : s.dropEntry.d2Busy = s.d2Busy := rfl
@[simp] theorem State.dropEntry_d3Busy (s : State) : s.dropEntry.d3Busy = s.d3Busy := rfl
@[simp] theorem State.dropEntry_d3Batch (s : State) : s.dropEntry.d3Batch = s.d3Batch := rfl
@[simp] theorem State.dropEntry_swapReq (s : State) : s.dropEntry.swapReq = s.swapReq := rfl
@[simp] theorem State.dropEntry_swapPending (s : State) : s.dropEntry.swapPending = s.swapPending := rfl
@[simp] theorem State.dropEntry_diags (s : State) : s.dropEntry.diags = s.diags := rfl
@[simp] theorem State.dropEntry_events (s : State) : s.dropEntry.events = s.events := rfl
@[simp] theorem State.dropEntry_reply (s : State) : s.dropEntry.reply = s.reply := rfl
@[simp] theorem State.dropEntry_bus (s : State) : s.dropEntry.bus = s.bus := rfl

/-! ## `State.advance` -/

@[simp] theorem State.advance_cfg (s : State) (n : Nat) : (s.advance n).cfg = s.cfg := rfl
@[simp] theorem State.advance_rb (s : State) (n : Nat) : (s.advance n).rb = s.rb := rfl
@[simp] theorem State.advance_conf (s : State) (n : Nat) : (s.advance n).conf = s.conf := rfl
@[simp] theorem State.advance_ap (s : State) (n : Nat) : (s.advance n).ap = s.ap := rfl
@[simp] theorem State.advance_vram (s : State) (n : Nat) : (s.advance n).vram = s.vram := rfl
@[simp] theorem State.advance_comp (s : State) (n : Nat) : (s.advance n).comp = s.comp := rfl
@[simp] theorem State.advance_tex (s : State) (n : Nat) : (s.advance n).tex = s.tex := rfl
@[simp] theorem State.advance_bridgeEn (s : State) (n : Nat) : (s.advance n).bridgeEn = s.bridgeEn := rfl
@[simp] theorem State.advance_thpStage (s : State) (n : Nat) : (s.advance n).thpStage = s.thpStage := rfl
@[simp] theorem State.advance_thpRequest (s : State) (n : Nat) : (s.advance n).thpRequest = s.thpRequest := rfl
@[simp] theorem State.advance_thpGrant (s : State) (n : Nat) : (s.advance n).thpGrant = s.thpGrant := rfl
@[simp] theorem State.advance_cfEnabled (s : State) (n : Nat) : (s.advance n).cfEnabled = s.cfEnabled := rfl
@[simp] theorem State.advance_cfBottom (s : State) (n : Nat) : (s.advance n).cfBottom = s.cfBottom := rfl
@[simp] theorem State.advance_cfTop (s : State) (n : Nat) : (s.advance n).cfTop = s.cfTop := rfl
@[simp] theorem State.advance_cfThreshold (s : State) (n : Nat) : (s.advance n).cfThreshold = s.cfThreshold := rfl
@[simp] theorem State.advance_cfReadPtr (s : State) (n : Nat) : (s.advance n).cfReadPtr = BitVec.ofNat 32 ((s.cfReadPtr.toNat + n) % ringSlots s) := rfl
@[simp] theorem State.advance_cfEntryCount (s : State) (n : Nat) : (s.advance n).cfEntryCount = s.cfEntryCount := rfl
@[simp] theorem State.advance_cfThreshStatus (s : State) (n : Nat) : (s.advance n).cfThreshStatus = s.cfThreshStatus := rfl
@[simp] theorem State.advance_d2Busy (s : State) (n : Nat) : (s.advance n).d2Busy = s.d2Busy := rfl
@[simp] theorem State.advance_d3Busy (s : State) (n : Nat) : (s.advance n).d3Busy = s.d3Busy := rfl
@[simp] theorem State.advance_d3Batch (s : State) (n : Nat) : (s.advance n).d3Batch = s.d3Batch := rfl
@[simp] theorem State.advance_swapReq (s : State) (n : Nat) : (s.advance n).swapReq = s.swapReq := rfl
@[simp] theorem State.advance_swapPending (s : State) (n : Nat) : (s.advance n).swapPending = s.swapPending := rfl
@[simp] theorem State.advance_diags (s : State) (n : Nat) : (s.advance n).diags = s.diags := rfl
@[simp] theorem State.advance_events (s : State) (n : Nat) : (s.advance n).events = s.events := rfl
@[simp] theorem State.advance_reply (s : State) (n : Nat) : (s.advance n).reply = s.reply := rfl
@[simp] theorem State.advance_bus (s : State) (n : Nat) : (s.advance n).bus = s.bus := rfl

/-! ## `State.pushRequest` -/

@[simp] theorem State.pushRequest_cfg (s : State) (r : Request) : (s.pushRequest r).cfg = s.cfg := rfl
@[simp] theorem State.pushRequest_rb (s : State) (r : Request) : (s.pushRequest r).rb = s.rb := rfl
@[simp] theorem State.pushRequest_conf (s : State) (r : Request) : (s.pushRequest r).conf = s.conf := rfl
@[simp] theorem State.pushRequest_ap (s : State) (r : Request) : (s.pushRequest r).ap = s.ap := rfl
@[simp] theorem State.pushRequest_vram (s : State) (r : Request) : (s.pushRequest r).vram = s.vram := rfl
@[simp] theorem State.pushRequest_comp (s : State) (r : Request) : (s.pushRequest r).comp = s.comp := rfl
@[simp] theorem State.pushRequest_tex (s : State) (r : Request) : (s.pushRequest r).tex = s.tex := rfl
@[simp] theorem State.pushRequest_bridgeEn (s : State) (r : Request) : (s.pushRequest r).bridgeEn = s.bridgeEn := rfl
@[simp] theorem State.pushRequest_thpStage (s : State) (r : Request) : (s.pushRequest r).thpStage = s.thpStage := rfl
@[simp] theorem State.pushRequest_thpRequest (s : State) (r : Request) : (s.pushRequest r).thpRequest = s.thpRequest := rfl
@[simp] theorem State.pushRequest_thpGrant (s : State) (r : Request) : (s.pushRequest r).thpGrant = s.thpGrant := rfl
@[simp] theorem State.pushRequest_cfEnabled (s : State) (r : Request) : (s.pushRequest r).cfEnabled = s.cfEnabled := rfl
@[simp] theorem State.pushRequest_cfBottom (s : State) (r : Request) : (s.pushRequest r).cfBottom = s.cfBottom := rfl
@[simp] theorem State.pushRequest_cfTop (s : State) (r : Request) : (s.pushRequest r).cfTop = s.cfTop := rfl
@[simp] theorem State.pushRequest_cfThreshold (s : State) (r : Request) : (s.pushRequest r).cfThreshold = s.cfThreshold := rfl
@[simp] theorem State.pushRequest_cfReadPtr (s : State) (r : Request) : (s.pushRequest r).cfReadPtr = s.cfReadPtr := rfl
@[simp] theorem State.pushRequest_cfEntryCount (s : State) (r : Request) : (s.pushRequest r).cfEntryCount = s.cfEntryCount := rfl
@[simp] theorem State.pushRequest_cfThreshStatus (s : State) (r : Request) : (s.pushRequest r).cfThreshStatus = s.cfThreshStatus := rfl
@[simp] theorem State.pushRequest_d2Busy (s : State) (r : Request) : (s.pushRequest r).d2Busy = s.d2Busy := rfl
@[simp] theorem State.pushRequest_d3Busy (s : State) (r : Request) : (s.pushRequest r).d3Busy = s.d3Busy := rfl
@[simp] theorem State.pushRequest_d3Batch (s : State) (r : Request) : (s.pushRequest r).d3Batch = s.d3Batch := rfl
@[simp] theorem State.pushRequest_swapReq (s : State) (r : Request) : (s.pushRequest r).swapReq = s.swapReq := rfl
@[simp] theorem State.pushRequest_swapPending (s : State) (r : Request) : (s.pushRequest r).swapPending = s.swapPending := rfl
@[simp] theorem State.pushRequest_diags (s : State) (r : Request) : (s.pushRequest r).diags = s.diags := rfl
@[simp] theorem State.pushRequest_events (s : State) (r : Request) : (s.pushRequest r).events = s.events := rfl
@[simp] theorem State.pushRequest_reply (s : State) (r : Request) : (s.pushRequest r).reply = s.reply := rfl
@[simp] theorem State.pushRequest_bus (s : State) (r : Request) : (s.pushRequest r).bus = r :: s.bus := rfl

/-! ## The threshold status bit's updates -/

/-- What the counted write does to the status bit, and all it does (spec/43_cmdfifo.md R235). -/
theorem State.raiseThresh_eq (s : State) :
    s.raiseThresh = { s with cfThreshStatus := if s.cfThreshold ≤ s.cfEntryCount.toNat then true else s.cfThreshStatus } := by
  unfold State.raiseThresh; split <;> rfl

/-- What the after-drain step does to the status bit, and all it does (spec/43_cmdfifo.md R245). -/
theorem State.lowerThresh_eq (s : State) :
    s.lowerThresh = { s with cfThreshStatus := if s.cfEntryCount.toNat < s.cfThreshold then false else s.cfThreshStatus } := by
  unfold State.lowerThresh; split <;> rfl

@[simp] theorem State.raiseThresh_cfg (s : State) : s.raiseThresh.cfg = s.cfg := by
  unfold State.raiseThresh; split <;> rfl
@[simp] theorem State.raiseThresh_rb (s : State) : s.raiseThresh.rb = s.rb := by
  unfold State.raiseThresh; split <;> rfl
@[simp] theorem State.raiseThresh_conf (s : State) : s.raiseThresh.conf = s.conf := by
  unfold State.raiseThresh; split <;> rfl
@[simp] theorem State.raiseThresh_ap (s : State) : s.raiseThresh.ap = s.ap := by
  unfold State.raiseThresh; split <;> rfl
@[simp] theorem State.raiseThresh_vram (s : State) : s.raiseThresh.vram = s.vram := by
  unfold State.raiseThresh; split <;> rfl
@[simp] theorem State.raiseThresh_comp (s : State) : s.raiseThresh.comp = s.comp := by
  unfold State.raiseThresh; split <;> rfl
@[simp] theorem State.raiseThresh_tex (s : State) : s.raiseThresh.tex = s.tex := by
  unfold State.raiseThresh; split <;> rfl
@[simp] theorem State.raiseThresh_bridgeEn (s : State) : s.raiseThresh.bridgeEn = s.bridgeEn := by
  unfold State.raiseThresh; split <;> rfl
@[simp] theorem State.raiseThresh_thpStage (s : State) : s.raiseThresh.thpStage = s.thpStage := by
  unfold State.raiseThresh; split <;> rfl
@[simp] theorem State.raiseThresh_thpRequest (s : State) : s.raiseThresh.thpRequest = s.thpRequest := by
  unfold State.raiseThresh; split <;> rfl
@[simp] theorem State.raiseThresh_thpGrant (s : State) : s.raiseThresh.thpGrant = s.thpGrant := by
  unfold State.raiseThresh; split <;> rfl
@[simp] theorem State.raiseThresh_cfEnabled (s : State) : s.raiseThresh.cfEnabled = s.cfEnabled := by
  unfold State.raiseThresh; split <;> rfl
@[simp] theorem State.raiseThresh_cfBottom (s : State) : s.raiseThresh.cfBottom = s.cfBottom := by
  unfold State.raiseThresh; split <;> rfl
@[simp] theorem State.raiseThresh_cfTop (s : State) : s.raiseThresh.cfTop = s.cfTop := by
  unfold State.raiseThresh; split <;> rfl
@[simp] theorem State.raiseThresh_cfThreshold (s : State) : s.raiseThresh.cfThreshold = s.cfThreshold := by
  unfold State.raiseThresh; split <;> rfl
@[simp] theorem State.raiseThresh_cfReadPtr (s : State) : s.raiseThresh.cfReadPtr = s.cfReadPtr := by
  unfold State.raiseThresh; split <;> rfl
@[simp] theorem State.raiseThresh_cfEntryCount (s : State) : s.raiseThresh.cfEntryCount = s.cfEntryCount := by
  unfold State.raiseThresh; split <;> rfl
@[simp] theorem State.raiseThresh_d2Busy (s : State) : s.raiseThresh.d2Busy = s.d2Busy := by
  unfold State.raiseThresh; split <;> rfl
@[simp] theorem State.raiseThresh_d3Busy (s : State) : s.raiseThresh.d3Busy = s.d3Busy := by
  unfold State.raiseThresh; split <;> rfl
@[simp] theorem State.raiseThresh_d3Batch (s : State) : s.raiseThresh.d3Batch = s.d3Batch := by
  unfold State.raiseThresh; split <;> rfl
@[simp] theorem State.raiseThresh_swapReq (s : State) : s.raiseThresh.swapReq = s.swapReq := by
  unfold State.raiseThresh; split <;> rfl
@[simp] theorem State.raiseThresh_swapPending (s : State) : s.raiseThresh.swapPending = s.swapPending := by
  unfold State.raiseThresh; split <;> rfl
@[simp] theorem State.raiseThresh_diags (s : State) : s.raiseThresh.diags = s.diags := by
  unfold State.raiseThresh; split <;> rfl
@[simp] theorem State.raiseThresh_events (s : State) : s.raiseThresh.events = s.events := by
  unfold State.raiseThresh; split <;> rfl
@[simp] theorem State.raiseThresh_reply (s : State) : s.raiseThresh.reply = s.reply := by
  unfold State.raiseThresh; split <;> rfl
@[simp] theorem State.raiseThresh_bus (s : State) : s.raiseThresh.bus = s.bus := by
  unfold State.raiseThresh; split <;> rfl

@[simp] theorem State.lowerThresh_cfg (s : State) : s.lowerThresh.cfg = s.cfg := by
  unfold State.lowerThresh; split <;> rfl
@[simp] theorem State.lowerThresh_rb (s : State) : s.lowerThresh.rb = s.rb := by
  unfold State.lowerThresh; split <;> rfl
@[simp] theorem State.lowerThresh_conf (s : State) : s.lowerThresh.conf = s.conf := by
  unfold State.lowerThresh; split <;> rfl
@[simp] theorem State.lowerThresh_ap (s : State) : s.lowerThresh.ap = s.ap := by
  unfold State.lowerThresh; split <;> rfl
@[simp] theorem State.lowerThresh_vram (s : State) : s.lowerThresh.vram = s.vram := by
  unfold State.lowerThresh; split <;> rfl
@[simp] theorem State.lowerThresh_comp (s : State) : s.lowerThresh.comp = s.comp := by
  unfold State.lowerThresh; split <;> rfl
@[simp] theorem State.lowerThresh_tex (s : State) : s.lowerThresh.tex = s.tex := by
  unfold State.lowerThresh; split <;> rfl
@[simp] theorem State.lowerThresh_bridgeEn (s : State) : s.lowerThresh.bridgeEn = s.bridgeEn := by
  unfold State.lowerThresh; split <;> rfl
@[simp] theorem State.lowerThresh_thpStage (s : State) : s.lowerThresh.thpStage = s.thpStage := by
  unfold State.lowerThresh; split <;> rfl
@[simp] theorem State.lowerThresh_thpRequest (s : State) : s.lowerThresh.thpRequest = s.thpRequest := by
  unfold State.lowerThresh; split <;> rfl
@[simp] theorem State.lowerThresh_thpGrant (s : State) : s.lowerThresh.thpGrant = s.thpGrant := by
  unfold State.lowerThresh; split <;> rfl
@[simp] theorem State.lowerThresh_cfEnabled (s : State) : s.lowerThresh.cfEnabled = s.cfEnabled := by
  unfold State.lowerThresh; split <;> rfl
@[simp] theorem State.lowerThresh_cfBottom (s : State) : s.lowerThresh.cfBottom = s.cfBottom := by
  unfold State.lowerThresh; split <;> rfl
@[simp] theorem State.lowerThresh_cfTop (s : State) : s.lowerThresh.cfTop = s.cfTop := by
  unfold State.lowerThresh; split <;> rfl
@[simp] theorem State.lowerThresh_cfThreshold (s : State) : s.lowerThresh.cfThreshold = s.cfThreshold := by
  unfold State.lowerThresh; split <;> rfl
@[simp] theorem State.lowerThresh_cfReadPtr (s : State) : s.lowerThresh.cfReadPtr = s.cfReadPtr := by
  unfold State.lowerThresh; split <;> rfl
@[simp] theorem State.lowerThresh_cfEntryCount (s : State) : s.lowerThresh.cfEntryCount = s.cfEntryCount := by
  unfold State.lowerThresh; split <;> rfl
@[simp] theorem State.lowerThresh_d2Busy (s : State) : s.lowerThresh.d2Busy = s.d2Busy := by
  unfold State.lowerThresh; split <;> rfl
@[simp] theorem State.lowerThresh_d3Busy (s : State) : s.lowerThresh.d3Busy = s.d3Busy := by
  unfold State.lowerThresh; split <;> rfl
@[simp] theorem State.lowerThresh_d3Batch (s : State) : s.lowerThresh.d3Batch = s.d3Batch := by
  unfold State.lowerThresh; split <;> rfl
@[simp] theorem State.lowerThresh_swapReq (s : State) : s.lowerThresh.swapReq = s.swapReq := by
  unfold State.lowerThresh; split <;> rfl
@[simp] theorem State.lowerThresh_swapPending (s : State) : s.lowerThresh.swapPending = s.swapPending := by
  unfold State.lowerThresh; split <;> rfl
@[simp] theorem State.lowerThresh_diags (s : State) : s.lowerThresh.diags = s.diags := by
  unfold State.lowerThresh; split <;> rfl
@[simp] theorem State.lowerThresh_events (s : State) : s.lowerThresh.events = s.events := by
  unfold State.lowerThresh; split <;> rfl
@[simp] theorem State.lowerThresh_reply (s : State) : s.lowerThresh.reply = s.reply := by
  unfold State.lowerThresh; split <;> rfl
@[simp] theorem State.lowerThresh_bus (s : State) : s.lowerThresh.bus = s.bus := by
  unfold State.lowerThresh; split <;> rfl

@[simp] theorem State.raiseThresh_cfThreshStatus (s : State) :
    s.raiseThresh.cfThreshStatus = (decide (s.cfThreshold ≤ s.cfEntryCount.toNat) || s.cfThreshStatus) := by
  unfold State.raiseThresh; split <;> simp [*]

@[simp] theorem State.lowerThresh_cfThreshStatus (s : State) :
    s.lowerThresh.cfThreshStatus = (!decide (s.cfEntryCount.toNat < s.cfThreshold) && s.cfThreshStatus) := by
  unfold State.lowerThresh; split <;> simp [*]

/-! ## `compRegWrite` -/

@[simp] theorem compRegWrite_cfg (r : BitVec 8) (v : Word) (s : State) : (compRegWrite r v s).cfg = s.cfg := rfl
@[simp] theorem compRegWrite_rb (r : BitVec 8) (v : Word) (s : State) : (compRegWrite r v s).rb = s.rb := rfl
@[simp] theorem compRegWrite_conf (r : BitVec 8) (v : Word) (s : State) : (compRegWrite r v s).conf = s.conf := rfl
@[simp] theorem compRegWrite_ap (r : BitVec 8) (v : Word) (s : State) : (compRegWrite r v s).ap = s.ap := rfl
@[simp] theorem compRegWrite_vram (r : BitVec 8) (v : Word) (s : State) : (compRegWrite r v s).vram = s.vram := rfl
@[simp] theorem compRegWrite_tex (r : BitVec 8) (v : Word) (s : State) : (compRegWrite r v s).tex = s.tex := rfl
@[simp] theorem compRegWrite_bridgeEn (r : BitVec 8) (v : Word) (s : State) : (compRegWrite r v s).bridgeEn = s.bridgeEn := rfl
@[simp] theorem compRegWrite_thpStage (r : BitVec 8) (v : Word) (s : State) : (compRegWrite r v s).thpStage = s.thpStage := rfl
@[simp] theorem compRegWrite_thpRequest (r : BitVec 8) (v : Word) (s : State) : (compRegWrite r v s).thpRequest = s.thpRequest := rfl
@[simp] theorem compRegWrite_thpGrant (r : BitVec 8) (v : Word) (s : State) : (compRegWrite r v s).thpGrant = s.thpGrant := rfl
@[simp] theorem compRegWrite_cfEnabled (r : BitVec 8) (v : Word) (s : State) : (compRegWrite r v s).cfEnabled = s.cfEnabled := rfl
@[simp] theorem compRegWrite_cfBottom (r : BitVec 8) (v : Word) (s : State) : (compRegWrite r v s).cfBottom = s.cfBottom := rfl
@[simp] theorem compRegWrite_cfTop (r : BitVec 8) (v : Word) (s : State) : (compRegWrite r v s).cfTop = s.cfTop := rfl
@[simp] theorem compRegWrite_cfThreshold (r : BitVec 8) (v : Word) (s : State) : (compRegWrite r v s).cfThreshold = s.cfThreshold := rfl
@[simp] theorem compRegWrite_cfReadPtr (r : BitVec 8) (v : Word) (s : State) : (compRegWrite r v s).cfReadPtr = s.cfReadPtr := rfl
@[simp] theorem compRegWrite_cfEntryCount (r : BitVec 8) (v : Word) (s : State) : (compRegWrite r v s).cfEntryCount = s.cfEntryCount := rfl
@[simp] theorem compRegWrite_cfThreshStatus (r : BitVec 8) (v : Word) (s : State) : (compRegWrite r v s).cfThreshStatus = s.cfThreshStatus := rfl
@[simp] theorem compRegWrite_d2Busy (r : BitVec 8) (v : Word) (s : State) : (compRegWrite r v s).d2Busy = s.d2Busy := rfl
@[simp] theorem compRegWrite_d3Busy (r : BitVec 8) (v : Word) (s : State) : (compRegWrite r v s).d3Busy = s.d3Busy := rfl
@[simp] theorem compRegWrite_d3Batch (r : BitVec 8) (v : Word) (s : State) : (compRegWrite r v s).d3Batch = s.d3Batch := rfl
@[simp] theorem compRegWrite_swapReq (r : BitVec 8) (v : Word) (s : State) : (compRegWrite r v s).swapReq = s.swapReq := rfl
@[simp] theorem compRegWrite_swapPending (r : BitVec 8) (v : Word) (s : State) : (compRegWrite r v s).swapPending = s.swapPending := rfl
@[simp] theorem compRegWrite_diags (r : BitVec 8) (v : Word) (s : State) : (compRegWrite r v s).diags = s.diags := rfl
@[simp] theorem compRegWrite_events (r : BitVec 8) (v : Word) (s : State) : (compRegWrite r v s).events = s.events ++ [.companionRegWritten r v] := rfl
@[simp] theorem compRegWrite_reply (r : BitVec 8) (v : Word) (s : State) : (compRegWrite r v s).reply = s.reply := rfl
@[simp] theorem compRegWrite_bus (r : BitVec 8) (v : Word) (s : State) : (compRegWrite r v s).bus = s.bus := rfl

/-! ## The companion register file -/

theorem State.compGet_compSet (s : State) (r q : BitVec 8) (v : Word) :
    (s.compSet r v).compGet q = if q = r then v else s.compGet q := by
  unfold State.compGet State.compSet
  simp only [Vector.getElem_set]
  by_cases h : q = r
  · subst h; simp
  · have : r.toNat ≠ q.toNat := fun e => h (BitVec.eq_of_toNat_eq e.symm)
    simp [h, this]

@[simp] theorem State.compSet_compGet_same (s : State) (r : BitVec 8) (v : Word) : (s.compSet r v).compGet r = v := by
  simp [State.compGet_compSet]

theorem compRegWrite_compGet (r q : BitVec 8) (v : Word) (s : State) :
    (compRegWrite r v s).compGet q = if q = r then v else s.compGet q :=
  State.compGet_compSet s r q v

/-- Two states with the same companion file have the same registers. -/
theorem State.compGet_congr {s t : State} (h : s.comp = t.comp) (r : BitVec 8) : s.compGet r = t.compGet r := by
  simp [State.compGet, h]

/-! ## One value per aperture -/

@[simp] theorem PerAp.get_set_same {α : Type} (p : PerAp α) (a : Aperture) (v : α) : (p.set a v).get a = v := by
  cases a <;> rfl

theorem PerAp.get_set {α : Type} (p : PerAp α) (a b : Aperture) (v : α) : (p.set a v).get b = if b = a then v else p.get b := by
  cases a <;> cases b <;> rfl

theorem PerAp.ext_get {α : Type} {p q : PerAp α} (h : ∀ a, p.get a = q.get a) : p = q := by
  obtain ⟨a, b, c, d⟩ := p
  obtain ⟨a', b', c', d'⟩ := q
  have h1 := h .linear
  have h2 := h .mmio
  have h3 := h .companion
  have h4 := h .rom
  simp only [PerAp.get] at h1 h2 h3 h4
  simp [h1, h2, h3, h4]

end Sys2Proof.Machine
end

