-- ==== Sys2Proof/Laws/Ops.lean ====
section
/-! SUPPORT. What the shared shapes of an operation can answer: outcomes, and wide accesses as byte accesses. -/

namespace Sys2Proof.Machine

/-! ## Outcomes -/

@[simp] theorem finish_ok (s : State) : finish (.ok s) = .next s := rfl
@[simp] theorem finish_error (r : Refusal) : finish (.error r) = .refused r := rfl
@[simp] theorem finishRead_ok (n : Width) (bs : List Byte) (s : State) :
    finishRead n (.ok (bs, s)) = .next (s.setReply (replyOf n bs)) := rfl
@[simp] theorem finishRead_error (n : Width) (r : Refusal) : finishRead n (.error r) = .refused r := rfl
@[simp] theorem finishWord_ok (v : Word) (s : State) : finishWord (.ok (v, s)) = .next (s.setReply (.r32 v)) := rfl
@[simp] theorem finishWord_error (r : Refusal) : finishWord (.error r) = .refused r := rfl

/-- A next state of a write is the one it computed. -/
theorem finish_next {x : Except Refusal State} {t : State} (h : finish x = .next t) : x = .ok t := by
  cases x with
  | error r => cases h
  | ok s => cases h; rfl

/-- A next state of a read is the one it computed, with the value returned. -/
theorem finishRead_next {n : Width} {x : Except Refusal (List Byte × State)} {t : State} (h : finishRead n x = .next t) :
    ∃ bs u, x = .ok (bs, u) ∧ t = u.setReply (replyOf n bs) := by
  cases x with
  | error r => cases h
  | ok p => obtain ⟨bs, u⟩ := p; cases h; exact ⟨bs, u, rfl, rfl⟩

/-- A next state of a word read is the one it computed, with the word returned. -/
theorem finishWord_next {x : Except Refusal (Word × State)} {t : State} (h : finishWord x = .next t) :
    ∃ v u, x = .ok (v, u) ∧ t = u.setReply (.r32 v) := by
  cases x with
  | error r => cases h
  | ok p => obtain ⟨v, u⟩ := p; cases h; exact ⟨v, u, rfl, rfl⟩

/-! ## Byte accesses in order -/

/-- A wide read whose byte reads change no state collects their bytes. -/
theorem readBytes_pure {f : Nat → State → Except Refusal (Byte × State)} {g : Nat → Byte} {s : State} :
    ∀ (n a : Nat), (∀ k, k < n → f (a + k) s = .ok (g (a + k), s)) →
      readBytes f n a s = .ok ((List.range n).map (fun k => g (a + k)), s)
  | 0, _, _ => rfl
  | n + 1, a, h => by
    have h0 := h 0 (by omega)
    rw [Nat.add_zero] at h0
    have ih := readBytes_pure (f := f) (g := g) (s := s) n (a + 1) (fun k hk => by
      have := h (k + 1) (by omega)
      rwa [show a + (k + 1) = a + 1 + k by omega] at this)
    rw [readBytes, h0]
    dsimp only
    rw [ih]
    simp only [List.range_succ_eq_map, List.map_cons, List.map_map, Nat.add_zero]
    congr 3
    refine List.map_congr_left (fun k _ => ?_)
    simp only [Function.comp_apply]
    congr 1
    omega

/-- What holds across every byte read holds across a wide read. -/
theorem readBytes_rel {f : Nat → State → Except Refusal (Byte × State)} {R : State → State → Prop} (hrefl : ∀ s, R s s)
    (htrans : ∀ s t u, R s t → R t u → R s u) (hf : ∀ a s b t, f a s = .ok (b, t) → R s t) :
    ∀ (n a : Nat) (s t : State) (bs : List Byte), readBytes f n a s = .ok (bs, t) → R s t
  | 0, _, s, t, _, h => by cases h; exact hrefl s
  | n + 1, a, s, t, bs, h => by
    rw [readBytes] at h
    cases e : f a s with
    | error r => rw [e] at h; cases h
    | ok p =>
      obtain ⟨b, s1⟩ := p
      rw [e] at h
      dsimp only at h
      cases e' : readBytes f n (a + 1) s1 with
      | error r => rw [e'] at h; cases h
      | ok q =>
        obtain ⟨bs', s2⟩ := q
        rw [e'] at h
        cases h
        exact htrans _ _ _ (hf _ _ _ _ e) (readBytes_rel hrefl htrans hf n (a + 1) s1 _ _ e')

/-- What holds across every byte write of the addresses of a wide write holds across it. -/
theorem writeBytes_rel {f : Nat → Byte → State → Except Refusal State} {R : State → State → Prop} (hrefl : ∀ s, R s s)
    (htrans : ∀ s t u, R s t → R t u → R s u) :
    ∀ (bs : List Byte) (a : Nat) (s t : State),
      (∀ b v s t, a ≤ b → b < a + bs.length → f b v s = .ok t → R s t) → writeBytes f bs a s = .ok t → R s t
  | [], _, s, t, _, h => by cases h; exact hrefl s
  | v :: bs, a, s, t, hf, h => by
    rw [writeBytes] at h
    cases e : f a v s with
    | error r => rw [e] at h; cases h
    | ok s1 =>
      rw [e] at h
      exact htrans _ _ _ (hf a v s s1 (by omega) (by simp) e)
        (writeBytes_rel hrefl htrans bs (a + 1) s1 t
          (fun b w s t h1 h2 => hf b w s t (by omega) (by simp only [List.length_cons]; omega)) h)

/-- A wide write is its first byte write and then the rest. -/
theorem writeBytes_cons (f : Nat → Byte → State → Except Refusal State) (v : Byte) (bs : List Byte) (a : Nat) (s : State) :
    writeBytes f (v :: bs) a s = (match f a v s with
      | .error r => .error r
      | .ok t => writeBytes f bs (a + 1) t) := rfl

/-- Byte writes that are never refused are never refused together. -/
theorem writeBytes_ok {f : Nat → Byte → State → Except Refusal State} {g : Nat → Byte → State → State}
    (hf : ∀ a v s, f a v s = .ok (g a v s)) : ∀ (bs : List Byte) (a : Nat) (s : State), ∃ t, writeBytes f bs a s = .ok t
  | [], _, s => ⟨s, rfl⟩
  | v :: bs, a, s => by
    rw [writeBytes_cons, hf]
    exact writeBytes_ok hf bs (a + 1) _

end Sys2Proof.Machine
end

