-- ==== Sys2Proof/Laws/Config.lean ====
section
/-! SUPPORT. What a well-formed configuration says of the lookups: the field an offset names, the BAR group a configuration register
names, and the parts of `Cfg.wf` one by one. -/

namespace Sys2Proof.Machine

/-! ## The parts of `Cfg.wf` -/

theorem wf_parts {c : Cfg} (h : c.wf = true) :
    c.banksOk = true ∧ c.fieldsOk = true ∧ c.kindsOk = true ∧ c.bitsOk = true ∧ c.memoryOk = true ∧ c.rangesOk = true
      ∧ c.confOk = true ∧ c.namedOk = true ∧ c.jobsOk = true := by
  simpa [Cfg.wf, Bool.and_eq_true, and_assoc] using h

/-- R5 (2): a field lies in the window and has 1, 2, 3, 4 or 8 bytes. -/
theorem wf_field {c : Cfg} (h : c.wf = true) {f : RegField} (hf : f ∈ c.fields) :
    f.base + f.width ≤ winSize ∧ 0 < f.width ∧ f.width ≤ 8 := by
  have h2 := (wf_parts h).2.1
  simp only [Cfg.fieldsOk, Bool.and_eq_true, List.all_eq_true, decide_eq_true_eq] at h2
  have h3 := h2.1 f hf
  have h4 : f.width ∈ [1, 2, 3, 4, 8] := by simpa using h3.2
  simp only [List.mem_cons, List.not_mem_nil, or_false] at h4
  refine ⟨h3.1, ?_, ?_⟩ <;> omega

/-- R5 (2): two fields that share an offset are one field. -/
theorem wf_field_unique {c : Cfg} (h : c.wf = true) {f g : RegField} (hf : f ∈ c.fields) (hg : g ∈ c.fields) {o : Nat}
    (h1 : f.base ≤ o ∧ o < f.base + f.width) (h2 : g.base ≤ o ∧ o < g.base + g.width) : f = g := by
  have hp := (wf_parts h).2.1
  simp only [Cfg.fieldsOk, Bool.and_eq_true, decide_eq_true_eq] at hp
  by_contra hne
  obtain ⟨i, hi, rfl⟩ := List.getElem_of_mem hf
  obtain ⟨j, hj, rfl⟩ := List.getElem_of_mem hg
  have hpw := List.pairwise_iff_getElem.1 hp.2
  rcases Nat.lt_trichotomy i j with hlt | rfl | hlt
  · have := hpw i j hi hj hlt
    simp only [apart, decide_eq_true_eq] at this
    omega
  · exact hne rfl
  · have := hpw j i hj hi hlt
    simp only [apart, decide_eq_true_eq] at this
    omega

/-- R120 at an offset of a field. -/
theorem fieldAt_of_mem {c : Cfg} (h : c.wf = true) {f : RegField} (hf : f ∈ c.fields) {o : Nat} (h1 : f.base ≤ o)
    (h2 : o < f.base + f.width) : fieldAt c o = some (f, o - f.base) := by
  unfold fieldAt
  have hex : ∃ g, c.fields.find? (fun f => decide (f.base ≤ o ∧ o < f.base + f.width)) = some g := by
    cases e : c.fields.find? (fun f => decide (f.base ≤ o ∧ o < f.base + f.width)) with
    | some g => exact ⟨g, rfl⟩
    | none =>
      have := List.find?_eq_none.1 e f hf
      simp only [decide_eq_true_eq] at this
      omega
  obtain ⟨g, hg⟩ := hex
  have hgp := List.find?_some hg
  have hgm := List.mem_of_find?_eq_some hg
  simp only [decide_eq_true_eq] at hgp
  rw [hg, wf_field_unique h hf hgm ⟨h1, h2⟩ hgp]
  rfl

/-- What R120's lookup answers is a field of the window that covers the offset. -/
theorem fieldAt_some {c : Cfg} {o : Nat} {f : RegField} {i : Nat} (h : fieldAt c o = some (f, i)) :
    f ∈ c.fields ∧ f.base ≤ o ∧ o < f.base + f.width ∧ i = o - f.base := by
  unfold fieldAt at h
  cases e : c.fields.find? (fun f => decide (f.base ≤ o ∧ o < f.base + f.width)) with
  | none => rw [e] at h; cases h
  | some g =>
    rw [e] at h
    have hgp := List.find?_some e
    simp only [decide_eq_true_eq] at hgp
    cases h
    exact ⟨List.mem_of_find?_eq_some e, hgp.1, hgp.2, rfl⟩

/-- The offset of a field's last byte. -/
theorem fieldAt_last {c : Cfg} {o : Nat} {f : RegField} {i : Nat} (h : fieldAt c o = some (f, i)) (hl : i + 1 = f.width) :
    f.last = o := by
  obtain ⟨-, h1, h2, h3⟩ := fieldAt_some h
  unfold RegField.last
  omega

/-- R5 (3): two fields of a kind that is not plain are one field. -/
theorem wf_kind_unique {c : Cfg} (h : c.wf = true) {f g : RegField} (hf : f ∈ c.fields) (hg : g ∈ c.fields) {k : FieldKind}
    (h1 : f.kind = k) (h2 : g.kind = k) (hk : k ≠ .plain) : f = g := by
  have hp := (wf_parts h).2.2.1
  simp only [Cfg.kindsOk, Bool.and_eq_true, List.all_eq_true, List.mem_cons, List.not_mem_nil, or_false, beq_iff_eq,
    decide_eq_true_eq] at hp
  obtain ⟨⟨⟨ha, hb⟩, -⟩, -⟩ := hp
  have hlen : (c.ofKind k).length ≤ 1 := by
    cases k with
    | plain => exact absurd rfl hk
    | cfBottom => exact hb _ (Or.inl rfl)
    | cfTop => exact hb _ (Or.inr (Or.inl rfl))
    | cfThresh => exact hb _ (Or.inr (Or.inr rfl))
    | trigD2 => exact le_of_eq (ha _ (by simp))
    | trigD3 => exact le_of_eq (ha _ (by simp))
    | trigThpCtl => exact le_of_eq (ha _ (by simp))
    | trigCfCfg => exact le_of_eq (ha _ (by simp))
    | thpAddr => exact le_of_eq (ha _ (by simp))
    | thpData => exact le_of_eq (ha _ (by simp))
  have mf : f ∈ c.ofKind k := List.mem_filter.2 ⟨hf, by simp [h1]⟩
  have mg : g ∈ c.ofKind k := List.mem_filter.2 ⟨hg, by simp [h2]⟩
  match hh : c.ofKind k, mf, mg with
  | [], mf, _ => cases mf
  | [x], mf, mg =>
    simp only [List.mem_cons, List.not_mem_nil, or_false] at mf mg
    rw [mf, mg]
  | x :: y :: l, _, _ => rw [hh] at hlen; simp at hlen

/-- The one field of a kind, looked up. -/
theorem fieldOfKind_of_mem {c : Cfg} (h : c.wf = true) {f : RegField} (hf : f ∈ c.fields) {k : FieldKind} (h1 : f.kind = k)
    (hk : k ≠ .plain) : Cfg.fieldOfKind c k = some f := by
  unfold Cfg.fieldOfKind
  cases e : c.fields.find? (fun f => f.kind == k) with
  | none =>
    have := List.find?_eq_none.1 e f hf
    simp [h1] at this
  | some g =>
    have hg := List.find?_some e
    simp only [beq_iff_eq] at hg
    rw [wf_kind_unique h hf (List.mem_of_find?_eq_some e) h1 hg hk]

/-- R5 (3): the THP fields have four bytes. -/
theorem wf_thp_width {c : Cfg} (h : c.wf = true) {f : RegField} (hf : f ∈ c.fields) (hk : f.kind = .thpAddr ∨ f.kind = .thpData) :
    f.width = 4 := by
  have hp := (wf_parts h).2.2.1
  simp only [Cfg.kindsOk, Bool.and_eq_true] at hp
  obtain ⟨⟨-, ha⟩, hd⟩ := hp
  rcases hk with hk | hk
  · have := List.all_eq_true.1 ha f (List.mem_filter.2 ⟨hf, by simp [hk]⟩)
    simpa using this
  · have := List.all_eq_true.1 hd f (List.mem_filter.2 ⟨hf, by simp [hk]⟩)
    simpa using this

/-- R5 (5): the sizes and borders of the memories and the PUMA regions. -/
theorem wf_memory {c : Cfg} (h : c.wf = true) :
    c.vramSize = 2 ^ Nat.log2 c.vramSize ∧ c.fbSize ≤ c.vramSize ∧ c.fbSize % 4 = 0 ∧ c.texStart % 4 = 0 ∧ c.texSize % 4 = 0
      ∧ c.regStart + c.regSize ≤ 2 ^ 32 ∧ c.texStart + c.texSize ≤ 2 ^ 32 := by
  have hp := (wf_parts h).2.2.2.2.1
  simp only [Cfg.memoryOk, Bool.and_eq_true, decide_eq_true_eq] at hp
  tauto

theorem wf_vram_pos {c : Cfg} (h : c.wf = true) : 0 < c.vramSize := by
  rw [(wf_memory h).1]
  exact Nat.two_pow_pos _

/-- The Linear aperture's mask is the remainder by the size of video memory (R164, R5 (5)). -/
theorem linAddr_eq_mod {c : Cfg} (h : c.wf = true) (off : Nat) : linAddr c off = off % c.vramSize := by
  unfold linAddr
  rw [(wf_memory h).1]
  exact Nat.and_two_pow_sub_one_eq_mod _ _

/-- The page widths fit a page number, and the memory-enable bit a byte (log entry 5). -/
theorem wf_named {c : Cfg} (h : c.wf = true) : c.cmdMemBit < 8 ∧ c.cfBotW ≤ 20 ∧ c.cfTopW ≤ 20 ∧ 0 < c.cfUnitBytes := by
  have hp := (wf_parts h).2.2.2.2.2.2.2.1
  simp only [Cfg.namedOk, Bool.and_eq_true, decide_eq_true_eq] at hp
  tauto

/-- A list with one entry that passes a test has that entry where `find?` looks. -/
theorem find_of_filter_one {α : Type} {p : α → Bool} {l : List α} {x : α} (h : l.filter p = [x]) : l.find? p = some x := by
  rw [← List.head?_filter, h]
  rfl

/-- R23: a field has the kind of its id. -/
theorem wf_kind {c : Cfg} (h : c.wf = true) {f : RegField} (hf : f ∈ c.fields) : f.kind = f.id.kind := by
  have hp := (wf_parts h).2.2.2.2.2.2.2.2
  simp only [Cfg.jobsOk, Bool.and_eq_true, List.all_eq_true, beq_iff_eq] at hp
  exact hp.1.1.1.1 f hf

/-- R270: a job field is one field of the window, of the kind of its id, which for all but the two control fields is plain. -/
theorem wf_job {c : Cfg} (h : c.wf = true) {i : FieldId} (hi : i ∈ d2JobFields ++ d3JobFields) :
    ∃ f, f ∈ c.fields ∧ f.id = i ∧ f.kind = i.kind ∧ Cfg.fieldOfId c i = some f := by
  have hp := (wf_parts h).2.2.2.2.2.2.2.2
  simp only [Cfg.jobsOk, Bool.and_eq_true, List.all_eq_true, beq_iff_eq] at hp
  obtain ⟨f, hf⟩ := List.length_eq_one_iff.1 (hp.1.1.1.2 i hi)
  have hm : f ∈ c.fields.filter (fun f => f.id == i) := by rw [← Cfg.ofId, hf]; exact List.mem_singleton_self f
  obtain ⟨hm, he⟩ := List.mem_filter.1 hm
  have he : f.id = i := beq_iff_eq.1 he
  exact ⟨f, hm, he, he ▸ wf_kind h hm, find_of_filter_one hf⟩

/-- R270: the clip-enable bit is a bit of `D2_CTRL`, the fill code a value of `D2_ROP`, and `D2_PATTERN` has 8 bytes. -/
theorem wf_jobParameters {c : Cfg} (h : c.wf = true) {f : RegField} (hf : f ∈ c.fields) :
    (f.id = .d2Ctrl → c.d2ClipEnBit < 8 * f.width) ∧ (f.id = .d2Rop → c.ropFill < 2 ^ (8 * f.width))
      ∧ (f.id = .d2Pattern → f.width = 8) := by
  have hp := (wf_parts h).2.2.2.2.2.2.2.2
  simp only [Cfg.jobsOk, Cfg.ofId, Bool.and_eq_true, List.all_eq_true, beq_iff_eq, decide_eq_true_eq, List.mem_filter] at hp
  exact ⟨fun e => hp.2 f ⟨hf, e⟩, fun e => hp.1.2 f ⟨hf, e⟩, fun e => hp.1.1.2 f ⟨hf, e⟩⟩

/-! ## The configuration space -/

/-- R5 (8): the configuration registers lie in the 256 bytes, and no two share one. -/
theorem wf_groups {c : Cfg} (h : c.wf = true) :
    (∀ g ∈ c.confGroups, g.1 + g.2 ≤ 256) ∧ c.confGroups.Pairwise (fun g k => apart g.1 g.2 k.1 k.2 = true) := by
  have hp := (wf_parts h).2.2.2.2.2.2.1
  simp only [Cfg.confOk, Bool.and_eq_true, decide_eq_true_eq, List.all_eq_true] at hp
  exact ⟨hp.1.1.1, hp.1.1.2⟩

/-- Two configuration registers, by their places in `confGroups`, share no byte. -/
theorem wf_groups_apart {c : Cfg} (h : c.wf = true) (i j : Nat) (hj : j < c.confGroups.length) (hij : i < j) :
    (c.confGroups[i]).1 + (c.confGroups[i]).2 ≤ (c.confGroups[j]).1 ∨ (c.confGroups[j]).1 + (c.confGroups[j]).2 ≤ (c.confGroups[i]).1 := by
  have := List.pairwise_iff_getElem.1 (wf_groups h).2 i j (by omega) hj hij
  simpa only [apart, decide_eq_true_eq] using this

/-- A BAR group lies in the 256 bytes, away from the command register, the interrupt line and the other BAR groups. -/
theorem wf_bar {c : Cfg} (h : c.wf = true) (ap : Aperture) :
    c.cfgBar.get ap + 4 ≤ 256
      ∧ (c.cfgBar.get ap + 4 ≤ c.cfgCmd ∨ c.cfgCmd + 2 ≤ c.cfgBar.get ap)
      ∧ (c.cfgBar.get ap + 4 ≤ c.cfgIntLine ∨ c.cfgIntLine + 1 ≤ c.cfgBar.get ap)
      ∧ ∀ q, q ≠ ap → c.cfgBar.get ap + 4 ≤ c.cfgBar.get q ∨ c.cfgBar.get q + 4 ≤ c.cfgBar.get ap := by
  have hm : ∀ ap, (c.cfgBar.get ap, 4) ∈ c.confGroups := by intro ap; cases ap <;> simp [Cfg.confGroups, PerAp.get]
  have hlt := fun i j (hj : j < 8) (hij : i < j) => wf_groups_apart h i j hj hij
  have hq : ∀ q, q ≠ ap → c.cfgBar.get ap + 4 ≤ c.cfgBar.get q ∨ c.cfgBar.get q + 4 ≤ c.cfgBar.get ap := by
    have lm := hlt 1 2 (by decide) (by decide)
    have lc := hlt 1 3 (by decide) (by decide)
    have lr := hlt 1 5 (by decide) (by decide)
    have mc := hlt 2 3 (by decide) (by decide)
    have mr := hlt 2 5 (by decide) (by decide)
    have cr := hlt 3 5 (by decide) (by decide)
    intro q hq
    cases ap <;> cases q
    all_goals first
      | exact absurd rfl hq
      | exact lm | exact lc | exact lr | exact mc | exact mr | exact cr
      | exact lm.symm | exact lc.symm | exact lr.symm | exact mc.symm | exact mr.symm | exact cr.symm
  refine ⟨(wf_groups h).1 _ (hm ap), ?_, ?_, hq⟩
  · cases ap
    · exact (hlt 0 1 (by decide) (by decide)).symm
    · exact (hlt 0 2 (by decide) (by decide)).symm
    · exact (hlt 0 3 (by decide) (by decide)).symm
    · exact (hlt 0 5 (by decide) (by decide)).symm
  · cases ap
    · exact hlt 1 6 (by decide) (by decide)
    · exact hlt 2 6 (by decide) (by decide)
    · exact hlt 3 6 (by decide) (by decide)
    · exact hlt 5 6 (by decide) (by decide)

theorem wf_intLine {c : Cfg} (h : c.wf = true) : c.cfgIntLine + 1 ≤ c.cfgCmd ∨ c.cfgCmd + 2 ≤ c.cfgIntLine :=
  (wf_groups_apart h 0 6 (by decide : 6 < 8) (by decide)).symm

theorem wf_intPin {c : Cfg} (h : c.wf = true) : c.cfgIntPin + 1 ≤ c.cfgCmd ∨ c.cfgCmd + 2 ≤ c.cfgIntPin :=
  (wf_groups_apart h 0 7 (by decide : 7 < 8) (by decide)).symm

/-- R150 at a byte of a BAR group. -/
theorem barAt_of_mem {c : Cfg} (h : c.wf = true) (ap : Aperture) {reg : Nat} (h1 : c.cfgBar.get ap ≤ reg)
    (h2 : reg < c.cfgBar.get ap + 4) : barAt c reg = some (ap, reg - c.cfgBar.get ap) := by
  unfold barAt
  have hex : ∃ q, Aperture.all.find? (fun ap => decide (c.cfgBar.get ap ≤ reg ∧ reg < c.cfgBar.get ap + 4)) = some q := by
    cases e : Aperture.all.find? (fun ap => decide (c.cfgBar.get ap ≤ reg ∧ reg < c.cfgBar.get ap + 4)) with
    | some q => exact ⟨q, rfl⟩
    | none =>
      have := List.find?_eq_none.1 e ap (by cases ap <;> decide)
      simp only [decide_eq_true_eq] at this
      omega
  obtain ⟨q, hq⟩ := hex
  have hqp := List.find?_some hq
  simp only [decide_eq_true_eq] at hqp
  have : q = ap := by
    by_contra hne
    have := (wf_bar h ap).2.2.2 q hne
    omega
  rw [hq, this]
  rfl

/-- What R150's lookup answers is a BAR group that holds the register. -/
theorem barAt_some {c : Cfg} {reg : Nat} {ap : Aperture} {i : Nat} (h : barAt c reg = some (ap, i)) :
    c.cfgBar.get ap ≤ reg ∧ reg < c.cfgBar.get ap + 4 ∧ i = reg - c.cfgBar.get ap := by
  unfold barAt at h
  cases e : Aperture.all.find? (fun ap => decide (c.cfgBar.get ap ≤ reg ∧ reg < c.cfgBar.get ap + 4)) with
  | none => rw [e] at h; cases h
  | some q =>
    rw [e] at h
    have hqp := List.find?_some e
    simp only [decide_eq_true_eq] at hqp
    cases h
    exact ⟨hqp.1, hqp.2, rfl⟩

/-- `CFG_RESET` is canonical and holds 0 at the command register. -/
theorem wf_cfgReset {c : Cfg} (h : c.wf = true) :
    Mem.wf c.cfgReset = true ∧ Mem.below c.cfgReset 256 = true ∧ Mem.read c.cfgReset c.cfgCmd = 0
      ∧ Mem.read c.cfgReset (c.cfgCmd + 1) = 0 := by
  have hp := (wf_parts h).2.2.2.2.2.2.1
  simp only [Cfg.confOk, Bool.and_eq_true, decide_eq_true_eq, List.all_eq_true, bne_iff_ne, ne_eq, Bool.or_eq_true, beq_iff_eq] at hp
  obtain ⟨⟨-, hc⟩, hs⟩ := hp
  have hpin : c.cfgCmd ≠ c.cfgIntPin := by
    have := wf_intPin h
    omega
  have hz : ∀ a, (a = c.cfgCmd ∨ a = c.cfgCmd + 1) → Mem.read c.cfgReset a = 0 := by
    intro a ha
    have hne : ∀ cell ∈ c.cfgReset, cell.1 ≠ a := by
      intro cell hcell e
      have := (hc cell hcell).2 (c.cfgCmd, 2) (by simp [Cfg.confGroups])
      rcases this with h1 | h1
      · simp only [apart, decide_eq_true_eq] at h1
        omega
      · exact hpin h1
    clear hc hs
    generalize c.cfgReset = m at hne
    induction m with
    | nil => rfl
    | cons x m ih =>
      obtain ⟨k, y⟩ := x
      have hk : ¬ a = k := fun e => hne (k, y) (by simp) e.symm
      simp only [Mem.read, hk, if_false]
      exact ih (fun cell hcell => hne cell (by simp [hcell]))
  refine ⟨?_, ?_, hz _ (Or.inl rfl), hz _ (Or.inr rfl)⟩
  · rw [Mem.wf_iff]
    exact ⟨hs, fun x hx => (hc x hx).1.2⟩
  · rw [Mem.below_iff]
    exact fun x hx => (hc x hx).1.1

end Sys2Proof.Machine
end

