-- ==== Sys2Proof/Laws/Aperture.lean ====
section
/-! SUPPORT. What the configuration writes and the aperture updates do to the state. -/

namespace Sys2Proof.Machine

/-! ## Mappings -/

/-- Unmapping touches one aperture's enable bit and the events alone, and says so to the collaborator only if it was enabled. -/
theorem unmapAp_spec (ap : Aperture) (s : State) :
    unmapAp ap s = { s with ap := (unmapAp ap s).ap, events := s.events ++ if (s.ap.get ap).en = true then [.unmap ap] else [] }
      ∧ (unmapAp ap s).ap = s.ap.set ap ⟨false, (s.ap.get ap).base⟩ := by
  unfold unmapAp
  by_cases h : (s.ap.get ap).en = true
  · simp only [h, if_true]
    exact ⟨rfl, rfl⟩
  · rw [if_neg h, if_neg h, List.append_nil]
    refine ⟨rfl, ?_⟩
    apply PerAp.ext_get
    intro q
    rw [PerAp.get_set]
    split
    · rename_i e
      subst e
      simp only [Bool.not_eq_true] at h
      rw [← h]
    · rfl

theorem unmapAp_get (ap q : Aperture) (s : State) :
    (unmapAp ap s).ap.get q = if q = ap then ⟨false, (s.ap.get ap).base⟩ else s.ap.get q := by
  rw [(unmapAp_spec ap s).2, PerAp.get_set]

/-- Unmapping all apertures disables each, keeps the bases and reports the enabled ones in order (R153, R311). -/
theorem unmapAll_spec (s : State) :
    unmapAll s = { s with
      ap := (unmapAll s).ap
      events := s.events ++ (Aperture.all.filter (fun ap => (s.ap.get ap).en)).map (fun ap => .unmap ap) }
      ∧ ∀ q, (unmapAll s).ap.get q = ⟨false, (s.ap.get q).base⟩ := by
  constructor
  · unfold unmapAll
    rw [(unmapAp_spec .rom _).1, (unmapAp_spec .companion _).1, (unmapAp_spec .mmio _).1, (unmapAp_spec .linear _).1]
    simp only [unmapAp_get, reduceCtorEq, if_false, Aperture.all, List.filter_cons, List.filter_nil]
    cases (s.ap.get .linear).en <;> cases (s.ap.get .mmio).en <;> cases (s.ap.get .companion).en <;> cases (s.ap.get .rom).en <;>
      simp
  · intro q
    cases q <;> simp [unmapAll, unmapAp_get]

/-- A commit touches the aperture's mapping and the events alone. -/
theorem commit_frame (ap : Aperture) (base : Word) (s : State) :
    commit ap base s = { s with ap := (commit ap base s).ap, events := (commit ap base s).events }
      ∧ ∀ q, q ≠ ap → (commit ap base s).ap.get q = s.ap.get q := by
  unfold commit moveEvent
  split
  · split
    · exact ⟨rfl, fun q hq => by simp [PerAp.get_set, hq]⟩
    · exact ⟨rfl, fun q hq => by simp [PerAp.get_set, hq]⟩
  · refine ⟨?_, fun q hq => by rw [unmapAp_get, if_neg hq]⟩
    conv_lhs => rw [(unmapAp_spec ap s).1]
    rw [(unmapAp_spec ap s).1]

/-! ## Byte writes -/

/-- A BAR byte write stores its byte and touches that aperture's mapping and the events alone. -/
theorem barWriteByte_frame (ap : Aperture) (i : Nat) (v : Byte) (s : State) :
    barWriteByte ap i v s = { s with
      conf := s.conf.write (s.cfg.cfgBar.get ap + i) v
      ap := (barWriteByte ap i v s).ap
      events := (barWriteByte ap i v s).events }
      ∧ ∀ q, q ≠ ap → (barWriteByte ap i v s).ap.get q = s.ap.get q := by
  unfold barWriteByte
  dsimp only
  split
  · have h := unmapAp_spec ap (s.setConf (s.cfg.cfgBar.get ap + i) v)
    refine ⟨?_, fun q hq => by rw [unmapAp_get, if_neg hq]; rfl⟩
    rw [h.1]
    rfl
  · split
    · have h := commit_frame ap (barBase (s.setConf (s.cfg.cfgBar.get ap + i) v) ap) (s.setConf (s.cfg.cfgBar.get ap + i) v)
      refine ⟨?_, fun q hq => by rw [h.2 q hq]; rfl⟩
      rw [h.1]
      rfl
    · exact ⟨rfl, fun _ _ => rfl⟩

/-- A command write stores the masked low byte and touches the mappings and the events alone. -/
theorem commandWriteLow_frame (v : Byte) (s : State) :
    commandWriteLow v s = { s with
      conf := s.conf.write s.cfg.cfgCmd (v &&& lane s.cfg.cmdWmask 0)
      ap := (commandWriteLow v s).ap
      events := (commandWriteLow v s).events } := by
  unfold commandWriteLow
  dsimp only
  split
  · rfl
  · rw [(unmapAll_spec _).1]
    rfl

/-- A configuration byte write touches the byte it names, the mappings and the events alone. -/
theorem confWriteByte_frame (reg : Nat) (v : Byte) (s : State) :
    confWriteByte reg v s = { s with
      conf := (confWriteByte reg v s).conf
      ap := (confWriteByte reg v s).ap
      events := (confWriteByte reg v s).events }
      ∧ ∀ a, a ≠ reg → (confWriteByte reg v s).conf.read a = s.conf.read a := by
  unfold confWriteByte
  split
  · rename_i h
    refine ⟨?_, fun a ha => ?_⟩
    · rw [commandWriteLow_frame]
    · rw [commandWriteLow_frame, ← h]
      exact Mem.read_write_ne _ _ ha
  · split
    · exact ⟨rfl, fun a ha => Mem.read_write_ne _ _ ha⟩
    · split
      · rename_i ap i hb
        obtain ⟨h1, -, h3⟩ := barAt_some hb
        have h := (barWriteByte_frame ap i v s).1
        refine ⟨?_, fun a ha => ?_⟩
        · rw [h]
        · rw [h]
          have : s.cfg.cfgBar.get ap + i = reg := by omega
          rw [this]
          exact Mem.read_write_ne _ _ ha
      · split
        · exact ⟨rfl, fun a ha => Mem.read_write_ne _ _ ha⟩
        · exact ⟨rfl, fun _ _ => rfl⟩

/-- The command register's low byte and a byte of a BAR group, told apart. -/
theorem confWriteByte_bar {s : State} (h : s.cfg.wf = true) (ap : Aperture) {i : Nat} (hi : i < 4) (v : Byte) :
    confWriteByte (s.cfg.cfgBar.get ap + i) v s = barWriteByte ap i v s := by
  have hb := wf_bar h ap
  unfold confWriteByte
  rw [if_neg (by omega), if_neg (by omega), barAt_of_mem h ap (by omega) (by omega), Nat.add_sub_cancel_left]

/-- What a configuration write of some bytes touches. -/
theorem confWrite_frame {reg : Nat} {bs : List Byte} {s t : State} (h : confWrite reg bs s = .ok t) :
    t = { s with conf := t.conf, ap := t.ap, events := t.events }
      ∧ ∀ a, ¬ (reg ≤ a ∧ a < reg + bs.length) → t.conf.read a = s.conf.read a := by
  unfold confWrite at h
  split at h
  · cases h
  · refine writeBytes_rel (R := fun s t =>
      t = { s with conf := t.conf, ap := t.ap, events := t.events }
        ∧ ∀ a, ¬ (reg ≤ a ∧ a < reg + bs.length) → t.conf.read a = s.conf.read a)
      (fun s => ⟨rfl, fun _ _ => rfl⟩) ?_ bs reg s t ?_ h
    · rintro s t u ⟨h1, h2⟩ ⟨h3, h4⟩
      refine ⟨?_, fun a ha => (h4 a ha).trans (h2 a ha)⟩
      rw [h3, h1]
    · intro b v s t hb1 hb2 e
      cases e
      refine ⟨(confWriteByte_frame b v s).1, fun a ha => (confWriteByte_frame b v s).2 a (by omega)⟩

/-- A configuration write inside the 256 bytes completes. -/
theorem confWrite_ok {reg : Nat} {bs : List Byte} (s : State) (h : reg + bs.length ≤ 256) : ∃ t, confWrite reg bs s = .ok t := by
  unfold confWrite
  rw [if_neg (by omega)]
  exact writeBytes_ok (fun _ _ _ => rfl) bs reg s

end Sys2Proof.Machine
end

