-- ==== Sys2Proof/Laws/CmdFifo.lean ====
section
/-! SUPPORT. What the CmdFifo's operations can do to the state: one frame and one count for a packet, a drain and a ring write. -/

namespace Sys2Proof.Machine

/-! ## A packet -/

/-- The entries left when one of `n` is dropped. -/
def oneFewer (n : Word) : Word := if n = 0 then 0 else n - 1

theorem State.dropEntry_count (s : State) : s.dropEntry.cfEntryCount = oneFewer s.cfEntryCount := rfl

theorem oneFewer_toNat (n : Word) : (oneFewer n).toNat = n.toNat - 1 := by
  unfold oneFewer
  by_cases h : n = 0
  · subst h; rfl
  · have : n.toNat ≠ 0 := fun e => h (BitVec.eq_of_toNat_eq (by simpa using e))
    simp only [h, if_false]
    bv_omega

/-- The register writes of a group touch the companion registers and the events alone. -/
theorem writeGroup_frame (base : Nat) : ∀ (l : List (Nat × Nat)) (s : State),
    writeGroup base l s = { s with comp := (writeGroup base l s).comp, events := (writeGroup base l s).events }
  | [], _ => rfl
  | (i, wa) :: l, s => by
    have h := writeGroup_frame base l (compRegWrite (BitVec.ofNat 8 (base + i)) (s.vram.rd32 wa) s)
    rw [writeGroup, h]
    rfl

/-- A group tells the rasterizer of its registers in order. -/
theorem writeGroup_events (base : Nat) : ∀ (l : List (Nat × Nat)) (s : State),
    (writeGroup base l s).events = s.events ++ l.map (fun p => .companionRegWritten (BitVec.ofNat 8 (base + p.1)) (s.vram.rd32 p.2))
  | [], s => by simp [writeGroup]
  | (i, wa) :: l, s => by
    rw [writeGroup, writeGroup_events base l]
    simp

/-- A register no position of the group names stays. -/
theorem writeGroup_other (base : Nat) (q : BitVec 8) : ∀ (l : List (Nat × Nat)) (s : State),
    (∀ p ∈ l, q ≠ BitVec.ofNat 8 (base + p.1)) → (writeGroup base l s).compGet q = s.compGet q
  | [], _, _ => rfl
  | (i, wa) :: l, s, h => by
    rw [writeGroup, writeGroup_other base q l _ (fun p hp => h p (List.mem_cons_of_mem _ hp)), compRegWrite_compGet]
    simp [h (i, wa) (by simp)]

/-- A register that one position of the group names, and no later one, holds that position's word. -/
theorem writeGroup_at (base : Nat) (i wa : Nat) : ∀ (l r : List (Nat × Nat)) (s : State),
    (∀ p ∈ r, BitVec.ofNat 8 (base + i) ≠ BitVec.ofNat 8 (base + p.1)) →
      (writeGroup base (l ++ (i, wa) :: r) s).compGet (BitVec.ofNat 8 (base + i)) = s.vram.rd32 wa
  | [], r, s, h => by
    rw [List.nil_append, writeGroup, writeGroup_other base _ r _ h, compRegWrite_compGet]
    simp
  | (j, wb) :: l, r, s, h => by
    rw [List.cons_append, writeGroup, writeGroup_at base i wa l r _ h]
    simp

/-- An abort touches the read pointer, the entry count and the diagnostic stream alone. -/
theorem abortDrain_frame (s : State) :
    abortDrain s = { s with
      cfReadPtr := (abortDrain s).cfReadPtr
      cfEntryCount := oneFewer s.cfEntryCount
      diags := s.diags ++ [.fifoOutOfRange s.cfReadPtr (ringBottom s) (ringTop s)] } := by
  unfold abortDrain
  dsimp only
  split <;> rfl

/-- A packet, completed or aborted, drops one entry and touches beside it the companion registers, the read pointer and the two output
streams alone. -/
theorem takePacket_frame (p : Packet) (s : State) :
    (takePacket p s).state = { s with
      comp := (takePacket p s).state.comp
      cfReadPtr := (takePacket p s).state.cfReadPtr
      cfEntryCount := oneFewer s.cfEntryCount
      diags := (takePacket p s).state.diags
      events := (takePacket p s).state.events } := by
  have habort : abortDrain s = { s with
      comp := (abortDrain s).comp
      cfReadPtr := (abortDrain s).cfReadPtr
      cfEntryCount := oneFewer s.cfEntryCount
      diags := (abortDrain s).diags
      events := (abortDrain s).events } := by
    rw [abortDrain_frame]
  unfold takePacket
  split
  · cases p with
    | nop => rfl
    | rejected hi reg lo => rfl
    | grouped hi reg lo mask =>
      simp only [runPacket]
      split
      · have h := writeGroup_frame reg.toNat
          ((maskBits mask).zip ((List.range (popcount mask)).map (dataAddr s))) s
        simp only [Drained.state]
        rw [h]
        rfl
      · exact habort
    | single hi reg lo data => rfl
  · exact habort

theorem takePacket_cfg (p : Packet) (s : State) : (takePacket p s).state.cfg = s.cfg := by rw [takePacket_frame]
theorem takePacket_count (p : Packet) (s : State) : (takePacket p s).state.cfEntryCount = oneFewer s.cfEntryCount := by
  rw [takePacket_frame]

/-! ## A drain -/

/-- A drain touches the companion registers, the read pointer, the entry count and the two output streams alone. -/
theorem drainLoop_frame : ∀ (n : Nat) (s : State),
    (drainLoop n s).state = { s with
      comp := (drainLoop n s).state.comp
      cfReadPtr := (drainLoop n s).state.cfReadPtr
      cfEntryCount := (drainLoop n s).state.cfEntryCount
      diags := (drainLoop n s).state.diags
      events := (drainLoop n s).state.events }
  | 0, _ => rfl
  | n + 1, s => by
    rw [drainLoop]
    split
    · rfl
    · have h := takePacket_frame (fetchPacket s) s
      cases e : drainOne s with
      | ok t =>
        have et : (takePacket (fetchPacket s) s).state = t := by rw [← drainOne, e]; rfl
        rw [et] at h
        have ih := drainLoop_frame n t
        dsimp only
        rw [ih, h]
      | abort t =>
        have et : (takePacket (fetchPacket s) s).state = t := by rw [← drainOne, e]; rfl
        rw [et] at h
        dsimp only [Drained.state]
        rw [h]

/-- `CfProcess` touches the companion registers, the read pointer, the entry count, the status bit and the two output streams alone. -/
theorem cfProcess_frame (s : State) :
    cfProcess s = { s with
      comp := (cfProcess s).comp
      cfReadPtr := (cfProcess s).cfReadPtr
      cfEntryCount := (cfProcess s).cfEntryCount
      cfThreshStatus := (cfProcess s).cfThreshStatus
      diags := (cfProcess s).diags
      events := (cfProcess s).events } := by
  unfold cfProcess
  split
  · have h := drainLoop_frame (drainBudget s) s
    cases e : drainLoop (drainBudget s) s with
    | ok t =>
      rw [e] at h
      dsimp only [Drained.state] at h ⊢
      rw [h]
      unfold State.lowerThresh
      split <;> rfl
    | abort t =>
      rw [e] at h
      dsimp only [Drained.state] at h ⊢
      rw [h]
  · rfl

/-- A drain with one entry pending leaves none: its one packet is taken or dropped. -/
theorem cfProcess_count_one {s : State} (he : s.cfEnabled = true) (hc : s.cfEntryCount = 1) : (cfProcess s).cfEntryCount = 0 := by
  have hb : ∃ n, drainBudget s = n + 1 := by
    unfold drainBudget
    split
    · rename_i h; exact ⟨s.cfThreshold - 1, by omega⟩
    · exact ⟨0, by rw [hc]; rfl⟩
  obtain ⟨n, hn⟩ := hb
  have hz := takePacket_count (fetchPacket s) s
  rw [hc, show oneFewer 1 = 0 by decide, ← drainOne] at hz
  simp only [cfProcess, he, if_true, hn, drainLoop, hc, show ¬ (1 : Word) = 0 by decide, if_false]
  cases e : drainOne s with
  | ok t =>
    rw [e] at hz
    dsimp only [Drained.state] at hz ⊢
    cases n <;> simp [drainLoop, hz]
  | abort t =>
    rw [e] at hz
    exact hz

/-! ## A framebuffer write -/

/-- A framebuffer write touches video memory and what a drain touches. -/
theorem fbWrite32_frame (a : Nat) (v : Word) (s : State) :
    fbWrite32 a v s = { s with
      vram := s.vram.wr32 a v
      comp := (fbWrite32 a v s).comp
      cfReadPtr := (fbWrite32 a v s).cfReadPtr
      cfEntryCount := (fbWrite32 a v s).cfEntryCount
      cfThreshStatus := (fbWrite32 a v s).cfThreshStatus
      diags := (fbWrite32 a v s).diags
      events := (fbWrite32 a v s).events } := by
  unfold fbWrite32
  dsimp only
  split
  · rw [cfProcess_frame]
    unfold State.raiseThresh
    split <;> rfl
  · rfl

/-- A framebuffer write of a state with no entry pending leaves none. -/
theorem fbWrite32_count_zero {s : State} (a : Nat) (v : Word) (h : s.cfEntryCount = 0) : (fbWrite32 a v s).cfEntryCount = 0 := by
  unfold fbWrite32
  dsimp only
  split
  · rename_i hc
    have he : s.cfEnabled = true := by
      simp only [insideRing, Bool.and_eq_true, State.setVram_cfEnabled] at hc
      exact hc.1.1
    refine cfProcess_count_one ?_ ?_
    · simp [he]
    · simp [h]
  · exact h

end Sys2Proof.Machine
end

