-- ==== Sys2Proof/Laws/Bridge.lean ====
section
/-! SUPPORT. What the bridge's operations can do to the state: one frame per operation, and the gate. -/

namespace Sys2Proof.Machine

/-! ## The gate -/

/-- The gate lets an access through exactly with the bridge on (R190). -/
theorem bridgeGate_eq_none {s : State} : bridgeGate s = none ↔ bridgeOn s := by
  unfold bridgeGate bridgeOn
  cases s.cfg.companionPresent <;> cases s.bridgeEn <;> simp

/-- What the gate logs with the bridge off (R190). -/
theorem bridgeGate_off {s : State} (h : ¬ bridgeOn s) :
    bridgeGate s = some (if s.cfg.companionPresent = true then .bridgeDisabled else .bridgeNotConfigured) := by
  unfold bridgeOn at h
  unfold bridgeGate
  cases hc : s.cfg.companionPresent <;> cases hb : s.bridgeEn <;> simp_all

/-! ## Accesses -/

/-- A PUMA read changes the diagnostic stream alone. -/
theorem pumaRead_frame {a v : Word} {s t : State} (h : pumaRead a s = .ok (v, t)) : t = { s with diags := t.diags } := by
  unfold pumaRead at h
  split at h
  · split at h <;> cases h; rfl
  · cases h; rfl
  · split at h <;> cases h; rfl
  · cases h; rfl

/-- A gated PUMA read changes the diagnostic stream alone. -/
theorem bridgeRead_frame {a v : Word} {s t : State} (h : bridgeRead a s = .ok (v, t)) : t = { s with diags := t.diags } := by
  unfold bridgeRead at h
  split at h
  · cases h; rfl
  · exact pumaRead_frame h

/-- A PUMA write changes the memories behind the bridge, what a drain changes, and no more. -/
theorem pumaWrite_frame {a v : Word} {s t : State} (h : pumaWrite a v s = .ok t) :
    t = { s with
      vram := t.vram, comp := t.comp, tex := t.tex, cfReadPtr := t.cfReadPtr, cfEntryCount := t.cfEntryCount,
      cfThreshStatus := t.cfThreshStatus, diags := t.diags, events := t.events } := by
  unfold pumaWrite at h
  split at h
  · split at h <;> cases h
    conv_lhs => rw [fbWrite32_frame]
    rw [fbWrite32_frame]
  · cases h; rfl
  · split at h <;> cases h; rfl
  · cases h; rfl

/-- A gated PUMA write changes what a PUMA write changes. -/
theorem bridgeWrite_frame {a v : Word} {s t : State} (h : bridgeWrite a v s = .ok t) :
    t = { s with
      vram := t.vram, comp := t.comp, tex := t.tex, cfReadPtr := t.cfReadPtr, cfEntryCount := t.cfEntryCount,
      cfThreshStatus := t.cfThreshStatus, diags := t.diags, events := t.events } := by
  unfold bridgeWrite at h
  split at h
  · cases h; rfl
  · exact pumaWrite_frame h

/-- A PUMA write of a state with no entry pending leaves none. -/
theorem pumaWrite_count_zero {a v : Word} {s t : State} (h : pumaWrite a v s = .ok t) (hc : s.cfEntryCount = 0) : t.cfEntryCount = 0 := by
  unfold pumaWrite at h
  split at h
  · split at h <;> cases h
    exact fbWrite32_count_zero _ _ hc
  · cases h; exact hc
  · split at h <;> cases h; exact hc
  · cases h; exact hc

/-- What a PUMA write does to the two memories: nothing, or one word inside the framebuffer or the texture memory. -/
theorem pumaWrite_memories {a v : Word} {s t : State} (h : pumaWrite a v s = .ok t) :
    (t.vram = s.vram ∨ (a.toNat < s.cfg.fbSize ∧ a.toNat % 4 = 0 ∧ t.vram = s.vram.wr32 a.toNat v))
      ∧ (t.tex = s.tex ∨ ∃ k, classify s.cfg a = .tex k ∧ a.toNat % 4 = 0 ∧ t.tex = s.tex.wr32 k v) := by
  unfold pumaWrite at h
  cases hc : classify s.cfg a with
  | fb =>
    have hlt : a.toNat < s.cfg.fbSize := by
      unfold classify at hc
      by_contra hn
      rw [if_neg hn] at hc
      split at hc
      · cases hc
      · split at hc <;> cases hc
    rw [hc] at h
    dsimp only at h
    split at h
    · rename_i h4
      cases h
      rw [fbWrite32_frame]
      exact ⟨Or.inr ⟨hlt, h4, rfl⟩, Or.inl rfl⟩
    · cases h
  | reg r => rw [hc] at h; cases h; exact ⟨Or.inl rfl, Or.inl rfl⟩
  | tex k =>
    rw [hc] at h
    dsimp only at h
    split at h
    · rename_i h4
      cases h
      exact ⟨Or.inl rfl, Or.inr ⟨k, rfl, h4, rfl⟩⟩
    · cases h
  | invalid => rw [hc] at h; cases h; exact ⟨Or.inl rfl, Or.inl rfl⟩

/-! ## What an address names (R192), test by test -/

theorem classify_of_fb {c : Cfg} {a : Word} (h : a.toNat < c.fbSize) : classify c a = .fb := if_pos h

theorem classify_of_reg {c : Cfg} {a : Word} {r : BitVec 8} (h1 : c.fbSize ≤ a.toNat) (h2 : c.regStart ≤ a.toNat)
    (h3 : a.toNat < c.regStart + c.regSize) (hr : r.toNat = (a.toNat - c.regStart) / 4096 % 256) : classify c a = .reg r := by
  have : BitVec.ofNat 8 ((a.toNat - c.regStart) / 2 ^ 12) = r := BitVec.eq_of_toNat_eq ((BitVec.toNat_ofNat _ _).trans hr.symm)
  rw [classify, if_neg (by omega), if_pos ⟨h2, h3⟩, this]

theorem classify_of_tex {c : Cfg} {a : Word} (h1 : c.fbSize ≤ a.toNat)
    (h2 : ¬ (c.regStart ≤ a.toNat ∧ a.toNat < c.regStart + c.regSize)) (h3 : c.texStart ≤ a.toNat)
    (h4 : a.toNat < c.texStart + c.texSize) : classify c a = .tex (a.toNat - c.texStart) := by
  rw [classify, if_neg (by omega), if_neg h2, if_pos ⟨h3, h4⟩]

theorem classify_of_none {c : Cfg} {a : Word} (h1 : c.fbSize ≤ a.toNat)
    (h2 : ¬ (c.regStart ≤ a.toNat ∧ a.toNat < c.regStart + c.regSize))
    (h3 : ¬ (c.texStart ≤ a.toNat ∧ a.toNat < c.texStart + c.texSize)) : classify c a = .invalid := by
  rw [classify, if_neg (by omega), if_neg h2, if_neg h3]

/-- The offset of a texture address (R192). -/
theorem classify_tex {c : Cfg} {a : Word} {k : Nat} (h : classify c a = .tex k) :
    c.texStart ≤ a.toNat ∧ a.toNat < c.texStart + c.texSize ∧ k = a.toNat - c.texStart := by
  unfold classify at h
  split at h
  · cases h
  · split at h
    · cases h
    · split at h
      · rename_i h1
        cases h
        exact ⟨h1.1, h1.2, rfl⟩
      · cases h

/-! ## THP accesses -/

/-- A THP write changes what a PUMA write changes, and the handshake flags, which only ever become set. -/
theorem thpIndirectWrite_frame {s t : State} (h : thpIndirectWrite s = .ok t) :
    t = { s with
      vram := t.vram, comp := t.comp, tex := t.tex, cfReadPtr := t.cfReadPtr, cfEntryCount := t.cfEntryCount,
      cfThreshStatus := t.cfThreshStatus, diags := t.diags, events := t.events, thpRequest := t.thpRequest,
      thpGrant := t.thpGrant }
    ∧ (s.thpRequest = true → t.thpRequest = true) ∧ (s.thpGrant = true → t.thpGrant = true) := by
  unfold thpIndirectWrite at h
  split at h
  · cases h; exact ⟨rfl, id, id⟩
  · split at h
    · cases h
    · rename_i s1 e
      cases h
      have := pumaWrite_frame e
      refine ⟨?_, fun _ => rfl, fun _ => rfl⟩
      rw [this]
      rfl

/-- A byte read of `THP_DATA` changes the stage, the handshake flags, which only ever become set, and the diagnostic stream alone. -/
theorem thpDataReadByte_frame {i : Nat} {b : Byte} {s t : State} (h : thpDataReadByte i s = .ok (b, t)) :
    t = { s with thpStage := t.thpStage, thpRequest := t.thpRequest, thpGrant := t.thpGrant, diags := t.diags }
    ∧ (s.thpRequest = true → t.thpRequest = true) ∧ (s.thpGrant = true → t.thpGrant = true) := by
  unfold thpDataReadByte at h
  split at h
  · split at h
    · cases h
    · rename_i s1 e
      cases h
      unfold thpIndirectRead at e
      split at e
      · cases e; exact ⟨rfl, id, id⟩
      · split at e
        · cases e
        · rename_i v s2 e2
          cases e
          have := pumaRead_frame e2
          refine ⟨?_, fun _ => rfl, fun _ => rfl⟩
          rw [this]
          rfl
  · cases h; exact ⟨rfl, id, id⟩

end Sys2Proof.Machine
end

