-- ==== Sys2Proof/Laws/Encoding.lean ====
section
/-! SUPPORT. What the address word of a CmdFifo header slot is made of (spec/30_encoding.md R93). -/

namespace Sys2Proof

/-- Bit 31 of an address word is its group bit (R93). -/
theorem header_group (g : BitVec 1) (hi : BitVec 8) (reg : BitVec 21) (lo : BitVec 2) :
    (header g hi reg lo).getLsbD 31 = g.getLsbD 0 := by
  simp only [header, BitVec.getLsbD_append]; simp

/-- Bits 30:23 of an address word are read back as they were put in. -/
theorem header_hi (g : BitVec 1) (hi : BitVec 8) (reg : BitVec 21) (lo : BitVec 2) :
    hdrHi (header g hi reg lo) = hi := by
  apply BitVec.eq_of_getLsbD_eq
  intro k hk
  simp only [hdrHi, header, BitVec.getLsbD_extractLsb', BitVec.getLsbD_append]
  have a : ¬ 23 + k < 2 := by omega
  have b : ¬ 23 + k - 2 < 21 := by omega
  have c : 23 + k - 2 - 21 = k := by omega
  simp only [a, b, c, hk, if_false, if_true]; simp

/-- The register index is read back as it was put in. -/
theorem header_reg (g : BitVec 1) (hi : BitVec 8) (reg : BitVec 21) (lo : BitVec 2) :
    hdrReg (header g hi reg lo) = reg := by
  apply BitVec.eq_of_getLsbD_eq
  intro k hk
  simp only [hdrReg, header, BitVec.getLsbD_extractLsb', BitVec.getLsbD_append]
  have a : ¬ 2 + k < 2 := by omega
  have c : 2 + k - 2 = k := by omega
  simp only [a, c, hk, if_false, if_true]; simp

/-- Bits 1:0 of an address word are read back as they were put in. -/
theorem header_lo (g : BitVec 1) (hi : BitVec 8) (reg : BitVec 21) (lo : BitVec 2) :
    hdrLo (header g hi reg lo) = lo := by
  apply BitVec.eq_of_getLsbD_eq
  intro k hk
  simp only [hdrLo, header, BitVec.getLsbD_extractLsb', BitVec.getLsbD_append, Nat.zero_add, hk, if_true]; simp

/-- An address word is the word of its four parts: no bit is dropped. -/
theorem header_of_parts (aw : Word) : header (BitVec.ofBool (aw.getLsbD 31)) (hdrHi aw) (hdrReg aw) (hdrLo aw) = aw := by
  apply BitVec.eq_of_getLsbD_eq
  intro k hk
  simp only [hdrHi, hdrReg, hdrLo, header, BitVec.getLsbD_extractLsb', BitVec.getLsbD_append]
  by_cases h1 : k < 2
  · simp [h1]
  by_cases h2 : k < 23
  · have : k - 2 < 21 := by omega
    simp [h1, this]; congr 1; omega
  by_cases h3 : k < 31
  · have a : ¬ k - 2 < 21 := by omega
    have b : k - 2 - 21 < 8 := by omega
    simp [h1, a, b]; congr 1; omega
  · have a : ¬ k - 2 < 21 := by omega
    have b : ¬ k - 2 - 21 < 8 := by omega
    have : k = 31 := by omega
    subst this
    simp

/-- A non-grouped address word is 0 exactly when all its parts are. -/
theorem header_zero : ∀ (hi : BitVec 8) (reg : BitVec 21) (lo : BitVec 2), header 0 hi reg lo = 0 ↔ hi = 0 ∧ reg = 0 ∧ lo = 0 := by
  intro hi reg lo
  constructor
  · intro h
    refine ⟨?_, ?_, ?_⟩
    · rw [← header_hi 0 hi reg lo, h]; decide
    · rw [← header_reg 0 hi reg lo, h]; decide
    · rw [← header_lo 0 hi reg lo, h]; decide
  · rintro ⟨rfl, rfl, rfl⟩; decide

/-- A grouped address word is never 0. -/
theorem header_one_ne (hi : BitVec 8) (reg : BitVec 21) (lo : BitVec 2) : header 1 hi reg lo ≠ 0 := by
  intro h
  have := header_group 1 hi reg lo
  rw [h] at this
  simp at this

end Sys2Proof
end

