-- ==== Sys2Proof/Laws/Engines.lean ====
section
/-! SUPPORT. What the fill and the two job triggers do. -/

namespace Sys2Proof.Machine

/-! ## The fill -/

/-- A row's fill leaves a byte no shown pixel of the row is stored at. -/
theorem fillRow_other (j : FillJob) (y a : Nat) : ∀ (n x : Nat) (m : Mem),
    (∀ x', x ≤ x' → x' < x + n → pixelShown j x' y = true → a ≠ pixelAddr j x' y) → (fillRow j y n x m).read a = m.read a
  | 0, _, _, _ => rfl
  | n + 1, x, m, h => by
    rw [fillRow, fillRow_other j y a n (x + 1) _ (fun x' h1 h2 h3 => h x' (by omega) (by omega) h3)]
    split
    · rename_i hs
      rw [Mem.read_write_ne _ _ (h x (by omega) (by omega) hs)]
    · rfl

/-- A row's fill keeps a byte of the fill's colour. -/
theorem fillRow_keeps (j : FillJob) (y a : Nat) : ∀ (n x : Nat) (m : Mem), m.read a = j.color → (fillRow j y n x m).read a = j.color
  | 0, _, _, h => h
  | n + 1, x, m, h => by
    rw [fillRow]
    apply fillRow_keeps j y a n
    split
    · rw [Mem.read_write]; split <;> simp [h]
    · exact h

/-- A row's fill colours every shown pixel of the row. -/
theorem fillRow_hit (j : FillJob) (y x' : Nat) (hs : pixelShown j x' y = true) : ∀ (n x : Nat) (m : Mem), x ≤ x' → x' < x + n →
    (fillRow j y n x m).read (pixelAddr j x' y) = j.color
  | 0, x, m, h1, h2 => by omega
  | n + 1, x, m, h1, h2 => by
    rw [fillRow]
    by_cases hx : x' = x
    · subst hx
      apply fillRow_keeps
      rw [if_pos hs]
      simp
    · exact fillRow_hit j y x' hs n (x + 1) _ (by omega) (by omega)

/-- The fill leaves a byte no shown pixel is stored at. -/
theorem fillRows_other (j : FillJob) (a : Nat) : ∀ (n y : Nat) (m : Mem),
    (∀ x' y', j.dstX ≤ x' → x' < j.dstX + j.sizeX → y ≤ y' → y' < y + n → pixelShown j x' y' = true → a ≠ pixelAddr j x' y') →
      (fillRows j n y m).read a = m.read a
  | 0, _, _, _ => rfl
  | n + 1, y, m, h => by
    rw [fillRows, fillRows_other j a n (y + 1) _ (fun x' y' h1 h2 h3 h4 => h x' y' h1 h2 (by omega) (by omega)),
      fillRow_other j y a _ _ _ (fun x' h1 h2 => h x' y h1 h2 (by omega) (by omega))]

theorem fillRows_keeps (j : FillJob) (a : Nat) : ∀ (n y : Nat) (m : Mem), m.read a = j.color → (fillRows j n y m).read a = j.color
  | 0, _, _, h => h
  | n + 1, y, m, h => by
    rw [fillRows]
    exact fillRows_keeps j a n _ _ (fillRow_keeps j y a _ _ _ h)

/-- The fill colours every shown pixel. -/
theorem fillRows_hit (j : FillJob) (x' y' : Nat) (hs : pixelShown j x' y' = true) (hx1 : j.dstX ≤ x') (hx2 : x' < j.dstX + j.sizeX) :
    ∀ (n y : Nat) (m : Mem), y ≤ y' → y' < y + n → (fillRows j n y m).read (pixelAddr j x' y') = j.color
  | 0, y, m, h1, h2 => by omega
  | n + 1, y, m, h1, h2 => by
    rw [fillRows]
    by_cases hy : y' = y
    · subst hy
      exact fillRows_keeps j _ n _ _ (fillRow_hit j y' x' hs _ _ _ hx1 hx2)
    · exact fillRows_hit j x' y' hs hx1 hx2 n (y + 1) _ (by omega) (by omega)

/-- The fill keeps the canonical form and the range of video memory. -/
theorem fillRow_wf (j : FillJob) (y : Nat) : ∀ (n x : Nat) (m : Mem), m.wf = true → (fillRow j y n x m).wf = true
  | 0, _, _, h => h
  | n + 1, x, m, h => by
    rw [fillRow]
    apply fillRow_wf
    split
    · exact Mem.wf_write _ _ h
    · exact h

theorem fillRow_below (j : FillJob) (hj : 0 < j.vramSize) (y : Nat) : ∀ (n x : Nat) (m : Mem), m.below j.vramSize = true →
    (fillRow j y n x m).below j.vramSize = true
  | 0, _, _, h => h
  | n + 1, x, m, h => by
    rw [fillRow]
    apply fillRow_below j hj
    split
    · exact Mem.below_write _ h (Nat.mod_lt _ hj)
    · exact h

theorem fillRows_wf (j : FillJob) : ∀ (n y : Nat) (m : Mem), m.wf = true → (fillRows j n y m).wf = true
  | 0, _, _, h => h
  | n + 1, y, m, h => by
    rw [fillRows]
    exact fillRows_wf j n _ _ (fillRow_wf j y _ _ _ h)

theorem fillRows_below (j : FillJob) (hj : 0 < j.vramSize) : ∀ (n y : Nat) (m : Mem), m.below j.vramSize = true →
    (fillRows j n y m).below j.vramSize = true
  | 0, _, _, h => h
  | n + 1, y, m, h => by
    rw [fillRows]
    exact fillRows_below j hj n _ _ (fillRow_below j hj y _ _ _ h)

/-! ## The triggers -/

/-- What starts a job: an idle engine and a start bit that goes from 0 to 1 (R272, R277). -/
theorem d2Trigger_starts {f : RegField} {old new : Bool} {s : State} (h : s.d2Busy = false ∧ old = false ∧ new = true) :
    d2Trigger f old new s = d2Complete f (d2Run f (s.setD2Busy true)) := if_pos h

theorem d2Trigger_rests {f : RegField} {old new : Bool} {s : State} (h : ¬ (s.d2Busy = false ∧ old = false ∧ new = true)) :
    d2Trigger f old new s = s := if_neg h

theorem d3Trigger_starts {f : RegField} {old new : Bool} {s : State} (h : s.d3Busy = false ∧ old = false ∧ new = true) :
    d3Trigger f old new s = d3Complete f (((s.setD3Busy true).setD3Batch (d3Capture s)).emit (.tri3DBatch (d3Capture s))) := if_pos h

theorem d3Trigger_rests {f : RegField} {old new : Bool} {s : State} (h : ¬ (s.d3Busy = false ∧ old = false ∧ new = true)) :
    d3Trigger f old new s = s := if_neg h

/-- A 2D trigger changes the window, video memory and the busy flag alone. -/
theorem d2Trigger_frame (f : RegField) (old new : Bool) (s : State) :
    d2Trigger f old new s = { s with
      rb := (d2Trigger f old new s).rb, vram := (d2Trigger f old new s).vram, d2Busy := (d2Trigger f old new s).d2Busy } := by
  unfold d2Trigger d2Run
  split
  · split <;> rfl
  · rfl

/-- A 3D trigger changes the window, the busy flag, the captured block and the events alone. -/
theorem d3Trigger_frame (f : RegField) (old new : Bool) (s : State) :
    d3Trigger f old new s = { s with
      rb := (d3Trigger f old new s).rb, d3Busy := (d3Trigger f old new s).d3Busy, d3Batch := (d3Trigger f old new s).d3Batch,
      events := (d3Trigger f old new s).events } := by
  by_cases h : s.d3Busy = false ∧ old = false ∧ new = true
  · rw [d3Trigger_starts h]
    generalize d3Capture s = block
    simp only [d3Complete, State.clearStartBit, State.setRb, State.setD3Busy, State.setD3Batch, State.emit]
  · rw [d3Trigger_rests h]

/-- The field values of a state depend on the window and the configuration alone. -/
theorem State.idVal_congr {s t : State} (h1 : s.cfg = t.cfg) (h2 : s.rb = t.rb) (i : FieldId) : s.idVal i = t.idVal i := by
  unfold State.idVal State.fieldVal
  rw [h1, h2]

end Sys2Proof.Machine
end

