-- ==== Sys2Proof/Laws/HostBus.lean ====
section
/-! SUPPORT. Where a host memory access goes (spec/20_memory.md R64, R67, R68): the four cases of `target`, which together are all. -/

namespace Sys2Proof.Machine

theorem mem_claimants {s : State} {a : Nat} {p : Aperture} : p ∈ claimants s a ↔ claims s a p = true := by
  unfold claimants
  rw [List.mem_filter]
  exact ⟨fun h => h.2, fun h => ⟨by cases p <;> decide, h⟩⟩

/-- Two different claimants of one address are two entries of its list. -/
theorem two_le_claimants {s : State} {a : Nat} : 2 ≤ (claimants s a).length ↔
    ∃ p q, p ≠ q ∧ claims s a p = true ∧ claims s a q = true := by
  have hn : (claimants s a).Nodup := List.Nodup.filter _ (by decide)
  constructor
  · intro h
    match hl : claimants s a, hn, h with
    | x :: y :: l, hn, _ =>
      refine ⟨x, y, fun e => by subst e; simp at hn, ?_, ?_⟩ <;> rw [← mem_claimants, hl] <;> simp
  · rintro ⟨p, q, hne, hp, hq⟩
    rw [← mem_claimants] at hp hq
    match hl : claimants s a, hp, hq with
    | [], hp, _ => cases hp
    | [x], hp, hq =>
      rw [List.mem_singleton] at hp hq
      exact absurd (hp.trans hq.symm) hne
    | _ :: _ :: l, _, _ => simp

/-- R67: all bytes inside one enabled aperture, no other claiming any. -/
theorem target_aperture {s : State} {ap : Aperture} {addr : Nat} (n : Width) (hen : (s.ap.get ap).en = true)
    (h1 : (s.ap.get ap).base.toNat ≤ addr) (h2 : addr + n.bytes ≤ (s.ap.get ap).base.toNat + s.cfg.apSize ap)
    (h3 : addr + n.bytes ≤ 2 ^ 32) (h4 : ∀ q k, q ≠ ap → k < n.bytes → claims s (addr + k) q = false) :
    target s addr n.bytes = .aperture ap (addr - (s.ap.get ap).base.toNat) := by
  have key : ∀ k, k < n.bytes → claimants s (addr + k) = [ap] := by
    intro k hk
    have hap : claims s (addr + k) ap = true := by
      simp only [claims, hen, Bool.true_and, decide_eq_true_eq]
      omega
    have hq := fun q hq => h4 q k hq hk
    unfold claimants Aperture.all
    cases ap <;> simp [List.filter, hap, hq]
  have hl : (List.range n.bytes).map (fun k => claimants s (addr + k)) = (List.range n.bytes).map (fun _ => [ap]) :=
    List.map_congr_left (fun k hk => key k (List.mem_range.1 hk))
  unfold target
  rw [hl]
  cases n <;> simp [Width.bytes, List.range_succ]

/-- R67: no byte claimed. -/
theorem target_elsewhere {s : State} {addr : Nat} (n : Width)
    (h : ∀ q k, k < n.bytes → claims s (addr + k) q = false) : target s addr n.bytes = .elsewhere := by
  have hl : (List.range n.bytes).map (fun k => claimants s (addr + k)) = (List.range n.bytes).map (fun _ => []) :=
    List.map_congr_left (fun k hk => by simp [claimants, Aperture.all, List.filter, h _ k (List.mem_range.1 hk)])
  unfold target
  rw [hl]
  cases n <;> simp [Width.bytes, List.range_succ]

/-- R68: a byte claimed twice. -/
theorem target_overlap {s : State} {addr n : Nat}
    (h : ∃ p q k, p ≠ q ∧ k < n ∧ claims s (addr + k) p = true ∧ claims s (addr + k) q = true) :
    target s addr n = .refused .apertureOverlap := by
  obtain ⟨p, q, k, hne, hk, hp, hq⟩ := h
  refine if_pos ?_
  rw [List.any_eq_true]
  exact ⟨_, List.mem_map.2 ⟨k, List.mem_range.2 hk, rfl⟩, decide_eq_true (two_le_claimants.2 ⟨p, q, hne, hp, hq⟩)⟩

/-- R64: no byte claimed twice, one byte in an aperture and another outside it. -/
theorem target_edge {s : State} {addr n : Nat}
    (h : ∀ p q k, p ≠ q → k < n → ¬ (claims s (addr + k) p = true ∧ claims s (addr + k) q = true))
    (hpart : ∃ p j k, j < n ∧ claims s (addr + j) p = true ∧ k < n ∧ claims s (addr + k) p = false) :
    target s addr n = .refused .apertureEdge := by
  obtain ⟨p, j, k, hj, hp, hk, hn⟩ := hpart
  have hpm := mem_claimants.2 hp
  have hnm : p ∉ claimants s (addr + k) := fun h => by rw [mem_claimants.1 h] at hn; cases hn
  have hany : ((List.range n).map (fun k => claimants s (addr + k))).any (fun l => decide (2 ≤ l.length)) = false := by
    rw [List.any_eq_false]
    intro l hl
    obtain ⟨i, hi, rfl⟩ := List.mem_map.1 hl
    rw [decide_eq_true_eq, two_le_claimants]
    rintro ⟨x, y, hne, hx, hy⟩
    exact h x y i hne (List.mem_range.1 hi) ⟨hx, hy⟩
  have hall : ((List.range n).map (fun k => claimants s (addr + k))).all (fun l => l.isEmpty) = false := by
    rw [List.all_eq_false]
    refine ⟨_, List.mem_map.2 ⟨j, List.mem_range.2 hj, rfl⟩, fun h => ?_⟩
    rw [List.isEmpty_iff.1 h] at hpm
    cases hpm
  unfold target
  simp only [hany, hall, Bool.false_eq_true, if_false]
  split
  · rw [if_neg]
    rw [List.all_eq_true]
    intro h
    have h1 := h _ (List.mem_map.2 ⟨j, List.mem_range.2 hj, rfl⟩)
    have h2 := h _ (List.mem_map.2 ⟨k, List.mem_range.2 hk, rfl⟩)
    rw [decide_eq_true_eq] at h1 h2
    rw [h1, ← h2] at hpm
    exact hnm hpm
  · rfl

end Sys2Proof.Machine
end

