-- ==== Sys2Proof/Laws/PerInstr.lean ====
section
/-! SUPPORT. A statement made of every operation, one lemma per operation. -/

namespace Sys2Proof.Laws

/-- How an operation is laid out: a transaction or event is a descriptor byte with bit 0 clear (spec/30_encoding.md R91) and at most
eight bytes of operands; a packet is a header slot of eight bytes (R92). -/
def encodingShape.Statement (i : Instr) : Prop :=
  match i.packet? with
  | none => ∃ d r, encode i = d :: r ∧ d.getLsbD 0 = false ∧ r.length ≤ 8
  | some _ => (encode i).length = 8

theorem encodingShape.mmioR8 : ∀ o, encodingShape.Statement (.mmioR8 o) := fun _ => ⟨_, _, rfl, rfl, Nat.le_of_ble_eq_true rfl⟩
theorem encodingShape.mmioR16 : ∀ o, encodingShape.Statement (.mmioR16 o) := fun _ => ⟨_, _, rfl, rfl, Nat.le_of_ble_eq_true rfl⟩
theorem encodingShape.mmioR32 : ∀ o, encodingShape.Statement (.mmioR32 o) := fun _ => ⟨_, _, rfl, rfl, Nat.le_of_ble_eq_true rfl⟩
theorem encodingShape.mmioW8 : ∀ o v, encodingShape.Statement (.mmioW8 o v) := fun _ _ => ⟨_, _, rfl, rfl, Nat.le_of_ble_eq_true rfl⟩
theorem encodingShape.mmioW16 : ∀ o v, encodingShape.Statement (.mmioW16 o v) := fun _ _ => ⟨_, _, rfl, rfl, Nat.le_of_ble_eq_true rfl⟩
theorem encodingShape.mmioW32 : ∀ o v, encodingShape.Statement (.mmioW32 o v) := fun _ _ => ⟨_, _, rfl, rfl, Nat.le_of_ble_eq_true rfl⟩
theorem encodingShape.linR8 : ∀ off, encodingShape.Statement (.linR8 off) := fun _ => ⟨_, _, rfl, rfl, Nat.le_of_ble_eq_true rfl⟩
theorem encodingShape.linR16 : ∀ off, encodingShape.Statement (.linR16 off) := fun _ => ⟨_, _, rfl, rfl, Nat.le_of_ble_eq_true rfl⟩
theorem encodingShape.linR32 : ∀ off, encodingShape.Statement (.linR32 off) := fun _ => ⟨_, _, rfl, rfl, Nat.le_of_ble_eq_true rfl⟩
theorem encodingShape.linW8 : ∀ off v, encodingShape.Statement (.linW8 off v) := fun _ _ => ⟨_, _, rfl, rfl, Nat.le_of_ble_eq_true rfl⟩
theorem encodingShape.linW16 : ∀ off v, encodingShape.Statement (.linW16 off v) := fun _ _ => ⟨_, _, rfl, rfl, Nat.le_of_ble_eq_true rfl⟩
theorem encodingShape.linW32 : ∀ off v, encodingShape.Statement (.linW32 off v) := fun _ _ => ⟨_, _, rfl, rfl, Nat.le_of_ble_eq_true rfl⟩
theorem encodingShape.romR8 : ∀ off, encodingShape.Statement (.romR8 off) := fun _ => ⟨_, _, rfl, rfl, Nat.le_of_ble_eq_true rfl⟩
theorem encodingShape.romR16 : ∀ off, encodingShape.Statement (.romR16 off) := fun _ => ⟨_, _, rfl, rfl, Nat.le_of_ble_eq_true rfl⟩
theorem encodingShape.romR32 : ∀ off, encodingShape.Statement (.romR32 off) := fun _ => ⟨_, _, rfl, rfl, Nat.le_of_ble_eq_true rfl⟩
theorem encodingShape.romW8 : ∀ off v, encodingShape.Statement (.romW8 off v) := fun _ _ => ⟨_, _, rfl, rfl, Nat.le_of_ble_eq_true rfl⟩
theorem encodingShape.romW16 : ∀ off v, encodingShape.Statement (.romW16 off v) := fun _ _ => ⟨_, _, rfl, rfl, Nat.le_of_ble_eq_true rfl⟩
theorem encodingShape.romW32 : ∀ off v, encodingShape.Statement (.romW32 off v) := fun _ _ => ⟨_, _, rfl, rfl, Nat.le_of_ble_eq_true rfl⟩
theorem encodingShape.compR32 : ∀ off, encodingShape.Statement (.compR32 off) := fun _ => ⟨_, _, rfl, rfl, Nat.le_of_ble_eq_true rfl⟩
theorem encodingShape.compW32 : ∀ off v, encodingShape.Statement (.compW32 off v) := fun _ _ => ⟨_, _, rfl, rfl, Nat.le_of_ble_eq_true rfl⟩
theorem encodingShape.cfgR8 : ∀ reg, encodingShape.Statement (.cfgR8 reg) := fun _ => ⟨_, _, rfl, rfl, Nat.le_of_ble_eq_true rfl⟩
theorem encodingShape.cfgR16 : ∀ reg, encodingShape.Statement (.cfgR16 reg) := fun _ => ⟨_, _, rfl, rfl, Nat.le_of_ble_eq_true rfl⟩
theorem encodingShape.cfgR32 : ∀ reg, encodingShape.Statement (.cfgR32 reg) := fun _ => ⟨_, _, rfl, rfl, Nat.le_of_ble_eq_true rfl⟩
theorem encodingShape.cfgW8 : ∀ reg v, encodingShape.Statement (.cfgW8 reg v) := fun _ _ => ⟨_, _, rfl, rfl, Nat.le_of_ble_eq_true rfl⟩
theorem encodingShape.cfgW16 : ∀ reg v, encodingShape.Statement (.cfgW16 reg v) := fun _ _ => ⟨_, _, rfl, rfl, Nat.le_of_ble_eq_true rfl⟩
theorem encodingShape.cfgW32 : ∀ reg v, encodingShape.Statement (.cfgW32 reg v) := fun _ _ => ⟨_, _, rfl, rfl, Nat.le_of_ble_eq_true rfl⟩
theorem encodingShape.pumaR32 : ∀ a, encodingShape.Statement (.pumaR32 a) := fun _ => ⟨_, _, rfl, rfl, Nat.le_of_ble_eq_true rfl⟩
theorem encodingShape.pumaW32 : ∀ a v, encodingShape.Statement (.pumaW32 a v) := fun _ _ => ⟨_, _, rfl, rfl, Nat.le_of_ble_eq_true rfl⟩
theorem encodingShape.thpRd : ∀ a, encodingShape.Statement (.thpRd a) := fun _ => ⟨_, _, rfl, rfl, Nat.le_of_ble_eq_true rfl⟩
theorem encodingShape.thpWr : ∀ a v, encodingShape.Statement (.thpWr a v) := fun _ _ => ⟨_, _, rfl, rfl, Nat.le_of_ble_eq_true rfl⟩
theorem encodingShape.reset : encodingShape.Statement (.reset) := ⟨_, _, rfl, rfl, Nat.le_of_ble_eq_true rfl⟩
theorem encodingShape.vsync : encodingShape.Statement (.vsync) := ⟨_, _, rfl, rfl, Nat.le_of_ble_eq_true rfl⟩
theorem encodingShape.swapReq : encodingShape.Statement (.swapReq) := ⟨_, _, rfl, rfl, Nat.le_of_ble_eq_true rfl⟩
theorem encodingShape.swapPend : encodingShape.Statement (.swapPend) := ⟨_, _, rfl, rfl, Nat.le_of_ble_eq_true rfl⟩
theorem encodingShape.cfProcess : encodingShape.Statement (.cfProcess) := ⟨_, _, rfl, rfl, Nat.le_of_ble_eq_true rfl⟩
theorem encodingShape.nop : encodingShape.Statement (.nop) := rfl
theorem encodingShape.wrgRejected : ∀ hi reg lo, encodingShape.Statement (.wrgRejected hi reg lo) := fun _ _ _ => rfl
theorem encodingShape.wrg : ∀ hi reg lo mask, encodingShape.Statement (.wrg hi reg lo mask) := fun _ _ _ _ => rfl
theorem encodingShape.wr : ∀ hi reg lo data, encodingShape.Statement (.wr hi reg lo data) := fun _ _ _ _ => rfl

end Sys2Proof.Laws
end

