-- ==== Sys2Proof/Laws/RegBank.lean ====
section
/-! SUPPORT. What a register-window access can do to the state, and what it does at an offset that only stores. -/

namespace Sys2Proof.Machine

/-! ## Byte reads -/

/-- A byte read changes the stage, the handshake flags, which only ever become set, and the diagnostic stream alone. -/
theorem mmioRead8_frame {o : Nat} {b : Byte} {s t : State} (h : mmioRead8 o s = .ok (b, t)) :
    t = { s with thpStage := t.thpStage, thpRequest := t.thpRequest, thpGrant := t.thpGrant, diags := t.diags }
    ∧ (s.thpRequest = true → t.thpRequest = true) ∧ (s.thpGrant = true → t.thpGrant = true) := by
  unfold mmioRead8 at h
  split at h
  · split at h
    · exact thpDataReadByte_frame h
    · cases h; exact ⟨rfl, id, id⟩
  · cases h; exact ⟨rfl, id, id⟩

/-- A byte outside `THP_DATA` reads as stored. -/
theorem mmioRead8_stored {o : Nat} {s : State} (h : storedOffset s.cfg o) : mmioRead8 o s = .ok (s.rb.read o, s) := by
  unfold mmioRead8
  cases e : fieldAt s.cfg o with
  | none => rfl
  | some p => obtain ⟨f, i⟩ := p; simp [h f i e]

/-- A wide read changes what a byte read changes. -/
theorem mmioRead_frame {o : Nat} {n : Width} {bs : List Byte} {s t : State} (h : mmioRead o n s = .ok (bs, t)) :
    t = { s with thpStage := t.thpStage, thpRequest := t.thpRequest, thpGrant := t.thpGrant, diags := t.diags }
    ∧ (s.thpRequest = true → t.thpRequest = true) ∧ (s.thpGrant = true → t.thpGrant = true) := by
  unfold mmioRead at h
  split at h
  · cases h
  · refine readBytes_rel (R := fun s t =>
      t = { s with thpStage := t.thpStage, thpRequest := t.thpRequest, thpGrant := t.thpGrant, diags := t.diags }
      ∧ (s.thpRequest = true → t.thpRequest = true) ∧ (s.thpGrant = true → t.thpGrant = true))
      (fun s => ⟨rfl, id, id⟩) ?_ (fun _ _ _ _ e => mmioRead8_frame e) _ _ _ _ _ h
    rintro s t u ⟨h1, h2, h3⟩ ⟨h4, h5, h6⟩
    refine ⟨?_, fun e => h5 (h2 e), fun e => h6 (h3 e)⟩
    rw [h4, h1]

/-! ## Byte writes -/

theorem recalcEvent_eq (f : RegField) (s : State) :
    recalcEvent f s = { s with events := s.events ++ if f.recalc = true then [.recalcTimings] else [] } := by
  unfold recalcEvent
  split
  · rfl
  · simp

/-- What a last-byte action can change: not the configuration, the configuration space, the apertures, the stage, the swap scheduler,
the reply or the waiting requests. -/
theorem lastByteAction_frame {f : RegField} {old v : Byte} {s t : State} (h : lastByteAction f old v s = .ok t) :
    t = { s with
      rb := t.rb, vram := t.vram, comp := t.comp, tex := t.tex, bridgeEn := t.bridgeEn, thpRequest := t.thpRequest,
      thpGrant := t.thpGrant, cfEnabled := t.cfEnabled, cfBottom := t.cfBottom, cfTop := t.cfTop, cfThreshold := t.cfThreshold,
      cfReadPtr := t.cfReadPtr, cfEntryCount := t.cfEntryCount, cfThreshStatus := t.cfThreshStatus, d2Busy := t.d2Busy,
      d3Busy := t.d3Busy, d3Batch := t.d3Batch, diags := t.diags, events := t.events }
    ∧ (s.thpRequest = true → t.thpRequest = true) ∧ (s.thpGrant = true → t.thpGrant = true) := by
  unfold lastByteAction at h
  split at h
  · cases h; exact ⟨rfl, id, id⟩
  · cases h
    refine ⟨?_, ?_⟩
    · conv_lhs => rw [d2Trigger_frame]
      rw [d2Trigger_frame]
    · rw [d2Trigger_frame]; exact ⟨id, id⟩
  · cases h
    refine ⟨?_, ?_⟩
    · conv_lhs => rw [d3Trigger_frame]
      rw [d3Trigger_frame]
    · rw [d3Trigger_frame]; exact ⟨id, id⟩
  · cases h; unfold thpCtrlTrigger; split <;> exact ⟨rfl, id, id⟩
  · cases h; exact ⟨rfl, id, id⟩
  · cases h; exact ⟨rfl, id, id⟩
  · have := thpIndirectWrite_frame h
    refine ⟨?_, this.2⟩
    rw [this.1]
  · cases h; exact ⟨rfl, id, id⟩
  · cases h; exact ⟨rfl, id, id⟩
  · cases h; exact ⟨rfl, id, id⟩

/-- What a byte write can change, and what it does not. -/
theorem mmioWrite8_frame {o : Nat} {v : Byte} {s t : State} (h : mmioWrite8 o v s = .ok t) :
    t = { s with
      rb := t.rb, vram := t.vram, comp := t.comp, tex := t.tex, bridgeEn := t.bridgeEn, thpRequest := t.thpRequest,
      thpGrant := t.thpGrant, cfEnabled := t.cfEnabled, cfBottom := t.cfBottom, cfTop := t.cfTop, cfThreshold := t.cfThreshold,
      cfReadPtr := t.cfReadPtr, cfEntryCount := t.cfEntryCount, cfThreshStatus := t.cfThreshStatus, d2Busy := t.d2Busy,
      d3Busy := t.d3Busy, d3Batch := t.d3Batch, diags := t.diags, events := t.events }
    ∧ (s.thpRequest = true → t.thpRequest = true) ∧ (s.thpGrant = true → t.thpGrant = true) := by
  unfold mmioWrite8 at h
  split at h
  · cases h; exact ⟨rfl, id, id⟩
  · rename_i f i _
    have hr := recalcEvent_eq f (s.setRb o v)
    split at h
    · have := lastByteAction_frame h
      rw [hr] at this
      refine ⟨?_, this.2⟩
      rw [this.1]
      rfl
    · cases h
      rw [hr]
      exact ⟨rfl, id, id⟩

/-- A write inside the window is its byte writes; past the window's edge it is refused (R126, R132). -/
theorem mmioWrite_inside {o : Nat} {bs : List Byte} (s : State) (h : o + bs.length ≤ winSize) :
    mmioWrite o bs s = writeBytes mmioWrite8 bs o s := if_neg (by omega)

theorem mmioWrite_outside {o : Nat} {bs : List Byte} (s : State) (h : winSize < o + bs.length) :
    mmioWrite o bs s = .error .windowEdge := if_pos h

/-- A wide write changes what a byte write can change. -/
theorem mmioWrite_frame {o : Nat} {bs : List Byte} {s t : State} (h : mmioWrite o bs s = .ok t) :
    t = { s with
      rb := t.rb, vram := t.vram, comp := t.comp, tex := t.tex, bridgeEn := t.bridgeEn, thpRequest := t.thpRequest,
      thpGrant := t.thpGrant, cfEnabled := t.cfEnabled, cfBottom := t.cfBottom, cfTop := t.cfTop, cfThreshold := t.cfThreshold,
      cfReadPtr := t.cfReadPtr, cfEntryCount := t.cfEntryCount, cfThreshStatus := t.cfThreshStatus, d2Busy := t.d2Busy,
      d3Busy := t.d3Busy, d3Batch := t.d3Batch, diags := t.diags, events := t.events }
    ∧ (s.thpRequest = true → t.thpRequest = true) ∧ (s.thpGrant = true → t.thpGrant = true) := by
  unfold mmioWrite at h
  split at h
  · cases h
  · refine writeBytes_rel (R := fun s t =>
      t = { s with
        rb := t.rb, vram := t.vram, comp := t.comp, tex := t.tex, bridgeEn := t.bridgeEn, thpRequest := t.thpRequest,
        thpGrant := t.thpGrant, cfEnabled := t.cfEnabled, cfBottom := t.cfBottom, cfTop := t.cfTop, cfThreshold := t.cfThreshold,
        cfReadPtr := t.cfReadPtr, cfEntryCount := t.cfEntryCount, cfThreshStatus := t.cfThreshStatus, d2Busy := t.d2Busy,
        d3Busy := t.d3Busy, d3Batch := t.d3Batch, diags := t.diags, events := t.events }
      ∧ (s.thpRequest = true → t.thpRequest = true) ∧ (s.thpGrant = true → t.thpGrant = true))
      (fun s => ⟨rfl, id, id⟩) ?_ _ _ _ _ (fun _ _ _ _ _ _ e => mmioWrite8_frame e) h
    rintro s t u ⟨h1, h2, h3⟩ ⟨h4, h5, h6⟩
    refine ⟨?_, fun e => h5 (h2 e), fun e => h6 (h3 e)⟩
    rw [h4, h1]

/-- A byte write at a quiet offset stores its byte and emits its recalculate event (R122, R130). -/
theorem mmioWrite8_quiet {o : Nat} (v : Byte) {s : State} (h : quietOffset s.cfg o) :
    mmioWrite8 o v s = .ok { s with rb := s.rb.write o v, events := s.events ++ recalcAt s.cfg o } := by
  unfold mmioWrite8 recalcAt
  cases e : fieldAt s.cfg o with
  | none => simp [State.setRb]
  | some p =>
    obtain ⟨f, i⟩ := p
    have hr := recalcEvent_eq f (s.setRb o v)
    dsimp only
    split
    · rename_i hl
      rcases h f i e with h1 | h1 | h1
      · exact absurd hl h1
      · simp only [lastByteAction, h1, hr]; rfl
      · simp only [lastByteAction, h1, hr]; rfl
    · rw [hr]; rfl

@[simp] theorem halfBytes_length (v : Half) : (halfBytes v).length = 2 := rfl
@[simp] theorem wordBytes_length (v : Word) : (wordBytes v).length = 4 := rfl

theorem halfBytes_getD (v : Half) {k : Nat} (h : k < 2) : (halfBytes v).getD k 0 = lane v k := by
  interval_cases k <;> rfl

theorem wordBytes_getD (v : Word) {k : Nat} (h : k < 4) : (wordBytes v).getD k 0 = lane v k := by
  interval_cases k <;> rfl

/-- Byte writes at quiet offsets store their bytes and emit their recalculate events in order (R126, R130). -/
theorem writeBytes_quiet : ∀ (bs : List Byte) (a : Nat) (u : State), (∀ k, k < bs.length → quietOffset u.cfg (a + k)) →
    ∃ t, writeBytes mmioWrite8 bs a u = .ok t
      ∧ t = { u with rb := t.rb, events := u.events ++ (List.range bs.length).flatMap (fun k => recalcAt u.cfg (a + k)) }
      ∧ ∀ b, t.rb.read b = if a ≤ b ∧ b < a + bs.length then bs.getD (b - a) 0 else u.rb.read b
  | [], a, u, _ => ⟨u, rfl, by simp, fun b => by
      have hl : ¬ (a ≤ b ∧ b < a + ([] : List Byte).length) := by rw [List.length_nil]; omega
      rw [if_neg hl]⟩
  | v :: bs, a, u, h => by
    have h0 := h 0 (by simp)
    rw [Nat.add_zero] at h0
    have h1 := mmioWrite8_quiet v h0
    obtain ⟨t, e1, e2, e3⟩ := writeBytes_quiet bs (a + 1) { u with rb := u.rb.write a v, events := u.events ++ recalcAt u.cfg a }
      (fun k hk => by
        have := h (k + 1) (by rw [List.length_cons]; omega)
        rwa [show a + (k + 1) = a + 1 + k by omega] at this)
    refine ⟨t, ?_, ?_, ?_⟩
    · rw [writeBytes, h1]
      exact e1
    · rw [e2]
      simp only [List.length_cons, List.range_succ_eq_map, List.flatMap_cons, List.flatMap_map, Nat.add_zero, List.append_assoc,
        Nat.succ_eq_add_one, Nat.add_assoc, Nat.add_comm 1]
    · intro b
      rw [e3, Mem.read_write]
      have hiff : (a + 1 ≤ b ∧ b < a + 1 + bs.length) ↔ (a ≤ b ∧ b < a + (v :: bs).length) ∧ b ≠ a := by
        rw [List.length_cons]
        omega
      by_cases hb : b = a
      · subst hb
        have hl : b ≤ b ∧ b < b + (v :: bs).length := by rw [List.length_cons]; omega
        have hn : ¬ (b + 1 ≤ b ∧ b < b + 1 + bs.length) := by omega
        rw [if_neg hn, if_pos rfl, if_pos hl, Nat.sub_self]
        rfl
      · by_cases hc : a + 1 ≤ b ∧ b < a + 1 + bs.length
        · rw [if_pos hc, if_pos (hiff.1 hc).1]
          obtain ⟨k, rfl⟩ : ∃ k, b = a + 1 + k := ⟨b - (a + 1), by omega⟩
          rw [show a + 1 + k - (a + 1) = k by omega, show a + 1 + k - a = k + 1 by omega]
          rfl
        · rw [if_neg hc, if_neg (fun x => hc (hiff.2 ⟨x, hb⟩)), if_neg hb]

/-- A byte write at a field's last byte is its store, its recalculate event and the field's action (R122, R123). -/
theorem mmioWrite8_last {o : Nat} (v : Byte) {s : State} {f : RegField} {i : Nat} (h : fieldAt s.cfg o = some (f, i))
    (hl : i + 1 = f.width) :
    mmioWrite8 o v s = lastByteAction f (s.rb.read o) v
      { s with rb := s.rb.write o v, events := s.events ++ recalcAt s.cfg o } := by
  unfold mmioWrite8 recalcAt
  simp only [h, hl, if_true, recalcEvent_eq]
  rfl

/-- One register-window write of one byte is that byte's write. -/
theorem execMmioW8_eq (o : BitVec 16) (v : Byte) (s : State) : execMmioW8 o v s = finish (mmioWrite8 o.toNat v s) := by
  have ho := o.isLt
  have : ¬ winSize < o.toNat + 1 := by unfold winSize; omega
  unfold execMmioW8 mmioWrite
  simp only [List.length_singleton, this, if_false, writeBytes]
  cases mmioWrite8 o.toNat v s <;> rfl

/-- One register-window read of one byte at an offset that is not of `THP_DATA`. -/
theorem execMmioR8_stored {o : BitVec 16} {s : State} (h : storedOffset s.cfg o.toNat) :
    execMmioR8 o s = .next (s.setReply (.r8 (s.rb.read o.toNat))) := by
  have ho := o.isLt
  have : ¬ winSize < o.toNat + 1 := by unfold winSize; omega
  simp [execMmioR8, mmioRead, Width.bytes, this, readBytes, mmioRead8_stored h, replyOf]

/-! ## Wide reads -/

/-- What the register window reads does not depend on the last reply. -/
theorem mmioRead8_setReply (o : Nat) (s : State) (r : Reply) :
    mmioRead8 o (s.setReply r) = (mmioRead8 o s).map (fun p => (p.1, p.2.setReply r)) := by
  have hp : ∀ a, pumaRead a (s.setReply r) = (pumaRead a s).map (fun p => (p.1, p.2.setReply r)) := by
    intro a
    unfold pumaRead
    simp only [State.setReply_cfg]
    cases classify s.cfg a <;> dsimp only <;> first | rfl | (split <;> rfl)
  have hi : thpIndirectRead (s.setReply r) = (thpIndirectRead s).map (fun t => t.setReply r) := by
    unfold thpIndirectRead
    have hg : bridgeGate (s.setReply r) = bridgeGate s := rfl
    have ha : thpAddr (s.setReply r) = thpAddr s := rfl
    rw [hg, ha]
    cases bridgeGate s with
    | some d => rfl
    | none =>
      dsimp only
      rw [hp]
      cases pumaRead (thpAddr s) s <;> rfl
  unfold mmioRead8
  simp only [State.setReply_cfg]
  split
  · split
    · unfold thpDataReadByte
      split
      · rw [hi]
        cases thpIndirectRead s <;> rfl
      · rfl
    · rfl
  · rfl

/-- One register-window read of one byte is that byte's read. -/
theorem execMmioR8_eq (o : BitVec 16) (s : State) : execMmioR8 o s = (match mmioRead8 o.toNat s with
    | .ok (b, t) => .next (t.setReply (.r8 b))
    | .error r => .refused r) := by
  have ho := o.isLt
  have hw : ¬ winSize < o.toNat + Width.w1.bytes := by
    show ¬ 65536 < o.toNat + 1
    omega
  unfold execMmioR8 mmioRead
  rw [if_neg hw]
  simp only [Width.bytes, readBytes]
  cases mmioRead8 o.toNat s with
  | error r => rfl
  | ok p => obtain ⟨b, t⟩ := p; rfl

/-- What follows a byte read inside a wide one sees the state the byte read left, but for its reply (R125). -/
theorem readThen_mmioR8 (o : BitVec 16) (s : State) (k : State → Byte → Result) :
    readThen (execMmioR8 o s) k = (match mmioRead8 o.toNat s with
      | .ok (b, t) => k (t.setReply (.r8 b)) b
      | .error r => .refused r) := by
  rw [execMmioR8_eq]
  cases mmioRead8 o.toNat s with
  | error r => rfl
  | ok p => obtain ⟨b, t⟩ := p; rfl

end Sys2Proof.Machine
end

