-- ==== Sys2Proof/Laws/Step.lean ====
section
/-! SUPPORT. What one step can be, and what each group of operations can change, over all their operands. -/

namespace Sys2Proof.Machine

/-! ## Where the operations of a step come from -/

theorem oneArg_ok {α : Type} {p : List Byte → Parsed α} {k : α → Instr} {bs rest : List Byte} {i : Instr}
    (h : oneArg p k bs = .ok (i, rest)) : ∃ a, i = k a := by
  unfold oneArg at h
  split at h
  · cases h
  · rename_i a r _
    cases h
    exact ⟨a, rfl⟩

theorem twoArgs_ok {α β : Type} {p : List Byte → Parsed α} {q : List Byte → Parsed β} {k : α → β → Instr} {bs rest : List Byte}
    {i : Instr} (h : twoArgs p q k bs = .ok (i, rest)) : ∃ a b, i = k a b := by
  unfold twoArgs at h
  split at h
  · cases h
  · obtain ⟨b, hb⟩ := oneArg_ok h
    exact ⟨_, b, hb⟩

/-- An operation stream holds transactions and events, never packets. -/
theorem decodeOp_packet? {bs rest : List Byte} {i : Instr} (h : decodeOp bs = .ok (i, rest)) : i.packet? = none := by
  cases bs with
  | nil => cases h
  | cons d bs =>
    simp only [decodeOp, decodeOperands] at h
    split at h
    all_goals first
      | (obtain ⟨a, rfl⟩ := oneArg_ok h; rfl)
      | (obtain ⟨a, b, rfl⟩ := twoArgs_ok h; rfl)
      | (cases h; rfl)
      | (cases h)

theorem readInstr_packet? {ap : Aperture} {off : Nat} {n : Width} {i : Instr} (h : readInstr ap off n = .ok i) : i.packet? = none := by
  cases ap <;> cases n <;> cases h <;> rfl

theorem writeInstr_packet? {ap : Aperture} {off : Nat} {n : Width} {v : Word} {i : Instr} (h : writeInstr ap off n v = .ok i) :
    i.packet? = none := by
  cases ap <;> cases n <;> cases h <;> rfl

theorem runTarget_next {tg : Target} {mk : Aperture → Nat → Except Refusal Instr} {s t : State} (h : runTarget tg mk s = .next t) :
    t = s ∨ ∃ ap off i, mk ap off = .ok i ∧ exec i s = .next t := by
  unfold runTarget at h
  split at h
  · cases h; exact Or.inl rfl
  · cases h
  · rename_i ap off
    split at h
    · cases h
    · rename_i i e
      exact Or.inr ⟨ap, off, i, e, h⟩

/-- A step runs one transaction or event on the state with the request taken, or changes the waiting requests, the reply and the
diagnostic stream alone. -/
theorem step_next {s t : State} (h : step s = .next t) :
    t = { s with bus := t.bus, reply := t.reply, diags := t.diags }
      ∨ ∃ i b, i.packet? = none ∧ exec i { s with bus := b, reply := none } = .next t := by
  unfold step at h
  split at h
  · cases h; exact Or.inl rfl
  · rename_i r rest hb
    cases r with
    | ops bytes =>
      simp only [runRequest, runOps] at h
      split at h
      · cases h; exact Or.inl rfl
      · split at h
        · cases h
        · rename_i i r' e
          split at h
          · exact Or.inr ⟨i, _, decodeOp_packet? e, h⟩
          · cases h
    | memRead addr n =>
      simp only [runRequest, memRead] at h
      rcases runTarget_next h with rfl | ⟨ap, off, i, e, hi⟩
      · exact Or.inl rfl
      · exact Or.inr ⟨i, rest, readInstr_packet? e, hi⟩
    | memWrite addr n v =>
      simp only [runRequest, memWrite] at h
      rcases runTarget_next h with rfl | ⟨ap, off, i, e, hi⟩
      · exact Or.inl rfl
      · exact Or.inr ⟨i, rest, writeInstr_packet? e, hi⟩
    | confRead fn reg n =>
      simp only [runRequest, confAccessRead] at h
      split at h
      · cases n
        · exact Or.inr ⟨.cfgR8 reg, rest, rfl, h⟩
        · exact Or.inr ⟨.cfgR16 reg, rest, rfl, h⟩
        · exact Or.inr ⟨.cfgR32 reg, rest, rfl, h⟩
      · split at h
        · cases h
        · obtain ⟨bs, u, e, rfl⟩ := finishRead_next h
          refine Or.inl ?_
          have hu := readBytes_rel (R := fun s t => t = { s with diags := t.diags }) (fun _ => rfl)
            (fun a b c h1 h2 => by rw [h2, h1]) (fun _ _ _ _ e => by cases e; rfl) _ _ _ _ _ e
          rw [hu]
          rfl
    | confWrite fn reg n v =>
      simp only [runRequest, confAccessWrite] at h
      split at h
      · cases n
        · exact Or.inr ⟨.cfgW8 reg _, rest, rfl, h⟩
        · exact Or.inr ⟨.cfgW16 reg _, rest, rfl, h⟩
        · exact Or.inr ⟨.cfgW32 reg _, rest, rfl, h⟩
      · split at h
        · cases h
        · refine Or.inl ?_
          have hu := writeBytes_rel (R := fun s t => t = { s with diags := t.diags }) (fun _ => rfl)
            (fun a b c h1 h2 => by rw [h2, h1]) _ _ _ _ (fun _ _ _ _ _ _ e => by cases e; rfl) (finish_next h)
          rw [hu]

/-! ## Accesses that change little -/

theorem linRead_same {off : Nat} {n : Width} {bs : List Byte} {s t : State} (h : linRead off n s = .ok (bs, t)) : t = s := by
  unfold linRead at h
  split at h
  · cases h
  · exact readBytes_rel (R := fun s t => t = s) (fun _ => rfl) (fun _ _ _ h1 h2 => h2.trans h1) (fun _ _ _ _ e => by cases e; rfl)
      _ _ _ _ _ h

theorem romRead_same {off : Nat} {n : Width} {bs : List Byte} {s t : State} (h : romRead off n s = .ok (bs, t)) : t = s := by
  unfold romRead at h
  split at h
  · cases h
  · exact readBytes_rel (R := fun s t => t = s) (fun _ => rfl) (fun _ _ _ h1 h2 => h2.trans h1) (fun _ _ _ _ e => by cases e; rfl)
      _ _ _ _ _ h

theorem confRead_same {reg : Nat} {n : Width} {bs : List Byte} {s t : State} (h : confRead reg n s = .ok (bs, t)) : t = s := by
  unfold confRead at h
  split at h
  · cases h
  · exact readBytes_rel (R := fun s t => t = s) (fun _ => rfl) (fun _ _ _ h1 h2 => h2.trans h1) (fun _ _ _ _ e => by cases e; rfl)
      _ _ _ _ _ h

theorem romWrite_same {off : Nat} {n : Width} {s t : State} (h : romWrite off n s = .ok t) : t = s := by
  unfold romWrite at h
  split at h <;> cases h
  rfl

/-- A Linear write changes video memory alone. -/
theorem linWrite_frame {off : Nat} {bs : List Byte} {s t : State} (h : linWrite off bs s = .ok t) : t = { s with vram := t.vram } := by
  unfold linWrite at h
  split at h
  · cases h
  · exact writeBytes_rel (R := fun s t => t = { s with vram := t.vram }) (fun _ => rfl) (fun _ _ _ h1 h2 => by rw [h2, h1]) _ _ _ _
      (fun _ _ _ _ _ _ e => by cases e; rfl) h

/-- A packet executed as an operation of its own is that packet taken at the read pointer. -/
theorem exec_packet {i : Instr} {p : Packet} (h : i.packet? = some p) (s : State) : exec i s = .next (takePacket p s).state := by
  cases i <;> simp [Instr.packet?] at h <;> subst h <;> rfl

/-- A configuration byte write as an operation. -/
theorem exec_cfgW8 (s : State) (reg : BitVec 8) (v : Byte) : exec (.cfgW8 reg v) s = .next (confWriteByte reg.toNat v s) := by
  have hr := reg.isLt
  have : ¬ 256 < reg.toNat + [v].length := by rw [List.length_singleton]; omega
  show finish (confWrite reg.toNat [v] s) = _
  unfold confWrite
  rw [if_neg this]
  rfl

/-! ## What an operation is built of -/

/-- Every operation is, past its reply, a chain of the device's elementary writes and reads. A relation between states that holds
across each of those, and is reflexive and transitive, holds across every transaction and event but reset and a drain, for which
`Closed.exec` asks it. -/
structure Closed (R : State → State → Prop) : Prop where
  refl : ∀ s, R s s
  trans : ∀ s t u, R s t → R t u → R s u
  reply : ∀ s r, R s (s.setReply r)
  mmioRead : ∀ o s b t, mmioRead8 o s = .ok (b, t) → R s t
  mmioWrite : ∀ o v s t, o < winSize → mmioWrite8 o v s = .ok t → R s t
  linWrite : ∀ off v s, R s (s.setVram (s.vram.write (linAddr s.cfg off) v))
  confWrite : ∀ reg v s, reg < 256 → R s (confWriteByte reg v s)
  bridgeRead : ∀ a v s t, bridgeRead a s = .ok (v, t) → R s t
  bridgeWrite : ∀ a v s t, bridgeWrite a v s = .ok t → R s t
  vsync : ∀ s, R s ((swapTick s).emit .companionVsync)
  swapReq : ∀ s : State, R s { s with swapReq := true }
  swapPend : ∀ (s : State) (n : BitVec 3), R s { s with swapPending := n }

theorem Closed.mmioReads {R : State → State → Prop} (c : Closed R) {o : Nat} {n : Width} {bs : List Byte} {s t : State}
    (h : Machine.mmioRead o n s = .ok (bs, t)) : R s t := by
  unfold Machine.mmioRead at h
  split at h
  · cases h
  · exact readBytes_rel c.refl c.trans c.mmioRead _ _ _ _ _ h

theorem Closed.mmioWrites {R : State → State → Prop} (c : Closed R) {o : Nat} {bs : List Byte} {s t : State}
    (h : Machine.mmioWrite o bs s = .ok t) : R s t := by
  unfold Machine.mmioWrite at h
  split at h
  · cases h
  · exact writeBytes_rel c.refl c.trans _ _ _ _ (fun b v s t _ h2 e => c.mmioWrite b v s t (by omega) e) h

theorem Closed.linWrites {R : State → State → Prop} (c : Closed R) {o : Nat} {bs : List Byte} {s t : State}
    (h : Machine.linWrite o bs s = .ok t) : R s t := by
  unfold Machine.linWrite at h
  split at h
  · cases h
  · exact writeBytes_rel c.refl c.trans _ _ _ _ (fun b v s t _ _ e => by cases e; exact c.linWrite b v s) h

theorem Closed.confWrites {R : State → State → Prop} (c : Closed R) {o : Nat} {bs : List Byte} {s t : State}
    (h : Machine.confWrite o bs s = .ok t) : R s t := by
  unfold Machine.confWrite at h
  split at h
  · cases h
  · exact writeBytes_rel c.refl c.trans _ _ _ _ (fun b v s t _ h2 e => by cases e; exact c.confWrite b v s (by omega)) h

/-- A closed relation holds across every transaction and event. -/
theorem Closed.exec {R : State → State → Prop} (c : Closed R) {s t : State} {i : Instr} (hp : i.packet? = none)
    (h : Machine.exec i s = .next t) (hreset : i = .reset → R s (resetState s)) (hdrain : i = .cfProcess → R s (Machine.cfProcess s)) :
    R s t := by
  have rp : ∀ u r, R s u → R s (u.setReply r) := fun u r hu => c.trans _ _ _ hu (c.reply u r)
  cases i with
  | mmioR8 o => obtain ⟨_, _, e, rfl⟩ := finishRead_next h; exact rp _ _ (c.mmioReads e)
  | mmioR16 o => obtain ⟨_, _, e, rfl⟩ := finishRead_next h; exact rp _ _ (c.mmioReads e)
  | mmioR32 o => obtain ⟨_, _, e, rfl⟩ := finishRead_next h; exact rp _ _ (c.mmioReads e)
  | mmioW8 o v => exact c.mmioWrites (finish_next h)
  | mmioW16 o v => exact c.mmioWrites (finish_next h)
  | mmioW32 o v => exact c.mmioWrites (finish_next h)
  | linR8 o => obtain ⟨_, _, e, rfl⟩ := finishRead_next h; rw [linRead_same e]; exact c.reply _ _
  | linR16 o => obtain ⟨_, _, e, rfl⟩ := finishRead_next h; rw [linRead_same e]; exact c.reply _ _
  | linR32 o => obtain ⟨_, _, e, rfl⟩ := finishRead_next h; rw [linRead_same e]; exact c.reply _ _
  | romR8 o => obtain ⟨_, _, e, rfl⟩ := finishRead_next h; rw [romRead_same e]; exact c.reply _ _
  | romR16 o => obtain ⟨_, _, e, rfl⟩ := finishRead_next h; rw [romRead_same e]; exact c.reply _ _
  | romR32 o => obtain ⟨_, _, e, rfl⟩ := finishRead_next h; rw [romRead_same e]; exact c.reply _ _
  | cfgR8 o => obtain ⟨_, _, e, rfl⟩ := finishRead_next h; rw [confRead_same e]; exact c.reply _ _
  | cfgR16 o => obtain ⟨_, _, e, rfl⟩ := finishRead_next h; rw [confRead_same e]; exact c.reply _ _
  | cfgR32 o => obtain ⟨_, _, e, rfl⟩ := finishRead_next h; rw [confRead_same e]; exact c.reply _ _
  | linW8 o v => exact c.linWrites (finish_next h)
  | linW16 o v => exact c.linWrites (finish_next h)
  | linW32 o v => exact c.linWrites (finish_next h)
  | romW8 o v => rw [romWrite_same (finish_next h)]; exact c.refl _
  | romW16 o v => rw [romWrite_same (finish_next h)]; exact c.refl _
  | romW32 o v => rw [romWrite_same (finish_next h)]; exact c.refl _
  | compR32 o =>
    change execCompR32 o s = .next t at h
    unfold execCompR32 at h
    split at h
    · cases h
    · obtain ⟨_, _, e, rfl⟩ := finishWord_next h
      exact rp _ _ (c.bridgeRead _ _ _ _ e)
  | compW32 o v =>
    change execCompW32 o v s = .next t at h
    unfold execCompW32 at h
    split at h
    · cases h
    · exact c.bridgeWrite _ _ _ _ (finish_next h)
  | pumaR32 o => obtain ⟨_, _, e, rfl⟩ := finishWord_next h; exact rp _ _ (c.bridgeRead _ _ _ _ e)
  | pumaW32 o v => exact c.bridgeWrite _ _ _ _ (finish_next h)
  | cfgW8 reg v => exact c.confWrites (finish_next h)
  | cfgW16 reg v => exact c.confWrites (finish_next h)
  | cfgW32 reg v => exact c.confWrites (finish_next h)
  | reset => cases h; exact hreset rfl
  | thpRd a =>
    change execThpRd a s = .next t at h
    unfold execThpRd at h
    split at h
    · split at h
      · cases h
      · rename_i e1
        obtain ⟨_, _, e, rfl⟩ := finishRead_next h
        exact rp _ _ (c.trans _ _ _ (c.mmioWrites e1) (c.mmioReads e))
    · cases h
  | thpWr a v =>
    change execThpWr a v s = .next t at h
    unfold execThpWr at h
    split at h
    · split at h
      · cases h
      · rename_i e1
        exact c.trans _ _ _ (c.mmioWrites e1) (c.mmioWrites (finish_next h))
    · cases h
  | vsync => cases h; exact c.vsync s
  | swapReq => cases h; exact c.swapReq s
  | swapPend => cases h; exact c.swapPend s _
  | cfProcess => cases h; exact hdrain rfl
  | nop => simp [Instr.packet?] at hp
  | wrgRejected hi reg lo => simp [Instr.packet?] at hp
  | wrg hi reg lo mask => simp [Instr.packet?] at hp
  | wr hi reg lo data => simp [Instr.packet?] at hp

end Sys2Proof.Machine
end

