-- ==== Sys2Proof/Tests/Slice0.lean ====
section
/-! SUPPORT. Tests. Expected results are those of spec/95_test_vectors.md section 3 (the vector's id in the docstring), of the encodings
of spec/30_encoding.md R91 and R93, or hand calculation from the rule named. The `witness_` theorems show a state and operands that
meet the hypotheses of each obligation. -/

set_option maxRecDepth 100000

open Sys2Proof Sys2Proof.Machine

namespace Sys2Proof.Tests

/-! ## Helpers -/

/-- The next state of an operation, where it answers one. -/
def after (i : Instr) (s : State) : Option State :=
  match exec i s with
  | .next t => some t
  | .fault _ => none
  | .refused _ => none

/-- Why an operation is refused, where it is. -/
def refusal (i : Instr) (s : State) : Option Refusal :=
  match exec i s with
  | .next _ => none
  | .fault _ => none
  | .refused r => some r

/-- What an operation returns. -/
def answer (i : Instr) (s : State) : Option Reply := (after i s).bind (·.reply)

/-- The state after reset. -/
def s0 : State := State.reset

/-- The bridge on. -/
def sOn : State := { s0 with bridgeEn := true }

/-- No companion. -/
def sNone : State := { s0 with cfg := { cfgRef with companionPresent := false } }

/-- The bridge on and the ring of `CFG_REF`'s examples: enabled, pages 1 to 2. -/
def sRing : State := { sOn with cfEnabled := true, cfBottom := 1, cfTop := 2 }

/-- That ring with one entry pending and a header slot in place at slot 0. -/
def sSlot (aw dw : Word) : State := { sRing with cfEntryCount := 1, vram := (Mem.wr32 [] 0x1000 aw).wr32 0x1004 dw }

/-- Memory decode on and the Linear aperture mapped. -/
def sMapped : State := { s0 with conf := (s0.conf.write 4 2).write 0x13 0xE0, ap := s0.ap.set .linear ⟨true, 0xE0000000⟩ }

/-- Window bytes written. -/
def withBytes (l : List (Nat × Byte)) (s : State) : State := { s with rb := l.foldl (fun m c => m.write c.1 c.2) s.rb }

/-- The job of NB1 to NB6 in the window, `D2_FG`'s low byte 0xAB. -/
def sJob : State :=
  withBytes [(0x110, 10), (0x112, 10), (0x114, 4), (0x116, 4), (0x118, 100), (0x104, 0xF0), (0x108, 0xAB)] s0

/-! ## Well-formedness -/

/-- A grouped packet with mask 0 is the rejected header (R94). -/
theorem test_illFormed_wrg_zero_mask : (Instr.wrg 0 3 0 0).wellFormed = false := by decide

/-- The all-zero slot is the no-op (R94). -/
theorem test_illFormed_wr_all_zero : (Instr.wr 0 0 0 0).wellFormed = false := by decide

/-- A job field that is not plain, a missing one, a short `D2_PATTERN`, a fill code and a clip bit outside their fields (R270). -/
theorem test_illFormed_cfg_jobs : 
    Cfg.jobsOk { cfgRef with fields := cfgRef.fields.map (fun f => if f.id = .d2Fg then { f with kind := .thpAddr } else f) } = false
    ∧ Cfg.jobsOk { cfgRef with fields := cfgRef.fields.filter (fun f => f.id != .d3TexStride) } = false
    ∧ Cfg.jobsOk { cfgRef with fields := cfgRef.fields.map (fun f => if f.id = .d2Pattern then { f with width := 4 } else f) } = false
    ∧ Cfg.jobsOk { cfgRef with ropFill := 0x100 } = false ∧ Cfg.jobsOk { cfgRef with d2ClipEnBit := 32 } = false
    ∧ Cfg.jobsOk { cfgRef with ropFill := 0xFF, d2ClipEnBit := 31 } = true := by decide

theorem test_wellFormed_kept : (Instr.wrg 0 3 0 1).wellFormed = true ∧ (Instr.wr 0 0 1 0).wellFormed = true ∧ (Instr.mmioR32 0xFFFF).wellFormed = true := by decide

/-! ## Decoding: descriptors `tttt d ww 0` (R91), header slots (R93, R94) -/

theorem test_decode_mmio : 
    decodeTableWord 8 0b00000000 = some (.mmioR8 0)
    ∧ decodeTableWord 8 0b00000010 = some (.mmioR16 0)
    ∧ decodeTableWord 8 0b00000100 = some (.mmioR32 0)
    ∧ decodeTableWord 8 0b00001000 = some (.mmioW8 0 0)
    ∧ decodeTableWord 8 0b00001010 = some (.mmioW16 0 0)
    ∧ decodeTableWord 8 0b00001100 = some (.mmioW32 0 0) := by decide

theorem test_decode_lin : 
    decodeTableWord 8 0b00010000 = some (.linR8 0)
    ∧ decodeTableWord 8 0b00010010 = some (.linR16 0)
    ∧ decodeTableWord 8 0b00010100 = some (.linR32 0)
    ∧ decodeTableWord 8 0b00011000 = some (.linW8 0 0)
    ∧ decodeTableWord 8 0b00011010 = some (.linW16 0 0)
    ∧ decodeTableWord 8 0b00011100 = some (.linW32 0 0) := by decide

theorem test_decode_rom : 
    decodeTableWord 8 0b00100000 = some (.romR8 0)
    ∧ decodeTableWord 8 0b00100010 = some (.romR16 0)
    ∧ decodeTableWord 8 0b00100100 = some (.romR32 0)
    ∧ decodeTableWord 8 0b00101000 = some (.romW8 0 0)
    ∧ decodeTableWord 8 0b00101010 = some (.romW16 0 0)
    ∧ decodeTableWord 8 0b00101100 = some (.romW32 0 0) := by decide

theorem test_decode_comp : 
    decodeTableWord 8 0b00110100 = some (.compR32 0)
    ∧ decodeTableWord 8 0b00111100 = some (.compW32 0 0) := by decide

theorem test_decode_cfg : 
    decodeTableWord 8 0b01000000 = some (.cfgR8 0)
    ∧ decodeTableWord 8 0b01000010 = some (.cfgR16 0)
    ∧ decodeTableWord 8 0b01000100 = some (.cfgR32 0)
    ∧ decodeTableWord 8 0b01001000 = some (.cfgW8 0 0)
    ∧ decodeTableWord 8 0b01001010 = some (.cfgW16 0 0)
    ∧ decodeTableWord 8 0b01001100 = some (.cfgW32 0 0) := by decide

theorem test_decode_puma : 
    decodeTableWord 8 0b01010100 = some (.pumaR32 0)
    ∧ decodeTableWord 8 0b01011100 = some (.pumaW32 0 0) := by decide

theorem test_decode_thp : decodeTableWord 8 0b01100100 = some (.thpRd 0) ∧ decodeTableWord 8 0b01101100 = some (.thpWr 0 0) := by decide

theorem test_decode_events : decodeTableWord 8 0b01110000 = some .reset ∧ decodeTableWord 8 0b01110010 = some .vsync
    ∧ decodeTableWord 8 0b01110100 = some .swapReq ∧ decodeTableWord 8 0b01110110 = some .swapPend
    ∧ decodeTableWord 8 0b10000000 = some .cfProcess := by decide

/-- Descriptors R91 gives to nothing (R101). -/
theorem test_decode_unassigned : decodeTableWord 8 0b00000110 = none ∧ decodeTableWord 8 0b00110000 = none ∧ decodeTableWord 8 0b00000001 = none ∧ decodeTableWord 8 0xFF = none := by decide

theorem test_decode_nop : decodeTableWord 64 0x0000000000000000 = some .nop := by decide

theorem test_decode_wrgRejected : decodeTableWord 64 0x0000000080000040 = some (.wrgRejected 0 0x10 0) := by decide

/-- The header of CF4. -/
theorem test_decode_wrg : decodeTableWord 64 0x0000000580000040 = some (.wrg 0 0x10 0 5) := by decide

/-- The slot of CF1. -/
theorem test_decode_wr : decodeTableWord 64 0x000000110000000C = some (.wr 0 3 0 0x11) := by decide

/-- The slot of CF10: bits 30:23 and 1:0 are read by nothing. -/
theorem test_decode_ignored_bits : decodeTableWord 64 0x000000887F80000F = some (.wr 0xFF 3 3 0x88) := by decide

/-- The operand layout of log entry 3. -/
theorem test_decode_operands : decodeOp [0x0C, 0x08, 0x01, 0x44, 0x33, 0x22, 0x11, 0x70] = .ok (.mmioW32 0x0108 0x11223344, [0x70]) := by decide

theorem test_decode_truncated : decodeOp [0x0C, 0x08] = .error .truncated ∧ decodeOp [] = .error .empty := by decide

/-! ## Register window -/

/-- BR12: byte 1 of `THP_DATA` is the stage's. -/
theorem test_mmioR8 : answer (.mmioR8 0x805) { sOn with thpStage := 0x55 } = some (.r8 0) := by decide

/-- BR12: byte 0 performs the access. -/
theorem test_mmioR8_access : answer (.mmioR8 0x804) (withBytes [(0x801, 0x30), (0x802, 0x40)] (sOn.compSet 3 0x99)) = some (.r8 0x99) := by decide

/-- RB3. -/
theorem test_mmioR16 : answer (.mmioR16 0xFF1) (withBytes [(0xFF0, 0xEF), (0xFF1, 0xBE), (0xFF2, 0xAD), (0xFF3, 0xDE)] s0) = some (.r16 0xADBE) := by decide

/-- RB10. -/
theorem test_mmioR16_edge : answer (.mmioR16 0xFFFE) s0 = some (.r16 0) ∧ refusal (.mmioR16 0xFFFF) s0 = some .windowEdge := by decide

/-- RB10. -/
theorem test_mmioR32_edge : refusal (.mmioR32 0xFFFE) s0 = some .windowEdge := by decide

/-- BR12. -/
theorem test_mmioR32_thp : (after (.mmioR32 0x804) (withBytes [(0x801, 0x30), (0x802, 0x40)] (sOn.compSet 3 0x55))).map (fun s => (s.reply, s.thpStage, s.thpRequest, s.thpGrant)) = some (some (.r32 0x55), 0x55, true, true) := by decide

/-- RB4, RB5. -/
theorem test_mmioW8_last_byte_first : (after (.mmioW8 0x703 0) (withBytes [(0x700, 1)] s0)).map (·.bridgeEn) = some true ∧ (after (.mmioW8 0x700 1) s0).map (·.bridgeEn) = some false := by decide

/-- BR13: no access without the last byte. -/
theorem test_mmioW16 : (after (.mmioW16 0x804 0xBEEF) (withBytes [(0x801, 0x30), (0x802, 0x40)] sOn)).map (fun s => (s.compGet 3, s.rb.read 0x804, s.rb.read 0x805)) = some (0, 0xEF, 0xBE) := by decide

/-- RB6. -/
theorem test_mmioW32_straddle : (after (.mmioW32 0x702 0xAABB0001) (withBytes [(0x700, 1)] s0)).map (fun s => (s.bridgeEn, s.rb.rd32 0x704, s.cfEnabled)) = some (true, 0x0000AABB, false) := by decide

/-- RB15. -/
theorem test_mmioW32_start : (after (.mmioW32 0x102 0x55668000) s0).map (fun s => (s.rb.rd32 0x100, s.rb.read 0x104, s.rb.read 0x105, s.d2Busy)) = some (0, 0x66, 0x55, false) := by decide

/-! ## Engines -/

/-- NB2. -/
theorem test_fill_clipped : (after (.mmioW8 0x103 0x80) (withBytes [(0x100, 1), (0x120, 11), (0x122, 10), (0x124, 13), (0x126, 12)] sJob)).map (fun s => (s.vram, s.rb.rd32 0x100)) = some ([(1011, 0xAB), (1012, 0xAB), (1111, 0xAB), (1112, 0xAB)], 1) := by decide

/-- NB7: the batch holds the fields as stored at the trigger. -/
theorem test_triangle : (after (.mmioW16 0x502 0x8000) s0).map (fun s => (s.events, s.rb, s.d3Busy)) = some ([.tri3DBatch (d3JobFields.map (fun i => (i, if i = .d3CmdSet then 0x80000000 else 0)))], [], false) := by decide

/-- NB8. -/
theorem test_vsync : (after .vsync { s0 with swapReq := true, swapPending := 2 }).map (fun s => (s.swapPending, s.swapReq, s.events)) = some (1, true, [.companionVsync]) := by decide

/-- NB8. -/
theorem test_vsync_swap : (after .vsync { s0 with swapReq := true, swapPending := 1 }).map (fun s => (s.swapPending, s.swapReq, s.events)) = some (0, false, [.presentSwap, .companionVsync]) := by decide

theorem test_swapReq : (after .swapReq s0).map (·.swapReq) = some true := by decide

/-- NB11. -/
theorem test_swapPend : (after .swapPend { s0 with swapPending := 7 }).map (·.swapPending) = some 7 ∧ (after .swapPend { s0 with swapPending := 6 }).map (·.swapPending) = some 7 := by decide

/-! ## Configuration space and apertures -/

/-- AP14. -/
theorem test_cfgR8 : answer (.cfgR8 0x3D) s0 = some (.r8 1) := by decide

/-- AP16. -/
theorem test_cfgR16 : answer (.cfgR16 0xFE) s0 = some (.r16 0) ∧ refusal (.cfgR16 0xFF) s0 = some .configEdge := by decide

/-- AP1. -/
theorem test_cfgR32_probe : answer (.cfgR32 0x10) s0 = some (.r32 0x003FFFFF) ∧ answer (.cfgR32 0x1C) s0 = some (.r32 0) ∧ answer (.cfgR32 0x30) s0 = some (.r32 0x0000FFFF) := by decide

/-- AP15, AP16. -/
theorem test_cfgR32_stored : answer (.cfgR32 0) s0 = some (.r32 0x56781234) ∧ refusal (.cfgR32 0xFE) s0 = some .configEdge := by decide

/-- AP8. -/
theorem test_cfgW8_zero_base : (after (.cfgW8 0x13 0) sMapped).map (fun s => (s.events, answer (.cfgR32 0x10) s)) = some ([.unmap .linear], some (.r32 0x003FFFFF)) := by decide

/-- AP18. -/
theorem test_cfgW8_command : (after (.cfgW8 4 1) sMapped).map (fun s => (s.events, s.conf.read 0x13, (s.ap.get .linear).en)) = some ([.unmap .linear], 0xE0, false) := by decide

/-- AP3. -/
theorem test_cfgW16_mask : (after (.cfgW16 4 0xFFFF) s0).bind (answer (.cfgR16 4)) = some (.r16 7) := by decide

/-- AP12. -/
theorem test_cfgW16_high_byte : (after (.cfgW16 0x12 0xC000) sMapped).map (·.events) = some [.unmap .linear, .map .linear 0xC0000000 0x400000] := by decide

/-- AP6. -/
theorem test_cfgW32_map : (after (.cfgW32 0x18 0xFD000FFF) { s0 with conf := s0.conf.write 4 2 }).map (fun s => (s.events, answer (.cfgR32 0x18) s)) = some ([.map .companion 0xFD000000 0x800000], some (.r32 0xFD000FFF)) := by decide

/-- AP10. -/
theorem test_cfgW32_move : (after (.cfgW32 0x10 0xD0000000) sMapped).map (·.events) = some [.unmap .linear, .map .linear 0xD0000000 0x400000] := by decide

/-- BR6; the aperture's end. -/
theorem test_linR8 : answer (.linR8 0x100) { s0 with vram := [(0x100, 0xBE)] } = some (.r8 0xBE) ∧ refusal (.linR8 0x400000) s0 = some .apertureEdge := by decide

/-- AP17. -/
theorem test_linR16 : answer (.linR16 0x3F3) { s0 with vram := Mem.wr32 [] 0x3F2 0x11223344 } = some (.r16 0x2233) := by decide

theorem test_linR32 : answer (.linR32 0x3FFFFC) { s0 with vram := Mem.wr32 [] 0x3FFFFC 0x11223344 } = some (.r32 0x11223344) := by decide

theorem test_linW8 : (after (.linW8 0x100 5) s0).map (·.vram) = some [(0x100, 5)] := by decide

theorem test_linW16 : (after (.linW16 0xFF 0xA1B2) s0).map (·.vram) = some [(0xFF, 0xB2), (0x100, 0xA1)] := by decide

/-- AP17. -/
theorem test_linW32 : (after (.linW32 0x3F2 0x11223344) s0).map (·.vram) = some [(0x3F2, 0x44), (0x3F3, 0x33), (0x3F4, 0x22), (0x3F5, 0x11)] := by decide

/-- CF15. -/
theorem test_linW32_counts_nothing : (after (.linW32 0x1004 0x11) sRing).map (fun s => (s.cfEntryCount, s.cfReadPtr, s.cfThreshStatus)) = some (0, 0, false) := by decide

/-- AP20. -/
theorem test_romR16 : exec (.romR16 0) s0 = .next (s0.setReply (.r16 (Config.romByte 1 ++ Config.romByte 0))) := rfl

/-- AP20. -/
theorem test_romW32 : after (.romW32 0 0xFFFFFFFF) s0 = some s0 ∧ refusal (.romW32 0xFFFE 0) s0 = some .apertureEdge := by decide

/-! ## The bridge -/

/-- BR5. -/
theorem test_compR32_sign : answer (.compR32 0x420000) (sOn.compSet 0x20 0x00800000) = some (.r32 0xFF800000) ∧ answer (.compR32 0x440000) (sOn.compSet 0x40 0x00800000) = some (.r32 0x00800000) := by decide

/-- BR10. -/
theorem test_compR32_misaligned : refusal (.compR32 0x102) sOn = some .companionMisaligned := by decide

/-- BR2. -/
theorem test_compW32 : (after (.compW32 0x403000 0x12345678) sOn).map (fun s => (s.compGet 3, s.events, s.thpRequest)) = some (0x12345678, [.companionRegWritten 3 0x12345678], false) := by decide

/-- BR1, BR17. -/
theorem test_compW32_off : (after (.compW32 0x403000 7) s0).map (fun s => (s.compGet 3, s.diags)) = some (0, [.bridgeDisabled]) ∧ (after (.compW32 0x403000 7) sNone).map (·.diags) = some [.bridgeNotConfigured] := by decide

/-- BR9. -/
theorem test_pumaR32_invalid : (after (.pumaR32 0x700000) sOn).map (fun s => (s.reply, s.diags)) = some (some (.r32 0), [.invalidAddress 0x700000]) := by decide

/-- BR8. -/
theorem test_pumaR32_texture : answer (.pumaR32 0x500000) { sOn with tex := Mem.wr32 [] 0 0x01020304 } = some (.r32 0x01020304) := by decide

/-- BR6, BR10. -/
theorem test_pumaW32 : (after (.pumaW32 0x100 0xCAFEBABE) sOn).map (·.vram) = some [(0x100, 0xBE), (0x101, 0xBA), (0x102, 0xFE), (0x103, 0xCA)]
    ∧ refusal (.pumaW32 0x102 0) sOn = some .pumaMisaligned ∧ (after (.pumaW32 0x400001 5) sOn).map (·.compGet 0) = some 5 := by decide

/-- BR7. -/
theorem test_classify_edges : classify cfgRef 0x3FFFFC = .fb ∧ classify cfgRef 0x400001 = .reg 0 ∧ classify cfgRef 0x4FFFFF = .reg 255 ∧ classify cfgRef 0x500000 = .tex 0 ∧ classify cfgRef 0x6FFFFF = .tex 0x1FFFFF ∧ classify cfgRef 0x700000 = .invalid := by decide

/-- BR15. -/
theorem test_thpRd : (after (.thpRd 0xFFFFFFFC) sOn).map (fun s => (s.reply, s.thpStage, s.thpRequest, s.thpGrant, s.diags)) = some (some (.r32 0), 0, true, true, [.invalidAddress 0xFFFFFFFC]) := by decide

/-- BR16. -/
theorem test_thpRd_off : (after (.thpRd 0) { s0 with thpStage := 0x77 }).map (fun s => (s.reply, s.thpStage, s.thpRequest, s.diags)) = some (some (.r32 0), 0, false, [.bridgeDisabled]) := by decide

/-- BR11. -/
theorem test_thpWr : (after (.thpWr 0x403000 0x55) sOn).map (fun s => (s.compGet 3, s.thpRequest, s.thpStage, s.rb.rd32 0x800, s.rb.rd32 0x804)) = some (0x55, true, 0, 0x403000, 0x55) := by decide

/-- CF19. -/
theorem test_thpWr_ring : (after (.thpWr 0x1004 0x99) { sRing with vram := [(0x1000, 0x14)] }).map (fun s => (s.compGet 5, s.cfReadPtr, s.thpGrant)) = some (0x99, 2, true) := by decide

/-! ## The CmdFifo -/

/-- CF1. -/
theorem test_ring_write : (after (.pumaW32 0x1004 0x11) { sRing with vram := [(0x1000, 0xC)] }).map (fun s => (s.compGet 3, s.cfReadPtr, s.cfEntryCount, s.cfThreshStatus)) = some (0x11, 2, 0, true) := by decide

/-- CF13. -/
theorem test_cfProcess_abort : (after (.cfProcess) { sRing with cfBottom := 0x3FF, cfTop := 0x401, cfReadPtr := 512, cfEntryCount := 1 }).map (fun s => (s.cfReadPtr, s.cfEntryCount, s.diags)) = some (514, 0, [.fifoOutOfRange 512 0x3FF000 0x401000]) := by decide

/-- CF7. -/
theorem test_cfProcess_wrap : (after (.cfProcess) { sRing with cfReadPtr := 511, cfEntryCount := 1, vram := ((((Mem.wr32 [] 0x1000 0xD0).wr32 0x1004 0xD1).wr32 0x1FF8 0x80000040).wr32 0x1FFC 0x80000001) }).map (fun s => (s.compGet 0x10, s.compGet 0x2F, s.cfReadPtr)) = some (0xD0, 0xD1, 2) := by decide

/-- CF2. -/
theorem test_nop : (after .nop (sSlot 0 0)).map (fun s => (s.cfReadPtr, s.cfEntryCount, s.events)) = some (2, 0, []) := by decide

/-- CF6. -/
theorem test_wrgRejected : (after (.wrgRejected 0 0x10 0) (sSlot 0x80000040 0)).map (fun s => (s.diags, s.cfReadPtr, s.cfEntryCount)) = some ([.malformedPacket 0x1000 0x80000040 0], 1, 0) := by decide

/-- CF4. -/
theorem test_wrg : (after (.wrg 0 0x10 0 5) { (sSlot 0x80000040 5).compSet 0x11 0x5555 with vram := (Mem.wr32 [] 0x1008 0xAAAA0001).wr32 0x100C 0xBBBB0002 }).map (fun s => (s.compGet 0x10, s.compGet 0x11, s.compGet 0x12, s.cfReadPtr)) = some (0xAAAA0001, 0x5555, 0xBBBB0002, 3) := by decide

/-- CF9. -/
theorem test_wr : (after (.wr 0 0x101 0 0x77) (sSlot 0x404 0x77)).map (fun s => (s.compGet 1, s.cfReadPtr)) = some (0x77, 2) := by decide

/-- CF11. -/
theorem test_wr_not_nop : (after (.wr 0 0 1 0) ((sSlot 1 0).compSet 0 9)).map (fun s => (s.compGet 0, s.cfReadPtr)) = some (0, 2) := by decide

/-- RS1. -/
theorem test_reset : (after .reset { sMapped with vram := [(5, 5)] }).map (fun s => (s.events, s.vram, s.conf)) = some ([.unmap .linear], [(5, 5)], s0.conf) := by decide

/-- R311. -/
theorem test_reset_streams : (after .reset { sMapped with swapReq := true, diags := [.bridgeDisabled] }).map (fun s => (s.swapReq, s.diags)) = some (false, []) := by decide

/-! ## Steps -/

/-- The next state of a step, where it answers one. -/
def stepped (s : State) : Option State :=
  match step s with
  | .next t => some t
  | .fault _ => none
  | .refused _ => none

/-- With no request the device waits. -/
theorem test_step_idle : stepped s0 = some s0 := by decide

/-- `withFetchWord` runs the descriptor's operation. -/
theorem test_step_descriptor : stepped (s0.withFetchWord 8 0b01110100) = some { s0 with swapReq := true, bus := [.ops [0, 0, 0, 0, 0, 0, 0, 0]] } := by decide

/-- `withFetchWord` runs the packet of the slot. -/
theorem test_step_slot : (stepped (s0.withFetchWord 64 0x000000110000000C)).map (fun s => (s.compGet 3, s.cfReadPtr, s.cfEntryCount)) = some (0x11, 2, 0) := by decide

/-- A Linear read through the bus (R67). -/
theorem test_step_host_access : (stepped { sMapped with vram := [(0x101, 0xF0), (0x102, 0xFE)], bus := [.memRead 0xE0000101 .w2] }).map (·.reply) = some (some (.r16 0xFEF0)) := by decide

/-- An access that leaves the aperture (R64). -/
theorem test_step_refused : step { sMapped with bus := [.memRead 0xE03FFFFE .w4] } = .refused .apertureEdge := rfl

/-! ## Witnesses: a state and operands that meet the hypotheses of each obligation -/

theorem cfgRef_wf : cfgRef.wf = true := by decide

/-- How an offset with a known field is shown quiet. -/
theorem quiet_of {c : Cfg} {o : Nat} {f : RegField} {i : Nat} (h : fieldAt c o = some (f, i))
    (hq : i + 1 ≠ f.width ∨ f.kind = .plain ∨ f.kind = .thpAddr) : quietOffset c o := by
  intro g j e
  rw [h] at e
  cases e
  exact hq

theorem quiet_of_none {c : Cfg} {o : Nat} (h : fieldAt c o = none) : quietOffset c o := by
  intro g j e
  rw [h] at e
  cases e

theorem stored_of_none {c : Cfg} {o : Nat} (h : fieldAt c o = none) : storedOffset c o := by
  intro g j e
  rw [h] at e
  cases e

/-- A state with one request waiting. -/
def asks (r : Request) (s : State) : State := { s with bus := [r] }

/-- The bridge on and an address in `THP_ADDR`. -/
def sAddr (a : Word) : State := { sOn with rb := sOn.rb.wr32 0x0800 a }

/-- The ring with the first word of `WR 3, 0x11` stored at slot 0. -/
def sPut : State := { sRing with vram := [(0x1000, 0xC)] }

def fThpCtrl : RegField := ⟨.thpCtrl, 0x0700, 4, .trigThpCtl, false⟩
def fCfCfg : RegField := ⟨.cfCfg, 0x0704, 4, .trigCfCfg, false⟩
def fThpAddr : RegField := ⟨.thpAddr, 0x0800, 4, .thpAddr, false⟩
def fThpData : RegField := ⟨.thpData, 0x0804, 4, .thpData, false⟩
def fD2Ctrl : RegField := ⟨.d2Ctrl, 0x0100, 4, .trigD2, false⟩
def fD3CmdSet : RegField := ⟨.d3CmdSet, 0x0500, 4, .trigD3, false⟩
def fD2Fg : RegField := ⟨.d2Fg, 0x0108, 4, .plain, false⟩

theorem witness_TransactionDecodeEncode : (Instr.cfgW32 0xFF 0xFFFFFFFF).packet? = none := by decide

theorem witness_PacketSlotRoundTrip : (Instr.wrg 0xFF 0x1FFFFF 3 0xFFFFFFFF).packet? = some (.grouped 0xFF 0x1FFFFF 3 0xFFFFFFFF) ∧ (Instr.wrg 0xFF 0x1FFFFF 3 0xFFFFFFFF).wellFormed = true := by decide

theorem witness_StepRunsDecodedOperation : ({ s0 with bus := [.ops [0x40, 4, 0x70]] } : State).bus = .ops [0x40, 4, 0x70] :: [] ∧ decodeOp [0x40, 4, 0x70] = .ok (.cfgR8 4, [0x70])
    ∧ (Instr.cfgR8 4).wellFormed = true := by decide

theorem witness_DrainRunsFetchedPacket : (sSlot 0xC 0x11).cfEnabled = true ∧ (sSlot 0xC 0x11).cfEntryCount = 1 ∧ slotOk (sSlot 0xC 0x11) = true := by decide

theorem witness_HostAccessRunsApertureOperation_read : (asks (.memRead 0xE03FFFFC .w4) sMapped).bus = .memRead 0xE03FFFFC .w4 :: [] ∧ ((asks (.memRead 0xE03FFFFC .w4) sMapped).ap.get .linear).en = true
    ∧ ((asks (.memRead 0xE03FFFFC .w4) sMapped).ap.get .linear).base.toNat ≤ (0xE03FFFFC#32).toNat
    ∧ (0xE03FFFFC#32).toNat + Width.w4.bytes ≤ ((asks (.memRead 0xE03FFFFC .w4) sMapped).ap.get .linear).base.toNat + (asks (.memRead 0xE03FFFFC .w4) sMapped).cfg.apSize .linear
    ∧ (0xE03FFFFC#32).toNat + Width.w4.bytes ≤ 2 ^ 32
    ∧ ∀ q k, q ≠ .linear → k < Width.w4.bytes → claims (asks (.memRead 0xE03FFFFC .w4) sMapped) ((0xE03FFFFC#32).toNat + k) q = false := 
  ⟨rfl, by decide, by decide, by decide, by decide, fun q k hq _ => by cases q <;> first | exact absurd rfl hq | rfl⟩

theorem witness_HostAccessRunsApertureOperation_write : (asks (.memWrite 0xE03FFFFC .w4 7) sMapped).bus = .memWrite 0xE03FFFFC .w4 7 :: [] ∧ ((asks (.memWrite 0xE03FFFFC .w4 7) sMapped).ap.get .linear).en = true
    ∧ ((asks (.memWrite 0xE03FFFFC .w4 7) sMapped).ap.get .linear).base.toNat ≤ (0xE03FFFFC#32).toNat
    ∧ (0xE03FFFFC#32).toNat + Width.w4.bytes ≤ ((asks (.memWrite 0xE03FFFFC .w4 7) sMapped).ap.get .linear).base.toNat + (asks (.memWrite 0xE03FFFFC .w4 7) sMapped).cfg.apSize .linear
    ∧ (0xE03FFFFC#32).toNat + Width.w4.bytes ≤ 2 ^ 32
    ∧ ∀ q k, q ≠ .linear → k < Width.w4.bytes → claims (asks (.memWrite 0xE03FFFFC .w4 7) sMapped) ((0xE03FFFFC#32).toNat + k) q = false := 
  ⟨rfl, by decide, by decide, by decide, by decide, fun q k hq _ => by cases q <;> first | exact absurd rfl hq | rfl⟩

theorem witness_AccessesOutsideOneAperture_none : ∀ q k, k < Width.w4.bytes → claims sMapped ((0xE0400000#32).toNat + k) q = false := by
  intro q k hk
  have h4 : k < 4 := hk
  cases q
  · interval_cases k <;> rfl
  · rfl
  · rfl
  · rfl

theorem witness_AccessesOutsideOneAperture_two : ∃ p q k, p ≠ q ∧ k < Width.w1.bytes
    ∧ claims { sMapped with ap := sMapped.ap.set .rom ⟨true, 0xE0000000⟩ } ((0xE000FFFF#32).toNat + k) p = true
    ∧ claims { sMapped with ap := sMapped.ap.set .rom ⟨true, 0xE0000000⟩ } ((0xE000FFFF#32).toNat + k) q = true := ⟨.linear, .rom, 0, by decide, by decide, by decide, by decide⟩

theorem witness_AccessesOutsideOneAperture_part : 
    (∀ p q k, p ≠ q → k < Width.w4.bytes →
      ¬ (claims sMapped ((0xE03FFFFE#32).toNat + k) p = true ∧ claims sMapped ((0xE03FFFFE#32).toNat + k) q = true))
    ∧ ∃ p j k, j < Width.w4.bytes ∧ claims sMapped ((0xE03FFFFE#32).toNat + j) p = true ∧ k < Width.w4.bytes
      ∧ claims sMapped ((0xE03FFFFE#32).toNat + k) p = false := 
  ⟨fun p q k hpq _ h => by
    cases p <;> cases q <;> first | exact hpq rfl | exact Bool.noConfusion h.1 | exact Bool.noConfusion h.2,
   .linear, 1, 2, by decide, by decide, by decide, by decide⟩

theorem witness_ConfigurationAccessByFunction : (asks (.confRead 7 252 .w4) s0).bus = .confRead 7 252 .w4 :: [] ∧ (7#3 : BitVec 3) ≠ 0
    ∧ (252#8 : BitVec 8).toNat + Width.w4.bytes ≤ 256 ∧ 256 < (253#8 : BitVec 8).toNat + Width.w4.bytes
    ∧ (asks (.confWrite 7 252 .w4 1) s0).bus = .confWrite 7 252 .w4 1 :: [] := by decide

theorem witness_StoredBytesRead : storedOffset s0.cfg (0xFFFF#16).toNat ∧ ((0xFFFE#16).toNat + 2 ≤ winSize ∧ ∀ k, k < 2 → storedOffset s0.cfg ((0xFFFE#16).toNat + k))
    ∧ ((0xFFFC#16).toNat + 4 ≤ winSize ∧ ∀ k, k < 4 → storedOffset s0.cfg ((0xFFFC#16).toNat + k)) := by
  refine ⟨stored_of_none (by decide), ⟨by decide, fun k hk => ?_⟩, ⟨by decide, fun k hk => ?_⟩⟩
  · interval_cases k <;> exact stored_of_none (by decide)
  · interval_cases k <;> exact stored_of_none (by decide)

theorem witness_WideWindowAccessIsByteAccesses : (0xFFFE#16).toNat + 2 ≤ winSize ∧ (0xFFFC#16).toNat + 4 ≤ winSize ∧ winSize < (0xFFFF#16).toNat + 2 ∧ winSize < (0xFFFD#16).toNat + 4 := by decide

theorem witness_QuietWriteStoresItsBytes : quietOffset s0.cfg (0x0702#16).toNat ∧ ((0x0700#16).toNat + 2 ≤ winSize ∧ ∀ k, k < 2 → quietOffset s0.cfg ((0x0700#16).toNat + k))
    ∧ ((0x0108#16).toNat + 4 ≤ winSize ∧ ∀ k, k < 4 → quietOffset s0.cfg ((0x0108#16).toNat + k)) := by
  refine ⟨quiet_of (f := fThpCtrl) (i := 2) (by decide) (by decide), ⟨by decide, fun k hk => ?_⟩, ⟨by decide, fun k hk => ?_⟩⟩
  · exact quiet_of (f := fThpCtrl) (i := k) (by interval_cases k <;> decide) (by interval_cases k <;> decide)
  · exact quiet_of (f := fD2Fg) (i := k) (by interval_cases k <;> decide) (Or.inr (Or.inl rfl))

theorem witness_FallbackOffsetIsPlainStorage : fieldAt s0.cfg (0x0403#16).toNat = none := by decide

theorem witness_ByteWritesAreIsolated : s0.cfg.wf = true ∧ fD2Fg ∈ s0.cfg.fields ∧ fD2Fg.kind ≠ .thpData ∧ fD2Fg.kind ≠ .trigD2 ∧ fD2Fg.kind ≠ .trigD3
    ∧ fD2Fg.base ≤ (0x0109#16).toNat ∧ (0x0109#16).toNat < fD2Fg.base + fD2Fg.width ∧ fD2Fg.base ≤ (0x010B#16).toNat
    ∧ (0x010B#16).toNat < fD2Fg.base + fD2Fg.width := ⟨cfgRef_wf, by decide, by decide, by decide, by decide, by decide, by decide, by decide, by decide⟩

theorem witness_ThpControlLastByteLoadsEnable : fieldAt s0.cfg (0x0703#16).toNat = some (fThpCtrl, 3) ∧ fThpCtrl.kind = .trigThpCtl ∧ 3 + 1 = fThpCtrl.width
    ∧ s0.cfg.companionPresent = true ∧ fieldAt sNone.cfg (0x0703#16).toNat = some (fThpCtrl, 3) ∧ sNone.cfg.companionPresent = false := by decide

theorem witness_PackedConfigurationLoadsLatches : fieldAt s0.cfg (0x0707#16).toNat = some (fCfCfg, 3) ∧ fCfCfg.kind = .trigCfCfg ∧ 3 + 1 = fCfCfg.width ∧ s0.cfg.cfBotW ≤ 20
    ∧ s0.cfg.cfTopW ≤ 20 := by decide

theorem witness_DiscreteRegisterLoadsOneLatch : fieldAt s0.cfg (0x0709#16).toNat = some (⟨.cfBottom, 0x0708, 2, .cfBottom, false⟩, 1)
    ∧ fieldAt s0.cfg (0x070B#16).toNat = some (⟨.cfTop, 0x070A, 2, .cfTop, false⟩, 1)
    ∧ fieldAt s0.cfg (0x070C#16).toNat = some (⟨.cfThresh, 0x070C, 1, .cfThresh, false⟩, 0) ∧ s0.cfg.cfBotW ≤ 20 ∧ s0.cfg.cfTopW ≤ 20 := by decide

theorem witness_FillColoursExactlyTheShownPixels : fieldAt sJob.cfg (0x0103#16).toNat = some (fD2Ctrl, 3) ∧ fD2Ctrl.kind = .trigD2 ∧ 3 + 1 = fD2Ctrl.width ∧ sJob.d2Busy = false
    ∧ startOf sJob.cfg.d2StartBit (sJob.rb.read (0x0103#16).toNat) = false ∧ startOf sJob.cfg.d2StartBit 0x80 = true
    ∧ (sJob.setRb (0x0103#16).toNat 0x80).idVal .d2Rop = sJob.cfg.ropFill ∧ (sJob.setRb (0x0103#16).toNat 0x80).idVal .d2SizeX = 4 := by decide

theorem witness_OtherRasterOpsAndNonStartsDrawNothing : fieldAt s0.cfg (0x0103#16).toNat = some (fD2Ctrl, 3) ∧ fD2Ctrl.kind = .trigD2 ∧ 3 + 1 = fD2Ctrl.width ∧ s0.d2Busy = false
    ∧ startOf s0.cfg.d2StartBit (s0.rb.read (0x0103#16).toNat) = false ∧ startOf s0.cfg.d2StartBit 0x80 = true
    ∧ (s0.setRb (0x0103#16).toNat 0x80).idVal .d2Rop ≠ s0.cfg.ropFill ∧ startOf s0.cfg.d2StartBit 0x7F = false := by decide

theorem witness_TriangleTriggerHandsOverTheBatch : fieldAt s0.cfg (0x0503#16).toNat = some (fD3CmdSet, 3) ∧ fD3CmdSet.kind = .trigD3 ∧ 3 + 1 = fD3CmdSet.width ∧ s0.d3Busy = false
    ∧ startOf s0.cfg.d3StartBit (s0.rb.read (0x0503#16).toNat) = false ∧ startOf s0.cfg.d3StartBit 0x80 = true
    ∧ startOf s0.cfg.d3StartBit 0x7F = false := by decide

/-- For `RegisterReadSignExtendsGradients` and `RegisterWriteStoresOneRegister`, at the last word of the region. -/
theorem witness_RegisterReadAndWrite : bridgeOn sOn ∧ sOn.cfg.fbSize ≤ (0x4FFFFC#32).toNat ∧ sOn.cfg.regStart ≤ (0x4FFFFC#32).toNat
    ∧ (0x4FFFFC#32).toNat < sOn.cfg.regStart + sOn.cfg.regSize ∧ (255#8).toNat = ((0x4FFFFC#32).toNat - sOn.cfg.regStart) / 4096 % 256
    ∧ (0x4FFFFC#32).toNat % 4 = 0 ∧ (0x4FFFFC#32).toNat + 4 ≤ sOn.cfg.companionSize := ⟨⟨rfl, rfl⟩, by decide, by decide, by decide, by decide, by decide, by decide⟩

/-- The same at the address of R209. -/
theorem witness_RegisterReadAndWrite_first : bridgeOn sOn ∧ sOn.cfg.fbSize ≤ (0x400001#32).toNat ∧ sOn.cfg.regStart ≤ (0x400001#32).toNat
    ∧ (0x400001#32).toNat < sOn.cfg.regStart + sOn.cfg.regSize ∧ (0#8).toNat = ((0x400001#32).toNat - sOn.cfg.regStart) / 4096 % 256
    ∧ (0x400001#32).toNat = sOn.cfg.fbSize + 1 := ⟨⟨rfl, rfl⟩, by decide, by decide, by decide, by decide, by decide⟩

theorem witness_BridgeOffIsABenignNoOp : ¬ bridgeOn s0 ∧ ¬ bridgeOn sNone ∧ (0x7FFFFC#32).toNat % 4 = 0 ∧ (0x7FFFFC#32).toNat + 4 ≤ s0.cfg.companionSize := ⟨fun h => (by cases h.2), fun h => (by cases h.1), by decide, by decide⟩

theorem witness_FramebufferWordsStoreAndCount : bridgeOn sRing ∧ ((0x3FFFFC#32).toNat < sRing.cfg.fbSize ∧ (0x3FFFFC#32).toNat % 4 = 0
      ∧ ¬ (0x3FFFFC#32).toNat < sRing.cfTop.toNat * 4096 ∧ (0x3FFFFC#32).toNat + 4 ≤ sRing.cfg.companionSize)
    ∧ ((0x1000#32).toNat < sRing.cfg.fbSize ∧ (0x1000#32).toNat % 4 = 0 ∧ (0x1000#32).toNat % 8 = 0)
    ∧ ((0x1FFC#32).toNat < sRing.cfg.fbSize ∧ (0x1FFC#32).toNat % 4 = 0
      ∧ (sRing.cfEnabled = true ∧ sRing.cfBottom.toNat * 4096 ≤ (0x1FFC#32).toNat ∧ (0x1FFC#32).toNat < sRing.cfTop.toNat * 4096)
      ∧ (0x1FFC#32).toNat % 8 = 4) := ⟨⟨rfl, rfl⟩, by decide, by decide, by decide⟩

theorem witness_TextureWordsArePlainStorage : bridgeOn sOn ∧ sOn.cfg.fbSize ≤ (0x6FFFFC#32).toNat
    ∧ ¬ (sOn.cfg.regStart ≤ (0x6FFFFC#32).toNat ∧ (0x6FFFFC#32).toNat < sOn.cfg.regStart + sOn.cfg.regSize)
    ∧ sOn.cfg.texStart ≤ (0x6FFFFC#32).toNat ∧ (0x6FFFFC#32).toNat < sOn.cfg.texStart + sOn.cfg.texSize
    ∧ (0x6FFFFC#32).toNat % 4 = 0 ∧ (0x6FFFFC#32).toNat + 4 ≤ sOn.cfg.companionSize := ⟨⟨rfl, rfl⟩, by decide, by decide, by decide, by decide, by decide, by decide⟩

theorem witness_InvalidPumaAddressReadsZero : bridgeOn sOn ∧ sOn.cfg.fbSize ≤ (0x700000#32).toNat
    ∧ ¬ (sOn.cfg.regStart ≤ (0x700000#32).toNat ∧ (0x700000#32).toNat < sOn.cfg.regStart + sOn.cfg.regSize)
    ∧ ¬ (sOn.cfg.texStart ≤ (0x700000#32).toNat ∧ (0x700000#32).toNat < sOn.cfg.texStart + sOn.cfg.texSize)
    ∧ (0x700000#32).toNat % 4 = 0 ∧ (0x700000#32).toNat + 4 ≤ sOn.cfg.companionSize := ⟨⟨rfl, rfl⟩, by decide, by decide, by decide, by decide, by decide⟩

theorem witness_MisalignedPumaAccessRefused : bridgeOn sOn ∧ (0x3FFFFF#32).toNat % 4 ≠ 0 ∧ classify sOn.cfg 0x3FFFFF = .fb ∧ (0x500001#32).toNat % 4 ≠ 0 ∧ classify sOn.cfg 0x500001 = .tex 1
    ∧ (0x400001#32).toNat % 4 ≠ 0 ∧ classify sOn.cfg 0x400001 = .reg 0 ∧ (0x700001#32).toNat % 4 ≠ 0 ∧ classify sOn.cfg 0x700001 = .invalid
    ∧ (0x3FFFFF#32).toNat + 4 ≤ sOn.cfg.companionSize ∧ sOn.cfg.companionSize < (0x7FFFFD#32).toNat + 4 := ⟨⟨rfl, rfl⟩, by decide, by decide, by decide, by decide, by decide, by decide, by decide, by decide, by decide, by decide⟩

theorem witness_ThpReadStagesTheResult : s0.cfg.wf = true ∧ fThpAddr ∈ s0.cfg.fields ∧ fThpAddr.kind = .thpAddr ∧ bridgeOn sOn
    ∧ classify sOn.cfg 0x4FFFFF = .reg 255 ∧ classify sOn.cfg 0xFFFFFFFF = .invalid ∧ ¬ bridgeOn s0
    ∧ classify sOn.cfg 0x3FFFFC = .fb ∧ (0x3FFFFC#32).toNat % 4 = 0 ∧ classify sOn.cfg 0x500001 = .tex 1 ∧ (0x500001#32).toNat % 4 ≠ 0 := 
  ⟨cfgRef_wf, by decide, rfl, ⟨rfl, rfl⟩, by decide, by decide, (fun h => by cases h.2), by decide, by decide, by decide, by decide⟩

theorem witness_ThpWriteMakesOneAccess : s0.cfg.wf = true ∧ fThpAddr ∈ s0.cfg.fields ∧ fThpAddr.kind = .thpAddr ∧ fThpData ∈ s0.cfg.fields
    ∧ fThpData.kind = .thpData ∧ bridgeOn sOn ∧ classify sOn.cfg 0x400000 = .reg 0
    ∧ classify sOn.cfg 0xFFFFFFFF = .invalid ∧ ¬ bridgeOn sNone := ⟨cfgRef_wf, by decide, rfl, by decide, rfl, ⟨rfl, rfl⟩, by decide, by decide, fun h => by cases h.1⟩

theorem witness_ThpDataAccesses : s0.cfg.wf = true ∧ fThpAddr ∈ s0.cfg.fields ∧ fThpAddr.kind = .thpAddr ∧ fThpData ∈ s0.cfg.fields ∧ fThpData.kind = .thpData
    ∧ (0x0804#16).toNat = fThpData.base + 0 ∧ (0x0806#16).toNat = fThpData.base + 2 ∧ (0x0807#16).toNat = fThpData.base + 3 ∧ ¬ bridgeOn s0
    ∧ bridgeOn (sAddr 0x4FFFFF) ∧ classify cfgRef ((sAddr 0x4FFFFF).rb.rd32 fThpAddr.base) = .reg 255
    ∧ bridgeOn (sAddr 0x3FFFFC) ∧ classify cfgRef ((sAddr 0x3FFFFC).rb.rd32 fThpAddr.base) = .fb
    ∧ bridgeOn (sAddr 0x500001) ∧ classify cfgRef ((sAddr 0x500001).rb.rd32 fThpAddr.base) = .tex 1
    ∧ bridgeOn (sAddr 0x700000) ∧ classify cfgRef ((sAddr 0x700000).rb.rd32 fThpAddr.base) = .invalid := 
  ⟨cfgRef_wf, by decide, rfl, by decide, rfl, by decide, by decide, by decide, (fun h => by cases h.2), ⟨rfl, rfl⟩, by decide, ⟨rfl, rfl⟩, by decide,
   ⟨rfl, rfl⟩, by decide, ⟨rfl, rfl⟩, by decide⟩

/-- For the no-op, write and rejected-header packets. -/
theorem witness_PacketAtTheReadPointer : slotOk (sSlot 0 0) = true ∧ (sSlot 0 0).cfEntryCount ≠ 0 := by decide

theorem witness_GroupedPacketWritesByMaskPosition : slotOk { sSlot 0x80000040 0x80000001 with cfReadPtr := 511 } = true ∧ ({ sSlot 0x80000040 0x80000001 with cfReadPtr := 511 } : State).cfEntryCount ≠ 0
    ∧ ∀ k, k < ((List.range 32).filter (fun j => (0x80000001#32).getLsbD j)).length →
      inRange { sSlot 0x80000040 0x80000001 with cfReadPtr := 511 }
        (ringBottom { sSlot 0x80000040 0x80000001 with cfReadPtr := 511 } + (511 * 8 + 8 + 4 * k) % 4096) 4 = true := by
  refine ⟨by decide, by decide, fun k hk => ?_⟩
  have h2 : k < 2 := hk
  interval_cases k <;> decide

theorem witness_OutOfRangePacketIsDropped : ({ sRing with cfTop := 0, cfEntryCount := 1 } : State).cfEntryCount ≠ 0 ∧ slotOk { sRing with cfTop := 0, cfEntryCount := 1 } = false
    ∧ slotOk { sRing with cfBottom := 0x3FF, cfTop := 0x401, cfReadPtr := 511, cfEntryCount := 1 } = true
    ∧ 0 < popcount 1
    ∧ inRange { sRing with cfBottom := 0x3FF, cfTop := 0x401, cfReadPtr := 511, cfEntryCount := 1 }
      (dataAddr { sRing with cfBottom := 0x3FF, cfTop := 0x401, cfReadPtr := 511, cfEntryCount := 1 } 0) 4 = false := by decide

/-- For `ValidRingNeverAborts` and `DrainRemovesItsBudget`. -/
theorem witness_ValidRing : sRing.cfEnabled = true ∧ validRing sRing := ⟨rfl, by decide, by decide, rfl⟩

theorem witness_RingWriteReplaysAWritePacket : bridgeOn sPut ∧ sPut.cfEnabled = true ∧ validRing sPut ∧ sPut.cfEntryCount = 0 ∧ (0x1004#32).toNat = slotAddr sPut + 4
    ∧ sPut.vram.rd32 (slotAddr sPut) = (0#1 ++ 0#8 ++ 3#21 ++ 0#2 : BitVec 32)
    ∧ (Packet.single 0 3 0 0x11).wellFormed = true := ⟨⟨rfl, rfl⟩, rfl, ⟨by decide, by decide, rfl⟩, rfl, by decide, by decide, by decide⟩

theorem witness_ConfigurationWritesCompleteAndFrame : (0xFE#8).toNat + 2 ≤ 256 ∧ (0xFC#8).toNat + 4 ≤ 256 := by decide

theorem witness_BarByteWriteActsOnTheStoredBase : s0.cfg.wf = true ∧ (0x13#8).toNat = s0.cfg.cfgBar.get .linear + 3 ∧ barBase (sMapped.setConf 0x13 0) .linear = 0
    ∧ memEn s0 = false ∧ barBase (s0.setConf 0x13 0xE0) .linear ≠ 0 ∧ memEn sMapped = true ∧ barBase (sMapped.setConf 0x13 0xD0) .linear ≠ 0
    ∧ (0x12#8).toNat = s0.cfg.cfgBar.get .linear + 2 ∧ barBase (sMapped.setConf 0x12 0x10) .linear ≠ 0 := ⟨cfgRef_wf, by decide, by decide, by decide, by decide, by decide, by decide, by decide, by decide⟩

theorem witness_CommandWriteGatesApertures : (0x04#8).toNat = s0.cfg.cfgCmd := by decide

theorem witness_BarDwordMapsTheAperture : sMapped.cfg.wf = true ∧ (0x10#8).toNat = sMapped.cfg.cfgBar.get .linear ∧ memEn sMapped = true
    ∧ 0x00100000#32 &&& baseMask .linear ≠ 0 := ⟨cfgRef_wf, by decide, by decide, by decide⟩

theorem witness_ConfigurationBytesWithoutAnAperture : s0.cfg.wf = true ∧ (0x3C#8).toNat = s0.cfg.cfgIntLine ∧ (0x05#8).toNat = s0.cfg.cfgCmd + 1 ∧ readOnlyByte s0.cfg (0x00#8).toNat
    ∧ readOnlyByte s0.cfg (0x3D#8).toNat ∧ readOnlyByte s0.cfg (0x1F#8).toNat := ⟨cfgRef_wf, by decide, by decide, ⟨by decide, by decide, by decide, by decide⟩, ⟨by decide, by decide, by decide, by decide⟩, ⟨by decide, by decide, by decide, by decide⟩⟩

/-- For `LinearReadsVideoMemory` and `LinearWritesCountNothing`. -/
theorem witness_LinearAccess : s0.cfg.wf = true ∧ (0x3FFFFF#32).toNat + 1 ≤ s0.cfg.linearSize ∧ (0x3FFFFE#32).toNat + 2 ≤ s0.cfg.linearSize ∧ (0x3FFFFC#32).toNat + 4 ≤ s0.cfg.linearSize
    ∧ 4 ≤ s0.cfg.vramSize ∧ s0.cfg.linearSize < (0x400000#32).toNat + 1 ∧ s0.cfg.linearSize < (0x3FFFFF#32).toNat + 2
    ∧ s0.cfg.linearSize < (0x3FFFFD#32).toNat + 4 := ⟨cfgRef_wf, by decide, by decide, by decide, by decide, by decide, by decide, by decide⟩

theorem witness_RomReadsTheImageAndIgnoresWrites : (0xFFFF#32).toNat + 1 ≤ s0.cfg.romSize ∧ (0xFFFE#32).toNat + 2 ≤ s0.cfg.romSize ∧ (0xFFFC#32).toNat + 4 ≤ s0.cfg.romSize
    ∧ s0.cfg.romSize < (0x10000#32).toNat + 1 ∧ s0.cfg.romSize < (0xFFFF#32).toNat + 2 ∧ s0.cfg.romSize < (0xFFFD#32).toNat + 4 := by decide

theorem witness_VsyncCountsPendingSwapsDown : ({ s0 with swapReq := true, swapPending := 2 } : State).swapReq = true ∧ 1 < ({ s0 with swapReq := true, swapPending := 2 } : State).swapPending.toNat
    ∧ ({ s0 with swapReq := true, swapPending := 1 } : State).swapPending.toNat = 1 ∧ s0.swapReq = false := by decide

/-- For the two statements on what only some operations change. -/
theorem witness_OnlyConfigurationWritesMoveApertures : exec .swapReq s0 = .next { s0 with swapReq := true } ∧ Instr.swapReq ≠ .reset := ⟨rfl, by decide⟩

theorem witness_OnlyResetClearsHandshakeFlags : ({ sOn with thpRequest := true } : State).thpRequest = true ∧ exec .swapReq { sOn with thpRequest := true } = .next { sOn with thpRequest := true, swapReq := true } := ⟨rfl, rfl⟩

theorem witness_AbsentCompanionStateIsFrozen : sNone.cfg.companionPresent = false ∧ exec (.pumaW32 0x403000 7) sNone = .next (sNone.log .bridgeNotConfigured)
    ∧ (Instr.pumaW32 0x403000 7).packet? = none := ⟨rfl, rfl, rfl⟩

/-- For the four invariants that every step keeps, and for the one that reset meets them. -/
theorem witness_StepInvariants : s0.cfg.wf = true ∧ memoryInv s0 ∧ apertureInv s0 ∧ confInv s0 ∧ idleInv s0 ∧ latchInv s0
    ∧ step { s0 with bus := [.ops [0x74]] } = .next { s0 with swapReq := true, bus := [] } := by
  refine ⟨cfgRef_wf, by unfold memoryInv; decide, ?_, ⟨fun _ _ => rfl, by decide, by decide⟩, ⟨rfl, rfl, rfl, by decide, by decide, fun h => by cases h⟩,
    by unfold latchInv; decide, rfl⟩
  intro ap hap
  cases ap <;> cases hap

end Sys2Proof.Tests
end

section
/-! The classification of a header slot (spec/30_encoding.md R94): each match and mask row, on the 64 bits of the slot, is a test of
its two words, and these tests are the branches of `decodePacket`. -/

namespace Sys2Proof

/-! ## Match and mask on the two words of a slot -/

theorem bitVec_append_eq_append_iff {w v : Nat} {a c : BitVec w} {b d : BitVec v} : a ++ b = c ++ d ↔ a = c ∧ b = d := by
  constructor
  · intro h
    have hi := congrArg (BitVec.extractLsb' v w) h
    have lo := congrArg (BitVec.extractLsb' 0 v) h
    rw [BitVec.extractLsb'_append_eq_left, BitVec.extractLsb'_append_eq_left] at hi
    rw [BitVec.extractLsb'_append_eq_right, BitVec.extractLsb'_append_eq_right] at lo
    exact ⟨hi, lo⟩
  · rintro ⟨rfl, rfl⟩
    rfl

/-- A row matches a slot when its two halves match the slot's two words. -/
theorem slot_matches_iff (aw dw maskHi maskLo matchHi matchLo : Word) :
    (dw ++ aw) &&& (maskHi ++ maskLo) = matchHi ++ matchLo ↔ dw &&& maskHi = matchHi ∧ aw &&& maskLo = matchLo := by
  rw [BitVec.and_append, bitVec_append_eq_append_iff]

/-- The mask of the bit `G` keeps it alone (R93). -/
theorem and_groupMask_eq_iff (aw : Word) : aw &&& 0x80000000#32 = 0x80000000#32 ↔ aw.getLsbD 31 = true := by
  have h : aw &&& 0x80000000#32 = if aw.getLsbD 31 then 0x80000000#32 else 0#32 := BitVec.and_twoPow aw 31
  rw [h]
  cases aw.getLsbD 31 <;> decide

theorem slot_matches_nop_iff (aw dw : Word) :
    (dw ++ aw : BitVec 64) &&& 0xFFFFFFFFFFFFFFFF#64 = 0x0000000000000000#64 ↔ aw = 0 ∧ dw = 0 := by
  have h := slot_matches_iff aw dw (BitVec.allOnes 32) (BitVec.allOnes 32) 0 0
  rw [BitVec.and_allOnes, BitVec.and_allOnes] at h
  exact h.trans and_comm

theorem slot_matches_rejected_iff (aw dw : Word) :
    (dw ++ aw : BitVec 64) &&& 0xFFFFFFFF80000000#64 = 0x0000000080000000#64 ↔ aw.getLsbD 31 = true ∧ dw = 0 := by
  have h := slot_matches_iff aw dw (BitVec.allOnes 32) 0x80000000#32 0 0x80000000#32
  rw [BitVec.and_allOnes, and_groupMask_eq_iff] at h
  exact h.trans and_comm

theorem slot_matches_grouped_iff (aw dw : Word) :
    (dw ++ aw : BitVec 64) &&& 0x0000000080000000#64 = 0x0000000080000000#64 ↔ aw.getLsbD 31 = true := by
  have h := slot_matches_iff aw dw 0#32 0x80000000#32 0#32 0x80000000#32
  rw [BitVec.and_zero, and_groupMask_eq_iff] at h
  exact h.trans (and_iff_right rfl)

/-! ## The decoder, branch by branch -/

@[simp] theorem decodePacket_zero : decodePacket 0 0 = .nop := rfl

theorem decodePacket_of_group_of_zero {aw : Word} (hg : aw.getLsbD 31 = true) :
    decodePacket aw 0 = .rejected (hdrHi aw) (hdrReg aw) (hdrLo aw) := by
  have hz : ¬ (aw = 0 ∧ (0 : Word) = 0) := by rintro ⟨rfl, -⟩; simp at hg
  rw [decodePacket, if_neg hz, if_pos hg, if_pos rfl]

theorem decodePacket_of_group_of_ne {aw dw : Word} (hg : aw.getLsbD 31 = true) (hd : dw ≠ 0) :
    decodePacket aw dw = .grouped (hdrHi aw) (hdrReg aw) (hdrLo aw) dw := by
  rw [decodePacket, if_neg (fun h => hd h.2), if_pos hg, if_neg hd]

theorem decodePacket_of_not_group {aw dw : Word} (hz : ¬ (aw = 0 ∧ dw = 0)) (hg : ¬ aw.getLsbD 31 = true) :
    decodePacket aw dw = .single (hdrHi aw) (hdrReg aw) (hdrLo aw) dw := by
  rw [decodePacket, if_neg hz, if_neg hg]

/-- The register index as arithmetic: bits 22:2 of the address word (R96). -/
theorem hdrReg_toNat (aw : Word) : (hdrReg aw).toNat = aw.toNat / 4 % 2 ^ 21 := by
  rw [hdrReg, BitVec.extractLsb'_toNat, Nat.shiftRight_eq_div_pow]

/-- Settles O3: each row's match is a test of the words, and the tests in order select a branch of the decoder. -/
theorem packetClassificationPriority : Obligations.PacketClassificationPriority := by
  unfold Obligations.PacketClassificationPriority
  intro aw dw
  simp only [slot_matches_nop_iff, slot_matches_rejected_iff, slot_matches_grouped_iff]
  split
  next hz =>
    obtain ⟨rfl, rfl⟩ := hz
    exact decodePacket_zero
  next hz =>
    split
    next hr =>
      obtain ⟨hg, rfl⟩ := hr
      exact ⟨_, _, _, decodePacket_of_group_of_zero hg, hdrReg_toNat aw⟩
    next hr =>
      split
      next hg => exact ⟨_, _, _, decodePacket_of_group_of_ne hg (fun hd => hr ⟨hg, hd⟩), hdrReg_toNat aw⟩
      next hg => exact ⟨_, _, _, decodePacket_of_not_group hz hg, hdrReg_toNat aw⟩

end Sys2Proof
end

section
/-! The register window (spec/40_regbank.md R125, R126, R129, R132): a wide access is its byte accesses in address order, for any
number of bytes, and a fallback offset is a stored byte and nothing more. -/

namespace Sys2Proof.Machine

/-! ## The operations of the register window -/

theorem exec_mmioR8 (o : BitVec 16) (s : State) : exec (.mmioR8 o) s = execMmioR8 o s := rfl
theorem exec_mmioR16 (o : BitVec 16) (s : State) : exec (.mmioR16 o) s = finishRead .w2 (mmioRead o.toNat .w2 s) := rfl
theorem exec_mmioR32 (o : BitVec 16) (s : State) : exec (.mmioR32 o) s = finishRead .w4 (mmioRead o.toNat .w4 s) := rfl

theorem exec_mmioW8 (o : BitVec 16) (v : Byte) (s : State) : exec (.mmioW8 o v) s = finish (mmioWrite8 o.toNat v s) :=
  execMmioW8_eq o v s

theorem exec_mmioW16 (o : BitVec 16) (v : Half) (s : State) :
    exec (.mmioW16 o v) s = finish (mmioWrite o.toNat (halfBytes v) s) := rfl

theorem exec_mmioW32 (o : BitVec 16) (v : Word) (s : State) :
    exec (.mmioW32 o v) s = finish (mmioWrite o.toNat (wordBytes v) s) := rfl

theorem exec_reset (s : State) : exec .reset s = .next (resetState s) := rfl

/-! ## Offsets inside the window -/

theorem toNat_ofNat_of_lt_winSize {a : Nat} (h : a < winSize) : (BitVec.ofNat 16 a).toNat = a :=
  (BitVec.toNat_ofNat a 16).trans (Nat.mod_eq_of_lt h)

theorem ofNat_toNat_add (o : BitVec 16) (k : Nat) : BitVec.ofNat 16 (o.toNat + k) = o + BitVec.ofNat 16 k := by
  rw [BitVec.ofNat_add, BitVec.ofNat_toNat, BitVec.setWidth_eq]

/-! ## Wide reads -/

/-- A read inside the window is its byte reads; past the window's edge it is refused (R125, R132). -/
theorem mmioRead_inside {o : Nat} {n : Width} (s : State) (h : o + n.bytes ≤ winSize) :
    mmioRead o n s = readBytes mmioRead8 n.bytes o s := if_neg (by omega)

theorem mmioRead_outside {o : Nat} {n : Width} (s : State) (h : winSize < o + n.bytes) :
    mmioRead o n s = .error .windowEdge := if_pos h

/-- The bytes a wide read collects do not depend on the last reply. -/
theorem readBytes_mmioRead8_setReply (r : Reply) : ∀ (n a : Nat) (s : State),
    readBytes mmioRead8 n a (s.setReply r) = (readBytes mmioRead8 n a s).map (fun p => (p.1, p.2.setReply r))
  | 0, _, _ => rfl
  | n + 1, a, s => by
    rw [readBytes, readBytes, mmioRead8_setReply]
    cases mmioRead8 a s with
    | error e => rfl
    | ok p =>
      obtain ⟨b, t⟩ := p
      have ih := readBytes_mmioRead8_setReply r n (a + 1) t
      simp only [Except.map] at ih ⊢
      rw [ih]
      cases readBytes mmioRead8 n (a + 1) t <;> rfl

/-- A completed or refused read whose value is made of its bytes by `val`. -/
def finishWith (val : List Byte → Reply) : Except Refusal (List Byte × State) → Result
  | .ok (bs, s) => .next (s.setReply (val bs))
  | .error r => .refused r

theorem finishRead_eq_finishWith (n : Width) (x : Except Refusal (List Byte × State)) :
    finishRead n x = finishWith (replyOf n) x := by
  cases x <;> rfl

/-- `n` operations `MMIO.R8` at `a, a+1, ...`, and then the value `val` makes of their bytes. -/
def readEach : Nat → Nat → (List Byte → Reply) → State → Result
  | 0, _, val, s => .next (s.setReply (val []))
  | n + 1, a, val, s =>
    readThen (exec (.mmioR8 (BitVec.ofNat 16 a)) s) fun t b => readEach n (a + 1) (fun bs => val (b :: bs)) t

/-- The byte reads of a wide read inside the window are operations `MMIO.R8`: the reply each leaves behind is seen by none after it. -/
theorem finishWith_readBytes : ∀ (n a : Nat) (val : List Byte → Reply) (s : State), a + n ≤ winSize →
    finishWith val (readBytes mmioRead8 n a s) = readEach n a val s
  | 0, _, _, _, _ => rfl
  | n + 1, a, val, s, h => by
    rw [readEach, exec_mmioR8, readThen_mmioR8, toNat_ofNat_of_lt_winSize (by omega), readBytes]
    cases mmioRead8 a s with
    | error e => rfl
    | ok p =>
      obtain ⟨b, t⟩ := p
      dsimp only
      rw [← finishWith_readBytes n (a + 1) _ _ (by omega), readBytes_mmioRead8_setReply]
      cases readBytes mmioRead8 n (a + 1) t <;> rfl

/-- A register-window read is its byte reads, or refused past the window's edge (R125, R132). -/
theorem finishRead_mmioRead (o : Nat) (n : Width) (s : State) :
    finishRead n (mmioRead o n s) = if o + n.bytes ≤ winSize then readEach n.bytes o (replyOf n) s else .refused .windowEdge := by
  split
  next h => rw [mmioRead_inside s h, finishRead_eq_finishWith, finishWith_readBytes _ _ _ _ h]
  next h => rw [mmioRead_outside s (by omega), finishRead_error]

/-! ## Wide writes -/

/-- The operations `MMIO.W8` that store some bytes at `a, a+1, ...`. -/
def byteWrites : List Byte → Nat → List Instr
  | [], _ => []
  | v :: bs, a => .mmioW8 (BitVec.ofNat 16 a) v :: byteWrites bs (a + 1)

/-- The byte writes of a wide write inside the window are operations `MMIO.W8`. -/
theorem finish_writeBytes : ∀ (bs : List Byte) (a : Nat) (s : State), a + bs.length ≤ winSize →
    finish (writeBytes mmioWrite8 bs a s) = runAll (byteWrites bs a) s
  | [], _, _, _ => rfl
  | v :: bs, a, s, h => by
    rw [List.length_cons] at h
    rw [byteWrites, runAll, exec_mmioW8, toNat_ofNat_of_lt_winSize (by omega), writeBytes_cons]
    cases mmioWrite8 a v s with
    | error e => rfl
    | ok t => exact finish_writeBytes bs (a + 1) t (by omega)

/-- A register-window write is its byte writes, or refused past the window's edge (R126, R132). -/
theorem finish_mmioWrite (o : Nat) (bs : List Byte) (s : State) :
    finish (mmioWrite o bs s) = if o + bs.length ≤ winSize then runAll (byteWrites bs o) s else .refused .windowEdge := by
  split
  next h => rw [mmioWrite_inside s h, finish_writeBytes _ _ _ h]
  next h => rw [mmioWrite_outside s (by omega), finish_error]

/-- Settles O11: both wide reads follow from one fact about reads of any number of bytes, both wide writes from one about writes. -/
theorem wideWindowAccessIsByteAccesses : Obligations.WideWindowAccessIsByteAccesses := by
  unfold Obligations.WideWindowAccessIsByteAccesses
  intro s o
  refine ⟨?_, ?_, fun v => ?_, fun v => ?_⟩
  · rw [exec_mmioR16, finishRead_mmioRead]
    simp only [Width.bytes, readEach, ofNat_toNat_add, BitVec.ofNat_toNat, BitVec.setWidth_eq]
    rfl
  · rw [exec_mmioR32, finishRead_mmioRead]
    simp only [Width.bytes, readEach, Nat.add_assoc, ofNat_toNat_add, BitVec.ofNat_toNat, BitVec.setWidth_eq]
    rfl
  · rw [exec_mmioW16, finish_mmioWrite]
    simp only [halfBytes, byteWrites, ofNat_toNat_add, BitVec.ofNat_toNat, BitVec.setWidth_eq]
    rfl
  · rw [exec_mmioW32, finish_mmioWrite]
    simp only [wordBytes, byteWrites, Nat.add_assoc, ofNat_toNat_add, BitVec.ofNat_toNat, BitVec.setWidth_eq]
    rfl

/-! ## Fallback offsets -/

theorem quietOffset_of_fieldAt_none {c : Cfg} {o : Nat} (h : fieldAt c o = none) : quietOffset c o := by
  intro f i hf
  rw [h] at hf
  cases hf

theorem storedOffset_of_fieldAt_none {c : Cfg} {o : Nat} (h : fieldAt c o = none) : storedOffset c o := by
  intro f i hf
  rw [h] at hf
  cases hf

theorem recalcAt_of_fieldAt_none {c : Cfg} {o : Nat} (h : fieldAt c o = none) : recalcAt c o = [] := by
  rw [recalcAt, h]

/-- A write at a fallback offset changes the stored byte and nothing else (R129). -/
theorem exec_mmioW8_fallback {o : BitVec 16} (v : Byte) {s : State} (h : fieldAt s.cfg o.toNat = none) :
    exec (.mmioW8 o v) s = .next (s.setRb o.toNat v) := by
  rw [exec_mmioW8, mmioWrite8_quiet v (quietOffset_of_fieldAt_none h), recalcAt_of_fieldAt_none h, List.append_nil]
  rfl

/-- A read at a fallback offset returns the stored byte and changes nothing else (R129). -/
theorem exec_mmioR8_fallback {o : BitVec 16} {s : State} (h : fieldAt s.cfg o.toNat = none) :
    exec (.mmioR8 o) s = .next (s.setReply (.r8 (s.rb.read o.toNat))) :=
  execMmioR8_stored (storedOffset_of_fieldAt_none h)

theorem resetState_rb_read (s : State) (a : Nat) : (resetState s).rb.read a = 0 := rfl

/-- Settles O13: a fallback offset is quiet and stored, and reset leaves the window with no listed byte. -/
theorem fallbackOffsetIsPlainStorage : Obligations.FallbackOffsetIsPlainStorage := by
  unfold Obligations.FallbackOffsetIsPlainStorage
  intro s o v h
  refine ⟨⟨s.setRb o.toNat v, exec_mmioW8_fallback v h, rfl, fun a => ?_, ?_⟩, exec_mmioR8_fallback h,
    ⟨resetState s, exec_reset s, resetState_rb_read s o.toNat⟩⟩
  · rw [State.setRb_rb, Mem.read_write]
  · have hread : (s.setRb o.toNat v).rb.read o.toNat = v := by rw [State.setRb_rb, Mem.read_write_same]
    rw [exec_mmioR8_fallback (s := s.setRb o.toNat v) h, hread]

end Sys2Proof.Machine
end

section
/-! Configuration space and apertures (spec/41_pci_aperture.md R150 to R155): what a read returns, and what a write of the command
register or of a BAR group does to the mappings and tells the collaborator. -/

namespace Sys2Proof.Machine

/-! ## Configuration reads -/

theorem exec_cfgR8 (reg : BitVec 8) (s : State) : exec (.cfgR8 reg) s = finishRead .w1 (confRead reg.toNat .w1 s) := rfl
theorem exec_cfgR16 (reg : BitVec 8) (s : State) : exec (.cfgR16 reg) s = finishRead .w2 (confRead reg.toNat .w2 s) := rfl
theorem exec_cfgR32 (reg : BitVec 8) (s : State) : exec (.cfgR32 reg) s = finishRead .w4 (confRead reg.toNat .w4 s) := rfl

/-- A byte of a BAR group reads as its probe byte while the group is zero, and as stored otherwise (R150, R151). -/
theorem confByte_of_barAt_some {s : State} {reg : Nat} {ap : Aperture} {i : Nat} (h : barAt s.cfg reg = some (ap, i)) :
    confByte reg s = if barGroup s ap = 0 then lane (s.cfg.probe.get ap) i else s.conf.read reg := by
  obtain ⟨hlo, -, hi⟩ := barAt_some h
  have hreg : s.cfg.cfgBar.get ap + i = reg := by omega
  rw [confByte, h]
  dsimp only
  rw [barReadByte, hreg]

theorem confByte_of_barAt_none {s : State} {reg : Nat} (h : barAt s.cfg reg = none) : confByte reg s = s.conf.read reg := by
  rw [confByte, h]

/-- A configuration read collects its bytes and changes nothing, or is refused past offset 255 (R150, R162). -/
theorem finishRead_confRead (reg : Nat) (n : Width) (s : State) :
    finishRead n (confRead reg n s) = if reg + n.bytes ≤ 256
      then .next (s.setReply (replyOf n ((List.range n.bytes).map (fun k => confByte (reg + k) s)))) else .refused .configEdge := by
  unfold confRead
  split
  next h => rw [if_neg (by omega), finishRead_error]
  next h =>
    have hbytes := readBytes_pure (g := fun a => confByte a s) (s := s) n.bytes reg (f := confRead8) (fun _ _ => rfl)
    rw [if_pos (by omega), hbytes, finishRead_ok]

/-- Settles O40: each byte is the stored or the probe byte by its BAR group, and a read of any width is made of such bytes. -/
theorem configurationReads : Obligations.ConfigurationReads := by
  unfold Obligations.ConfigurationReads
  intro s reg byteAt
  have hbyte : byteAt = fun a => confByte a s := by
    funext a
    cases h : barAt s.cfg a with
    | none => simp only [byteAt, h, confByte_of_barAt_none h]
    | some p =>
      obtain ⟨ap, i⟩ := p
      simp only [byteAt, h]
      exact (confByte_of_barAt_some h).symm
  have hreg := reg.isLt
  rw [exec_cfgR8, exec_cfgR16, exec_cfgR32, finishRead_confRead, finishRead_confRead, finishRead_confRead, hbyte]
  exact ⟨if_pos (by rw [Width.bytes]; omega), rfl, rfl⟩

/-! ## Memory decode -/

/-- A write of another register leaves memory decode as it was. -/
theorem memEn_setConf_of_ne {s : State} {reg : Nat} (v : Byte) (h : s.cfg.cfgCmd ≠ reg) : memEn (s.setConf reg v) = memEn s := by
  rw [memEn, memEn, State.setConf_cfg, State.setConf_conf, Mem.read_write_ne _ _ h]

/-- The state in which `commandWriteLow` tests memory decode: the masked low byte is stored, no aperture is touched yet (R153). -/
def storeCommandLow (v : Byte) (s : State) : State := s.setConf s.cfg.cfgCmd (v &&& lane s.cfg.cmdWmask 0)

theorem commandWriteLow_of_memEn {v : Byte} {s : State} (h : memEn (storeCommandLow v s) = true) :
    commandWriteLow v s = storeCommandLow v s := if_pos h

theorem commandWriteLow_of_not_memEn {v : Byte} {s : State} (h : ¬ memEn (storeCommandLow v s) = true) :
    commandWriteLow v s = unmapAll (storeCommandLow v s) := if_neg h

/-- The unmapping of a command write leaves the memory decode that the write stored. -/
theorem memEn_commandWriteLow (v : Byte) (s : State) : memEn (commandWriteLow v s) = memEn (storeCommandLow v s) := by
  rw [commandWriteLow_frame]
  rfl

theorem confWriteByte_command (v : Byte) (s : State) : confWriteByte s.cfg.cfgCmd v s = commandWriteLow v s := if_pos rfl

/-- Settles O44: the stored low byte decides between the state as stored and that state with every aperture unmapped. -/
theorem commandWriteGatesApertures : Obligations.CommandWriteGatesApertures := by
  unfold Obligations.CommandWriteGatesApertures
  intro s reg v hreg
  have hframe := commandWriteLow_frame v s
  refine ⟨commandWriteLow v s, by rw [exec_cfgW8, hreg, confWriteByte_command], by rw [hframe], fun a => ?_, fun hon => ?_,
    fun hoff => ?_⟩
  · rw [hframe, hreg]
    exact Mem.read_write _ _ _ _
  · rw [memEn_commandWriteLow] at hon
    rw [commandWriteLow_of_memEn hon]
    exact ⟨rfl, rfl⟩
  · rw [memEn_commandWriteLow] at hoff
    obtain ⟨hevents, hget⟩ := unmapAll_spec (storeCommandLow v s)
    rw [commandWriteLow_of_not_memEn (Bool.eq_false_iff.1 hoff)]
    exact ⟨fun ap => by rw [hget], by rw [hevents]; rfl⟩

/-! ## The mapping of one aperture -/

theorem unmapAp_get_same (ap : Aperture) (s : State) : (unmapAp ap s).ap.get ap = ⟨false, (s.ap.get ap).base⟩ := by
  rw [unmapAp_get, if_pos rfl]

theorem unmapAp_events (ap : Aperture) (s : State) :
    (unmapAp ap s).events = s.events ++ (if (s.ap.get ap).en = true then [.unmap ap] else []) := by
  rw [(unmapAp_spec ap s).1]

theorem moveEvent_events (ap : Aperture) (base : Word) (s : State) : (moveEvent ap base s).events =
    s.events ++ (if (s.ap.get ap).en = true ∧ (s.ap.get ap).base ≠ base then [.unmap ap] else []) := by
  unfold moveEvent
  split
  · rfl
  · exact (List.append_nil _).symm

/-- With memory decode on a commit maps the aperture, reporting a move first as an unmapping (R155). -/
theorem commit_of_memEn {ap : Aperture} {base : Word} {s : State} (h : memEn s = true) :
    (commit ap base s).ap.get ap = ⟨true, base⟩ ∧ (commit ap base s).events = s.events
      ++ (if (s.ap.get ap).en = true ∧ (s.ap.get ap).base ≠ base then [.unmap ap] else []) ++ [.map ap base (s.cfg.apSize ap)] := by
  rw [commit, if_pos h, State.emit_ap, State.setMapping_ap, PerAp.get_set_same, State.emit_events, State.setMapping_events,
    moveEvent_events]
  exact ⟨rfl, rfl⟩

theorem commit_of_not_memEn {ap : Aperture} {base : Word} {s : State} (h : memEn s = false) :
    commit ap base s = unmapAp ap s := if_neg (Bool.eq_false_iff.1 h)

/-! ## BAR byte writes -/

theorem exec_cfgW8_bar {s : State} (h : s.cfg.wf = true) {ap : Aperture} {i : Nat} (hi : i < 4) {reg : BitVec 8}
    (hreg : reg.toNat = s.cfg.cfgBar.get ap + i) (v : Byte) : exec (.cfgW8 reg v) s = .next (barWriteByte ap i v s) := by
  rw [exec_cfgW8, hreg, confWriteByte_bar h ap hi]

theorem memEn_setConf_bar {s : State} (h : s.cfg.wf = true) (ap : Aperture) {i : Nat} (hi : i < 4) (v : Byte) :
    memEn (s.setConf (s.cfg.cfgBar.get ap + i) v) = memEn s := by
  obtain ⟨-, hcmd, -⟩ := wf_bar h ap
  exact memEn_setConf_of_ne v (by omega)

section
variable {ap : Aperture} {i : Nat} {v : Byte} {s : State}

theorem barWriteByte_of_base_zero (h : barBase (s.setConf (s.cfg.cfgBar.get ap + i) v) ap = 0) :
    barWriteByte ap i v s = unmapAp ap (s.setConf (s.cfg.cfgBar.get ap + i) v) := if_pos h

theorem barWriteByte_high_of_base_ne (h : barBase (s.setConf (s.cfg.cfgBar.get ap + 3) v) ap ≠ 0) :
    barWriteByte ap 3 v s =
      commit ap (barBase (s.setConf (s.cfg.cfgBar.get ap + 3) v) ap) (s.setConf (s.cfg.cfgBar.get ap + 3) v) :=
  (if_neg h).trans (if_pos rfl)

theorem barWriteByte_low_of_base_ne (h : barBase (s.setConf (s.cfg.cfgBar.get ap + i) v) ap ≠ 0) (hi : i ≠ 3) :
    barWriteByte ap i v s = s.setConf (s.cfg.cfgBar.get ap + i) v :=
  (if_neg h).trans (if_neg hi)

/-- A zero base, and a high byte while memory decode is off, unmap the aperture (R154, R155). -/
theorem barWriteByte_unmaps (hmem : memEn (s.setConf (s.cfg.cfgBar.get ap + i) v) = memEn s)
    (h : barBase (s.setConf (s.cfg.cfgBar.get ap + i) v) ap = 0 ∨ (i = 3 ∧ memEn s = false)) :
    barWriteByte ap i v s = unmapAp ap (s.setConf (s.cfg.cfgBar.get ap + i) v) := by
  by_cases hbase : barBase (s.setConf (s.cfg.cfgBar.get ap + i) v) ap = 0
  · exact barWriteByte_of_base_zero hbase
  · obtain ⟨rfl, hoff⟩ := h.resolve_left hbase
    rw [barWriteByte_high_of_base_ne hbase, commit_of_not_memEn (hmem.trans hoff)]

end

/-- Settles O43: after the frame of a BAR byte write, each of the three cases is an unmapping, a commit or the store alone. -/
theorem barByteWriteActsOnTheStoredBase : Obligations.BarByteWriteActsOnTheStoredBase := by
  unfold Obligations.BarByteWriteActsOnTheStoredBase
  intro s ap i reg v hwf hi hreg
  dsimp only
  have hmem := memEn_setConf_bar hwf ap hi v
  obtain ⟨hframe, hothers⟩ := barWriteByte_frame ap i v s
  refine ⟨barWriteByte ap i v s, exec_cfgW8_bar hwf hi hreg v, by rw [hframe], fun a => ?_, hothers, ?_, ?_, ?_⟩ <;> rw [hreg]
  · rw [hframe]
    exact Mem.read_write _ _ _ _
  · intro hbase
    rw [barWriteByte_unmaps hmem hbase, unmapAp_get_same, unmapAp_events]
    exact ⟨rfl, rfl⟩
  · rintro hbase rfl hon
    rw [barWriteByte_high_of_base_ne hbase]
    exact commit_of_memEn (hmem.trans hon)
  · intro hbase hlow
    rw [barWriteByte_low_of_base_ne hbase hlow]
    exact ⟨rfl, rfl⟩

end Sys2Proof.Machine
end

section
/-! The bridge (spec/42_bridge_puma.md R193, R194, R198, R200): with the bridge on a PUMA access is the access past the gate, the
Companion aperture passes an aligned word inside it on as the PUMA access at the same address, and a texture word is stored bytes. -/

namespace Sys2Proof.Machine

/-! ## PUMA and Companion accesses -/

section
variable {a : Word} {s : State}

theorem bridgeRead_of_bridgeOn (h : bridgeOn s) : bridgeRead a s = pumaRead a s := by
  rw [bridgeRead, bridgeGate_eq_none.2 h]

theorem bridgeWrite_of_bridgeOn (h : bridgeOn s) (v : Word) : bridgeWrite a v s = pumaWrite a v s := by
  rw [bridgeWrite, bridgeGate_eq_none.2 h]

theorem exec_pumaR32_of_bridgeOn (h : bridgeOn s) : exec (.pumaR32 a) s = finishWord (pumaRead a s) :=
  congrArg finishWord (bridgeRead_of_bridgeOn h)

theorem exec_pumaW32_of_bridgeOn (h : bridgeOn s) (v : Word) : exec (.pumaW32 a v) s = finish (pumaWrite a v s) :=
  congrArg finish (bridgeWrite_of_bridgeOn h v)

theorem companionAdmits_aligned_inside (halign : a.toNat % 4 = 0) (hin : a.toNat + 4 ≤ s.cfg.companionSize) :
    companionAdmits s a = none :=
  (if_neg (by omega)).trans (if_pos halign)

/-- An admitted Companion read is the PUMA read at the offset, with the bridge on or off (R200). -/
theorem exec_compR32_eq_pumaR32 (halign : a.toNat % 4 = 0) (hin : a.toNat + 4 ≤ s.cfg.companionSize) :
    exec (.compR32 a) s = exec (.pumaR32 a) s := by
  change execCompR32 a s = execPumaR32 a s
  rw [execCompR32, companionAdmits_aligned_inside halign hin, execPumaR32]

/-- An admitted Companion write is the PUMA write at the offset, with the bridge on or off (R200). -/
theorem exec_compW32_eq_pumaW32 (halign : a.toNat % 4 = 0) (hin : a.toNat + 4 ≤ s.cfg.companionSize) (v : Word) :
    exec (.compW32 a v) s = exec (.pumaW32 a v) s := by
  change execCompW32 a v s = execPumaW32 a v s
  rw [execCompW32, companionAdmits_aligned_inside halign hin, execPumaW32]

/-! ## Texture words -/

variable {k : Nat}

theorem pumaRead_tex (hc : classify s.cfg a = .tex k) (halign : a.toNat % 4 = 0) : pumaRead a s = .ok (s.tex.rd32 k, s) := by
  rw [pumaRead, hc]
  exact if_pos halign

theorem pumaWrite_tex (hc : classify s.cfg a = .tex k) (halign : a.toNat % 4 = 0) (v : Word) :
    pumaWrite a v s = .ok (s.setTex (s.tex.wr32 k v)) := by
  rw [pumaWrite, hc]
  exact if_pos halign

/-- A PUMA read of a texture word returns the stored word and changes nothing else (R193, R198). -/
theorem exec_pumaR32_tex (hon : bridgeOn s) (hc : classify s.cfg a = .tex k) (halign : a.toNat % 4 = 0) :
    exec (.pumaR32 a) s = .next (s.setReply (.r32 (s.tex.rd32 k))) := by
  rw [exec_pumaR32_of_bridgeOn hon, pumaRead_tex hc halign, finishWord_ok]

/-- A PUMA write of a texture word stores it and changes nothing else (R194, R198). -/
theorem exec_pumaW32_tex (hon : bridgeOn s) (hc : classify s.cfg a = .tex k) (halign : a.toNat % 4 = 0) (v : Word) :
    exec (.pumaW32 a v) s = .next (s.setTex (s.tex.wr32 k v)) := by
  rw [exec_pumaW32_of_bridgeOn hon, pumaWrite_tex hc halign, finish_ok]

end

/-- Settles O25: the address names a texture byte, so a read is `rd32` and a write `wr32` there. The write keeps the gate and the
classification, so the read after it is one of the same word. -/
theorem textureWordsArePlainStorage : Obligations.TextureWordsArePlainStorage := by
  unfold Obligations.TextureWordsArePlainStorage
  intro s a v hon hfb hreg hlo hhi halign k
  have hc : classify s.cfg a = .tex k := classify_of_tex hfb hreg hlo hhi
  refine ⟨hc, fun hin => ⟨exec_compR32_eq_pumaR32 halign hin, exec_compW32_eq_pumaW32 halign hin v⟩,
    exec_pumaR32_tex hon hc halign, s.setTex (s.tex.wr32 k v), exec_pumaW32_tex hon hc halign v, rfl, fun b => ?_, ?_⟩
  · exact Mem.read_wr32 s.tex k b v
  · have hread := exec_pumaR32_tex (s := s.setTex (s.tex.wr32 k v)) hon hc halign
    rwa [State.setTex_tex, Mem.rd32_wr32_same] at hread

end Sys2Proof.Machine
end

section
/-! The CmdFifo's configuration registers and the packets that read no ring data (spec/43_cmdfifo.md R230 to R232, R239, R241, R242):
the last byte of a configuration field is stored and then loads its latches, and a packet in a slot that can be fetched has its effect
and is consumed. -/

namespace Sys2Proof.Machine

/-! ## The write of a field's last byte -/

/-- The state a byte write leaves before the field's last-byte action: the byte stored, the callback emitted (R122, R130). -/
def State.storeByte (s : State) (o : Nat) (v : Byte) : State :=
  { s with rb := s.rb.write o v, events := s.events ++ recalcAt s.cfg o }

theorem State.storeByte_read (s : State) (o : Nat) (v : Byte) (a : Nat) :
    (s.storeByte o v).rb.read a = if a = o then v else s.rb.read a :=
  Mem.read_write s.rb o a v

/-- The write of a field's last byte is the byte stored and then the field's action (R122, R123). -/
theorem exec_mmioW8_last {s t : State} {o : BitVec 16} {v : Byte} {f : RegField} {i : Nat}
    (hf : fieldAt s.cfg o.toNat = some (f, i)) (hl : i + 1 = f.width)
    (ha : lastByteAction f (s.rb.read o.toNat) v (s.storeByte o.toNat v) = .ok t) : exec (.mmioW8 o v) s = .next t := by
  rw [State.storeByte] at ha
  rw [exec_mmioW8, mmioWrite8_last v hf hl, ha, finish_ok]

section
variable {f : RegField} (old v : Byte) (s : State)

theorem lastByteAction_cfCfg (hk : f.kind = .trigCfCfg) : lastByteAction f old v s = .ok (cfCfgTrigger f s) := by
  simp only [lastByteAction, hk]

theorem lastByteAction_cfBottom (hk : f.kind = .cfBottom) : lastByteAction f old v s = .ok (cfBottomWrite f s) := by
  simp only [lastByteAction, hk]

theorem lastByteAction_cfTop (hk : f.kind = .cfTop) : lastByteAction f old v s = .ok (cfTopWrite f s) := by
  simp only [lastByteAction, hk]

theorem lastByteAction_cfThresh (hk : f.kind = .cfThresh) : lastByteAction f old v s = .ok (cfThreshWrite f s) := by
  simp only [lastByteAction, hk]

end

/-! ## The latches -/

/-- A value truncated to at most `n` bits fits a latch of `n` bits. -/
theorem toNat_ofNat_mod_two_pow {n w : Nat} (h : w ≤ n) (x : Nat) : (BitVec.ofNat n (x % 2 ^ w)).toNat = x % 2 ^ w := by
  rw [BitVec.toNat_ofNat]
  have hlt : x % 2 ^ w < 2 ^ w := Nat.mod_lt x (Nat.two_pow_pos w)
  exact Nat.mod_eq_of_lt (hlt.trans_le (Nat.pow_le_pow_right (by decide) h))

/-- Settles O16: the action of `CF_CFG` writes the four latches alone, so the field it reads is the one stored; the page numbers fit
their 20 bits. -/
theorem packedConfigurationLoadsLatches : Obligations.PackedConfigurationLoadsLatches := by
  unfold Obligations.PackedConfigurationLoadsLatches
  intro s o v f i hf hk hl hbot htop
  exact ⟨cfCfgTrigger f (s.storeByte o.toNat v), exec_mmioW8_last hf hl (lastByteAction_cfCfg _ _ _ hk),
    s.storeByte_read o.toNat v, rfl, rfl, toNat_ofNat_mod_two_pow hbot _, toNat_ofNat_mod_two_pow htop _, rfl⟩

/-- Settles O17, by the kind of the field: its action writes the one latch, and the other two latches stay. -/
theorem discreteRegisterLoadsOneLatch : Obligations.DiscreteRegisterLoadsOneLatch := by
  unfold Obligations.DiscreteRegisterLoadsOneLatch
  intro s o v f i hf hl hbot htop hkind
  rcases hkind with hk | hk | hk
  · refine ⟨cfBottomWrite f (s.storeByte o.toNat v), exec_mmioW8_last hf hl (lastByteAction_cfBottom _ _ _ hk),
      s.storeByte_read o.toNat v, rfl, ?_⟩
    simp only [hk, reduceCtorEq, if_true, if_false]
    exact ⟨toNat_ofNat_mod_two_pow hbot _, rfl, rfl⟩
  · refine ⟨cfTopWrite f (s.storeByte o.toNat v), exec_mmioW8_last hf hl (lastByteAction_cfTop _ _ _ hk),
      s.storeByte_read o.toNat v, rfl, ?_⟩
    simp only [hk, reduceCtorEq, if_true, if_false]
    exact ⟨rfl, toNat_ofNat_mod_two_pow htop _, rfl⟩
  · refine ⟨cfThreshWrite f (s.storeByte o.toNat v), exec_mmioW8_last hf hl (lastByteAction_cfThresh _ _ _ hk),
      s.storeByte_read o.toNat v, rfl, ?_⟩
    simp only [hk, reduceCtorEq, if_true, if_false]
    exact ⟨rfl, rfl, rfl⟩

/-! ## A packet in a slot that can be fetched -/

/-- A packet whose slot can be fetched has its effect (R238). -/
theorem exec_packet_of_slotOk {i : Instr} {p : Packet} {s : State} (hi : i.packet? = some p) (hok : slotOk s = true) :
    exec i s = .next (runPacket p s).state := by
  rw [exec_packet hi, takePacket, if_pos hok]

section
variable {s : State}

theorem exec_nop_of_slotOk (hok : slotOk s = true) : exec .nop s = .next (s.advance s.cfg.cfPairAdv).dropEntry :=
  exec_packet_of_slotOk (p := .nop) rfl hok

theorem exec_wrgRejected_of_slotOk (hok : slotOk s = true) (hi : BitVec 8) (reg : BitVec 21) (lo : BitVec 2) :
    exec (.wrgRejected hi reg lo) s = .next
      ((s.log (.malformedPacket (slotAddr s) (header 1 hi reg lo) 0)).advance s.cfg.cfGroupHdrAdv).dropEntry :=
  exec_packet_of_slotOk (p := .rejected hi reg lo) rfl hok

theorem exec_wr_of_slotOk (hok : slotOk s = true) (hi : BitVec 8) (reg : BitVec 21) (lo : BitVec 2) (data : Word) :
    exec (.wr hi reg lo data) s = .next
      ((compRegWrite (BitVec.ofNat 8 reg.toNat) data s).advance s.cfg.cfPairAdv).dropEntry :=
  exec_packet_of_slotOk (p := .single hi reg lo data) rfl hok

theorem oneFewer_of_ne {n : Word} (h : n ≠ 0) : oneFewer n = n - 1 := if_neg h

/-- A packet is consumed: the pointer moves on modulo the slot count and one waiting entry goes (R243, R248 item 2). -/
theorem advance_dropEntry (hc : s.cfEntryCount ≠ 0) (adv : Nat) :
    (s.advance adv).dropEntry = { s with
      cfReadPtr := BitVec.ofNat 32 ((s.cfReadPtr.toNat + adv) % ((ringTop s - ringBottom s) / s.cfg.cfUnitBytes))
      cfEntryCount := s.cfEntryCount - 1 } := by
  rw [← oneFewer_of_ne hc]
  rfl

end

/-- Settles O31: the no-op's effect is to be consumed. -/
theorem nopPacketAdvancesByAPair : Obligations.NopPacketAdvancesByAPair := by
  unfold Obligations.NopPacketAdvancesByAPair
  intro s hok hc
  rw [exec_nop_of_slotOk hok, advance_dropEntry hc]

/-- Settles O33: the header is logged with its slot's address, which leaves the ring as it is, and consumed. -/
theorem rejectedHeaderIsConsumed : Obligations.RejectedHeaderIsConsumed := by
  unfold Obligations.RejectedHeaderIsConsumed
  intro s hi reg lo hok hc
  rw [exec_wrgRejected_of_slotOk hok, advance_dropEntry (s := s.log _) hc]
  rfl

/-- The register that an index names is the index modulo 256 (R246). -/
theorem eq_ofNat_iff_toNat_eq_mod (q : BitVec 8) (x : Nat) : q = BitVec.ofNat 8 x ↔ q.toNat = x % 256 := by
  rw [← BitVec.toNat_inj, BitVec.toNat_ofNat]

/-- Settles O32: the companion register is written and the rasterizer told, which leaves the ring as it is, and the packet is
consumed. -/
theorem writePacketWritesOneRegister : Obligations.WritePacketWritesOneRegister := by
  unfold Obligations.WritePacketWritesOneRegister
  intro s hi reg lo data hok hc
  refine ⟨_, exec_wr_of_slotOk hok hi reg lo data, advance_dropEntry (s := compRegWrite _ data s) hc _, fun q => ?_⟩
  simp only [← eq_ofNat_iff_toNat_eq_mod]
  exact compRegWrite_compGet _ q data s

end Sys2Proof.Machine
end

section
/-! The swap scheduler (spec/44_neighbour_engines.md R281 to R283): the counter of pending swaps saturates at 7, and a tick does one of
three things to a pending swap: it leaves it alone, counts it down, or performs it. -/

namespace Sys2Proof.Machine

/-! ## Requests -/

/-- The counter of pending swaps after one more request (R281). -/
def oneMoreSwap (n : BitVec 3) : BitVec 3 := if n = 7 then 7 else n + 1

theorem exec_swapPend (s : State) : exec .swapPend s = .next { s with swapPending := oneMoreSwap s.swapPending } := rfl

theorem oneMoreSwap_toNat (n : BitVec 3) : (oneMoreSwap n).toNat = min (n.toNat + 1) 7 := by
  by_cases h : n = 7
  · subst h
    rfl
  · rw [oneMoreSwap, if_neg h]
    bv_omega

/-- Any number of requests leave the counter at the sum, at most 7, and change nothing else (R281, R283). -/
theorem runAll_swapPend (n : Nat) (s : State) :
    ∃ t, runAll (List.replicate n .swapPend) s = .next t ∧ t = { s with swapPending := t.swapPending }
      ∧ t.swapPending.toNat = min (s.swapPending.toNat + n) 7 := by
  induction n generalizing s with
  | zero => exact ⟨s, rfl, rfl, by have := s.swapPending.isLt; omega⟩
  | succ n ih =>
    obtain ⟨t, hrun, hframe, hcount⟩ := ih { s with swapPending := oneMoreSwap s.swapPending }
    refine ⟨t, ?_, hframe, ?_⟩
    · rw [List.replicate_succ, runAll, exec_swapPend]
      exact hrun
    · rw [hcount, oneMoreSwap_toNat]
      omega

/-- Settles O50: the clauses for one request are the definitions, the clause for many is by induction on their number. -/
theorem swapRequestsSaturate : Obligations.SwapRequestsSaturate := by
  unfold Obligations.SwapRequestsSaturate
  exact fun s => ⟨rfl, exec_swapPend s, fun n => runAll_swapPend n s⟩

/-! ## The tick -/

section
variable {s : State}

theorem swapTick_of_none_due (h : s.swapReq = false ∨ s.swapPending = 0) : swapTick s = s := by
  refine if_neg ?_
  rintro ⟨hpending, hreq⟩
  rcases h with h | h
  · exact Bool.false_ne_true (h.symm.trans hreq)
  · exact hpending h

theorem swapTick_counts_down (hreq : s.swapReq = true) (h : 1 < s.swapPending.toNat) :
    swapTick s = { s with swapPending := s.swapPending - 1 } := by
  have hpending : s.swapPending ≠ 0 := by bv_omega
  have hleft : s.swapPending - 1 ≠ 0 := by bv_omega
  exact (if_pos ⟨hpending, hreq⟩).trans (if_neg hleft)

theorem swapTick_performs (hreq : s.swapReq = true) (h : s.swapPending = 1) :
    swapTick s = ({ s with swapPending := 0, swapReq := false } : State).emit .presentSwap := by
  simp [swapTick, hreq, h]

end

/-- What a tick does to a pending swap changes its flag and counter and the events alone (R282). -/
theorem swapTick_frame (s : State) :
    swapTick s = { s with
      swapReq := (swapTick s).swapReq, swapPending := (swapTick s).swapPending, events := (swapTick s).events } := by
  unfold swapTick
  dsimp only
  split
  · split <;> rfl
  · rfl

/-- Settles O51, by what the tick does to a pending swap; the event of the companion comes last in each case. -/
theorem vsyncCountsPendingSwapsDown : Obligations.VsyncCountsPendingSwapsDown := by
  unfold Obligations.VsyncCountsPendingSwapsDown
  intro s
  refine ⟨(swapTick s).emit .companionVsync, rfl, congrArg (State.emit · .companionVsync) (swapTick_frame s),
    fun hreq hmany => ?_, fun hreq hlast => ?_, fun hnone => ?_⟩
  · rw [swapTick_counts_down hreq hmany]
    have hcount : (s.swapPending - 1).toNat = s.swapPending.toNat - 1 := by bv_omega
    exact ⟨hcount, hreq, rfl⟩
  · rw [swapTick_performs hreq (BitVec.eq_of_toNat_eq hlast)]
    exact ⟨rfl, rfl, List.append_assoc _ _ _⟩
  · rw [swapTick_of_none_due (hnone.imp_right BitVec.eq_of_toNat_eq)]
    exact ⟨rfl, rfl, rfl⟩

end Sys2Proof.Machine
end

section
/-! Reset (spec/70_reset_and_hazards.md R311): the committed mappings and the `Unmap` events are those of `unmapAll`, and the
companion registers are the configuration's reset vector; every other field is a constant of `State.resetOf` or kept. -/

namespace Sys2Proof.Machine

/-- Reset disables every aperture and keeps its base (R311, R42). -/
theorem resetState_ap_get (s : State) (ap : Aperture) : (resetState s).ap.get ap = ⟨false, (s.ap.get ap).base⟩ :=
  (unmapAll_spec s).2 ap

/-- Reset reports the enabled apertures unmapped, in the spec's order (R311). -/
theorem resetState_events (s : State) :
    (resetState s).events = s.events ++ (Aperture.all.filter (fun ap => (s.ap.get ap).en)).map (fun ap => .unmap ap) :=
  congrArg State.events (unmapAll_spec s).1

theorem resetState_conf (s : State) : (resetState s).conf = s.cfg.cfgReset := rfl

theorem resetState_compGet (s : State) (r : BitVec 8) :
    (resetState s).compGet r = s.cfg.compReset[r.toNat]'(by have := r.isLt; omega) := rfl

/-- The bridge's enable latch, staging word and handshake flags (R20 item 7) after reset. -/
theorem resetState_bridge (s : State) :
    (resetState s).bridgeEn = false ∧ (resetState s).thpStage = 0 ∧ (resetState s).thpRequest = false
      ∧ (resetState s).thpGrant = false := ⟨rfl, rfl, rfl, rfl⟩

/-- The CmdFifo latches, counters and status bit (R20 item 8) after reset. -/
theorem resetState_cmdFifo (s : State) :
    (resetState s).cfEnabled = false ∧ (resetState s).cfBottom = 0 ∧ (resetState s).cfTop = 0
      ∧ (resetState s).cfThreshold = 0 ∧ (resetState s).cfReadPtr = 0 ∧ (resetState s).cfEntryCount = 0
      ∧ (resetState s).cfThreshStatus = false := ⟨rfl, rfl, rfl, rfl, rfl, rfl, rfl⟩

/-- The engines' flags, the swap state and the diagnostic stream (R20 items 9 and 10) after reset. -/
theorem resetState_engines (s : State) :
    (resetState s).d2Busy = false ∧ (resetState s).d3Busy = false ∧ (resetState s).swapReq = false
      ∧ (resetState s).swapPending = 0 ∧ (resetState s).diags = [] := ⟨rfl, rfl, rfl, rfl, rfl⟩

/-- Reset keeps what R311 does not write: both memories, the captured batch and the configuration. -/
theorem resetState_frame (s : State) :
    (resetState s).vram = s.vram ∧ (resetState s).tex = s.tex ∧ (resetState s).d3Batch = s.d3Batch
      ∧ (resetState s).cfg = s.cfg := ⟨rfl, rfl, rfl, rfl⟩

/-- Settles O52, part by part of the state after reset; the apertures and their events are what unmapping all four does. -/
theorem resetLeavesTheResetValues : Obligations.ResetLeavesTheResetValues := by
  unfold Obligations.ResetLeavesTheResetValues
  intro s
  have hconf : ∀ a, (resetState s).conf.read a = Mem.read s.cfg.cfgReset a := fun a => by rw [resetState_conf]
  exact ⟨resetState s, exec_reset s, resetState_rb_read s, hconf, resetState_ap_get s, resetState_events s,
    resetState_compGet s, resetState_bridge s, resetState_cmdFifo s, resetState_engines s, resetState_frame s⟩

end Sys2Proof.Machine
end

section
/-! The encoder and the decoder (spec/30_encoding.md R91 to R95): an operand is read back from its lanes, so an operation of the
stream is read back from its bytes; a packet and the two words of its header slot determine each other. -/

namespace Sys2Proof

/-! ## Operands -/

theorem takeByte_cons (v : Byte) (rest : List Byte) : takeByte ([v] ++ rest) = .ok (v, rest) := rfl

theorem takeHalf_halfBytes (v : Half) (rest : List Byte) : takeHalf (halfBytes v ++ rest) = .ok (v, rest) :=
  congrArg (fun x => Except.ok (x, rest)) (Machine.half_lanes v)

theorem takeWord_wordBytes (v : Word) (rest : List Byte) : takeWord (wordBytes v ++ rest) = .ok (v, rest) :=
  congrArg (fun x => Except.ok (x, rest)) (Machine.word_lanes v)

section
variable {α β : Type} {p : List Byte → Parsed α} {q : List Byte → Parsed β} {a : α} {b : β} {bs mid rest : List Byte}

theorem oneArg_of_ok {k : α → Instr} (h : p bs = .ok (a, rest)) : oneArg p k bs = .ok (k a, rest) := by
  rw [oneArg, h]

theorem twoArgs_of_ok {k : α → β → Instr} (hp : p bs = .ok (a, mid)) (hq : q mid = .ok (b, rest)) :
    twoArgs p q k bs = .ok (k a b, rest) := by
  rw [twoArgs, hp]
  exact oneArg_of_ok hq

end

/-- Settles O1, operation by operation: the descriptor names the operation, and each operand is read back from its lanes. -/
theorem transactionDecodeEncode : Obligations.TransactionDecodeEncode := by
  unfold Obligations.TransactionDecodeEncode
  intro i rest hi
  cases i with
  | mmioR8 o => exact oneArg_of_ok (takeHalf_halfBytes o rest)
  | mmioR16 o => exact oneArg_of_ok (takeHalf_halfBytes o rest)
  | mmioR32 o => exact oneArg_of_ok (takeHalf_halfBytes o rest)
  | mmioW8 o v => exact twoArgs_of_ok (takeHalf_halfBytes o _) (takeByte_cons v rest)
  | mmioW16 o v => exact twoArgs_of_ok (takeHalf_halfBytes o _) (takeHalf_halfBytes v rest)
  | mmioW32 o v => exact twoArgs_of_ok (takeHalf_halfBytes o _) (takeWord_wordBytes v rest)
  | linR8 off => exact oneArg_of_ok (takeWord_wordBytes off rest)
  | linR16 off => exact oneArg_of_ok (takeWord_wordBytes off rest)
  | linR32 off => exact oneArg_of_ok (takeWord_wordBytes off rest)
  | linW8 off v => exact twoArgs_of_ok (takeWord_wordBytes off _) (takeByte_cons v rest)
  | linW16 off v => exact twoArgs_of_ok (takeWord_wordBytes off _) (takeHalf_halfBytes v rest)
  | linW32 off v => exact twoArgs_of_ok (takeWord_wordBytes off _) (takeWord_wordBytes v rest)
  | romR8 off => exact oneArg_of_ok (takeWord_wordBytes off rest)
  | romR16 off => exact oneArg_of_ok (takeWord_wordBytes off rest)
  | romR32 off => exact oneArg_of_ok (takeWord_wordBytes off rest)
  | romW8 off v => exact twoArgs_of_ok (takeWord_wordBytes off _) (takeByte_cons v rest)
  | romW16 off v => exact twoArgs_of_ok (takeWord_wordBytes off _) (takeHalf_halfBytes v rest)
  | romW32 off v => exact twoArgs_of_ok (takeWord_wordBytes off _) (takeWord_wordBytes v rest)
  | compR32 off => exact oneArg_of_ok (takeWord_wordBytes off rest)
  | compW32 off v => exact twoArgs_of_ok (takeWord_wordBytes off _) (takeWord_wordBytes v rest)
  | cfgR8 reg => exact oneArg_of_ok (takeByte_cons reg rest)
  | cfgR16 reg => exact oneArg_of_ok (takeByte_cons reg rest)
  | cfgR32 reg => exact oneArg_of_ok (takeByte_cons reg rest)
  | cfgW8 reg v => exact twoArgs_of_ok (takeByte_cons reg _) (takeByte_cons v rest)
  | cfgW16 reg v => exact twoArgs_of_ok (takeByte_cons reg _) (takeHalf_halfBytes v rest)
  | cfgW32 reg v => exact twoArgs_of_ok (takeByte_cons reg _) (takeWord_wordBytes v rest)
  | pumaR32 a => exact oneArg_of_ok (takeWord_wordBytes a rest)
  | pumaW32 a v => exact twoArgs_of_ok (takeWord_wordBytes a _) (takeWord_wordBytes v rest)
  | thpRd a => exact oneArg_of_ok (takeWord_wordBytes a rest)
  | thpWr a v => exact twoArgs_of_ok (takeWord_wordBytes a _) (takeWord_wordBytes v rest)
  | reset => rfl
  | vsync => rfl
  | swapReq => rfl
  | swapPend => rfl
  | cfProcess => rfl
  | nop => cases hi
  | wrgRejected half reg lo => cases hi
  | wrg half reg lo mask => cases hi
  | wr half reg lo data => cases hi

/-! ## Header slots -/

theorem packet?_toInstr (p : Packet) : p.toInstr.packet? = some p := by cases p <;> rfl

theorem eq_toInstr_of_packet? {i : Instr} {p : Packet} (h : i.packet? = some p) : i = p.toInstr := by
  cases i <;> cases h <;> rfl

theorem encode_toInstr (p : Packet) : encode p.toInstr = p.slotBytes := by cases p <;> rfl

theorem wellFormed_toInstr (p : Packet) : p.toInstr.wellFormed = p.wellFormed := by
  rw [Instr.wellFormed, packet?_toInstr]

/-- A slot's bytes are the packet of its two words (R92). -/
theorem decodeSlot_wordBytes (aw dw : Word) (rest : List Byte) :
    decodeSlot (wordBytes aw ++ wordBytes dw ++ rest) = .ok ((decodePacket aw dw).toInstr, rest) := by
  have h : decodeSlot (wordBytes aw ++ wordBytes dw ++ rest) = .ok ((decodePacket
    (word (lane aw 0) (lane aw 1) (lane aw 2) (lane aw 3)) (word (lane dw 0) (lane dw 1) (lane dw 2) (lane dw 3))).toInstr, rest) := rfl
  rw [h, Machine.word_lanes, Machine.word_lanes]

/-- A non-grouped packet is well formed when its slot is not the all-zero one (R94). -/
theorem wellFormed_single_iff {hi : BitVec 8} {reg : BitVec 21} {lo : BitVec 2} {data : Word} :
    (Packet.single hi reg lo data).wellFormed = true ↔ ¬ (header 0 hi reg lo = 0 ∧ data = 0) := by
  simp only [Packet.wellFormed, header_zero, Bool.not_eq_true', Bool.and_eq_false_iff, beq_eq_false_iff_ne]
  tauto

/-- A well-formed packet is the one its two words decode to. -/
theorem decodePacket_words {p : Packet} (h : p.wellFormed = true) : decodePacket p.words.1 p.words.2 = p := by
  cases p with
  | nop => rfl
  | rejected hi reg lo =>
    rw [Packet.words, decodePacket_of_group_of_zero (header_group 1 hi reg lo), header_hi, header_reg, header_lo]
  | grouped hi reg lo mask =>
    have hmask : mask ≠ 0 := by simpa [Packet.wellFormed] using h
    rw [Packet.words, decodePacket_of_group_of_ne (header_group 1 hi reg lo) hmask, header_hi, header_reg, header_lo]
  | single hi reg lo data =>
    have hgroup : ¬ (header 0 hi reg lo).getLsbD 31 = true := by
      rw [header_group]
      decide
    rw [Packet.words, decodePacket_of_not_group (wellFormed_single_iff.1 h) hgroup, header_hi, header_reg, header_lo]

/-- Two words are those of the packet they decode to, which is well formed. -/
theorem words_decodePacket (aw dw : Word) :
    (decodePacket aw dw).wellFormed = true ∧ (decodePacket aw dw).words = (aw, dw) := by
  by_cases hz : aw = 0 ∧ dw = 0
  · obtain ⟨rfl, rfl⟩ := hz
    exact ⟨rfl, rfl⟩
  have parts := header_of_parts aw
  by_cases hg : aw.getLsbD 31 = true
  · rw [hg] at parts
    by_cases hd : dw = 0
    · subst hd
      rw [decodePacket_of_group_of_zero hg]
      exact ⟨rfl, Prod.ext parts rfl⟩
    · rw [decodePacket_of_group_of_ne hg hd]
      exact ⟨bne_iff_ne.2 hd, Prod.ext parts rfl⟩
  · rw [Bool.not_eq_true] at hg
    rw [hg] at parts
    have hdec := decodePacket_of_not_group hz (Bool.eq_false_iff.1 hg)
    rw [hdec, wellFormed_single_iff]
    exact ⟨fun h => hz ⟨parts.symm.trans h.1, h.2⟩, Prod.ext parts rfl⟩

/-- Settles O2: a slot is decoded through its two words, and words and well-formed packets determine each other. -/
theorem packetSlotRoundTrip : Obligations.PacketSlotRoundTrip := by
  unfold Obligations.PacketSlotRoundTrip
  refine ⟨fun i p rest hp hwf => ?_, words_decodePacket⟩
  obtain rfl := eq_toInstr_of_packet? hp
  rw [wellFormed_toInstr] at hwf
  rw [encode_toInstr, Packet.slotBytes, decodeSlot_wordBytes, decodePacket_words hwf]

/-- Settles O4, by running the decoder on each word. -/
theorem sampleWordsDecode : Obligations.SampleWordsDecode := by
  unfold Obligations.SampleWordsDecode
  decide

end Sys2Proof

namespace Sys2Proof.Machine

/-- Settles O5: the request is taken from the queue, and its bytes decode to a well-formed operation. -/
theorem stepRunsDecodedOperation : Obligations.StepRunsDecodedOperation := by
  unfold Obligations.StepRunsDecodedOperation
  intro s bytes rest bus i hbus hdec hwf
  have hne : bytes ≠ [] := by
    rintro rfl
    cases hdec
  simp only [step, hbus, runRequest, runOps, hne, if_false, hdec, hwf, if_true]

end Sys2Proof.Machine
end

section
/-! Invariants along steps. `Kept` says once what an invariant must survive: the writes of the window, of video memory, of the
configuration space and of the PUMA bus, reset and a drain; every step is made of those and of changes that no invariant speaks of. -/

namespace Sys2Proof.Machine

/-! ## What an invariant must survive -/

/-- The two states differ at most in what no invariant speaks of: the ports, the staged word, the handshake flags and the swap
scheduler. -/
def SameInside (s t : State) : Prop :=
  t = { s with
    thpStage := t.thpStage, thpRequest := t.thpRequest, thpGrant := t.thpGrant, swapReq := t.swapReq,
    swapPending := t.swapPending, diags := t.diags, events := t.events, reply := t.reply, bus := t.bus }

theorem SameInside.emit {s t : State} (h : SameInside s t) (e : Event) : SameInside s (t.emit e) := by
  unfold SameInside at h
  rw [h]
  rfl

/-- `P` survives every elementary access of a device with a well-formed configuration. -/
structure Kept (P : State → Prop) : Prop where
  inside : ∀ {s t}, SameInside s t → P s → P t
  mmioWrite : ∀ {o v s t}, s.cfg.wf = true → o < winSize → mmioWrite8 o v s = .ok t → P s → P t
  linWrite : ∀ {off v s}, s.cfg.wf = true → P s → P (s.setVram (s.vram.write (linAddr s.cfg off) v))
  confWrite : ∀ {reg v s}, s.cfg.wf = true → reg < 256 → P s → P (confWriteByte reg v s)
  pumaWrite : ∀ {a v s t}, s.cfg.wf = true → pumaWrite a v s = .ok t → P s → P t
  reset : ∀ {s}, s.cfg.wf = true → P s → P (resetState s)
  drain : ∀ {s}, P s → P (cfProcess s)

/-- A gated PUMA write is the write past the gate, or logs why it is none (R190). -/
theorem bridgeWrite_ok {a v : Word} {s t : State} (h : bridgeWrite a v s = .ok t) :
    (∃ d, t = s.log d) ∨ pumaWrite a v s = .ok t := by
  unfold bridgeWrite at h
  split at h
  next d _ => cases h; exact .inl ⟨d, rfl⟩
  next => exact .inr h

/-- A THP write is a PUMA write and sets the flags, or logs why it is none (R201, R206). -/
theorem thpIndirectWrite_ok {s t : State} (h : thpIndirectWrite s = .ok t) :
    (∃ d, t = s.log d) ∨ ∃ u, pumaWrite (thpAddr s) (thpDataWord s) s = .ok u ∧ t = u.setHandshake := by
  unfold thpIndirectWrite at h
  split at h
  next d _ => cases h; exact .inl ⟨d, rfl⟩
  next =>
    split at h
    next => cases h
    next u hu => cases h; exact .inr ⟨u, hu, rfl⟩

section
variable {P : State → Prop}

theorem bridgeWrite_keeps (hin : ∀ {s t}, SameInside s t → P s → P t) {a v : Word} {s t : State}
    (hp : ∀ {u}, pumaWrite a v s = .ok u → P u) (h : bridgeWrite a v s = .ok t) (hs : P s) : P t := by
  rcases bridgeWrite_ok h with ⟨d, rfl⟩ | h
  · exact hin rfl hs
  · exact hp h

theorem thpIndirectWrite_keeps (hin : ∀ {s t}, SameInside s t → P s → P t) {s t : State}
    (hp : ∀ {a v u}, pumaWrite a v s = .ok u → P u) (h : thpIndirectWrite s = .ok t) (hs : P s) : P t := by
  rcases thpIndirectWrite_ok h with ⟨d, rfl⟩ | ⟨u, hu, rfl⟩
  · exact hin rfl hs
  · exact hin rfl (hp hu)

/-- One elementary access keeps the configuration and, with it well formed, `P`. -/
def Keeps (P : State → Prop) (s t : State) : Prop := t.cfg = s.cfg ∧ (s.cfg.wf = true → P s → P t)

theorem Kept.keeps_inside (k : Kept P) {s t : State} (h : SameInside s t) : Keeps P s t :=
  ⟨by rw [h], fun _ => k.inside h⟩

theorem Kept.closed (k : Kept P) : Closed (Keeps P) where
  refl _ := ⟨rfl, fun _ => id⟩
  trans _ _ _ h1 h2 := ⟨h2.1.trans h1.1, fun hwf hs => h2.2 (h1.1 ▸ hwf) (h1.2 hwf hs)⟩
  reply _ _ := k.keeps_inside rfl
  mmioRead _ _ _ _ h := k.keeps_inside (by rw [SameInside, (mmioRead8_frame h).1])
  mmioWrite _ _ _ _ ho h := ⟨by rw [(mmioWrite8_frame h).1], fun hwf => k.mmioWrite hwf ho h⟩
  linWrite _ _ _ := ⟨rfl, fun hwf => k.linWrite hwf⟩
  confWrite reg v s hreg := ⟨by rw [(confWriteByte_frame reg v s).1], fun hwf => k.confWrite hwf hreg⟩
  bridgeRead _ _ _ _ h := k.keeps_inside (by rw [SameInside, bridgeRead_frame h])
  bridgeWrite _ _ _ _ h :=
    ⟨by rw [bridgeWrite_frame h], fun hwf hs => bridgeWrite_keeps k.inside (fun hu => k.pumaWrite hwf hu hs) h hs⟩
  vsync s := k.keeps_inside (SameInside.emit (by rw [SameInside, swapTick_frame]) _)
  swapReq _ := k.keeps_inside rfl
  swapPend _ _ := k.keeps_inside rfl

/-- What the accesses keep, a step keeps. -/
theorem Kept.step (k : Kept P) {s t : State} (hwf : s.cfg.wf = true) (hs : P s) (h : step s = .next t) :
    t.cfg = s.cfg ∧ P t := by
  rcases step_next h with hsame | ⟨i, b, hi, hexec⟩
  · have hin : SameInside s t := by rw [SameInside, hsame]
    exact ⟨by rw [hsame], k.inside hin hs⟩
  · have hs' : P { s with bus := b, reply := none } := k.inside (s := s) rfl hs
    obtain ⟨hcfg, hkeep⟩ := k.closed.exec hi hexec (fun _ => ⟨rfl, fun hwf => k.reset hwf⟩)
      (fun _ => ⟨by rw [cfProcess_frame], fun _ => k.drain⟩)
    exact ⟨hcfg, hkeep hwf hs'⟩

/-- An invariant of the configuration space and the apertures alone is kept when configuration byte writes and reset keep it. -/
theorem kept_of_conf (hcongr : ∀ {s t : State}, t.cfg = s.cfg → t.conf = s.conf → t.ap = s.ap → P s → P t)
    (hconf : ∀ {reg v s}, s.cfg.wf = true → P s → P (confWriteByte reg v s))
    (hreset : ∀ {s}, s.cfg.wf = true → P s → P (resetState s)) : Kept P where
  inside h := hcongr (by rw [h]) (by rw [h]) (by rw [h])
  mmioWrite _ _ h := hcongr (by rw [(mmioWrite8_frame h).1]) (by rw [(mmioWrite8_frame h).1]) (by rw [(mmioWrite8_frame h).1])
  linWrite _ := hcongr rfl rfl rfl
  confWrite hwf _ := hconf hwf
  pumaWrite _ h := hcongr (by rw [pumaWrite_frame h]) (by rw [pumaWrite_frame h]) (by rw [pumaWrite_frame h])
  reset := hreset
  drain := hcongr (by rw [cfProcess_frame]) (by rw [cfProcess_frame]) (by rw [cfProcess_frame])

end

end Sys2Proof.Machine
end

section
/-! The invariants of the memories, the apertures and the configuration space (spec/10_state.md R20, R25, R28, spec/20_memory.md
section 1, spec/41_pci_aperture.md R153 to R156), and that reset meets them (spec/70_reset_and_hazards.md R311). -/

namespace Sys2Proof.Machine

/-! ## A window byte write, case by case -/

/-- A completed byte write is the store alone, or at a field's last byte the store and then the field's action (R122, R123). -/
theorem mmioWrite8_ok {o : Nat} {v : Byte} {s t : State} (h : mmioWrite8 o v s = .ok t) :
    (t = s.storeByte o v ∧ ∀ f i, fieldAt s.cfg o = some (f, i) → i + 1 ≠ f.width)
      ∨ ∃ f i, fieldAt s.cfg o = some (f, i) ∧ i + 1 = f.width ∧ lastByteAction f (s.rb.read o) v (s.storeByte o v) = .ok t := by
  by_cases hlast : ∃ f i, fieldAt s.cfg o = some (f, i) ∧ i + 1 = f.width
  · obtain ⟨f, i, hf, hl⟩ := hlast
    rw [mmioWrite8_last v hf hl] at h
    exact .inr ⟨f, i, hf, hl, h⟩
  · have hnot : ∀ f i, fieldAt s.cfg o = some (f, i) → i + 1 ≠ f.width := fun f i hf hl => hlast ⟨f, i, hf, hl⟩
    rw [mmioWrite8_quiet v (fun f i hf => .inl (hnot f i hf))] at h
    cases h
    exact .inl ⟨rfl, hnot⟩

section
variable {f : RegField} (old v : Byte) (s : State)

theorem lastByteAction_plain (hk : f.kind = .plain) : lastByteAction f old v s = .ok s := by
  simp only [lastByteAction, hk]

theorem lastByteAction_trigD2 (hk : f.kind = .trigD2) : lastByteAction f old v s =
    .ok (d2Trigger f (startOf s.cfg.d2StartBit old) (startOf s.cfg.d2StartBit v) s) := by
  simp only [lastByteAction, hk]

theorem lastByteAction_trigD3 (hk : f.kind = .trigD3) : lastByteAction f old v s =
    .ok (d3Trigger f (startOf s.cfg.d3StartBit old) (startOf s.cfg.d3StartBit v) s) := by
  simp only [lastByteAction, hk]

theorem lastByteAction_trigThpCtl (hk : f.kind = .trigThpCtl) : lastByteAction f old v s = .ok (thpCtrlTrigger f s) := by
  simp only [lastByteAction, hk]

theorem lastByteAction_thpAddr (hk : f.kind = .thpAddr) : lastByteAction f old v s = .ok s := by
  simp only [lastByteAction, hk]

theorem lastByteAction_thpData (hk : f.kind = .thpData) : lastByteAction f old v s = thpIndirectWrite s := by
  simp only [lastByteAction, hk]

end

/-! ## The memories -/

section
variable {s : State}

theorem memoryInv_inside {t : State} (h : SameInside s t) (hs : memoryInv s) : memoryInv t := by
  rw [h]
  exact hs

theorem memoryInv_storeByte {o : Nat} (v : Byte) (ho : o < winSize) (hs : memoryInv s) : memoryInv (s.storeByte o v) := by
  obtain ⟨⟨hwf, hbelow⟩, hrest⟩ := hs
  exact ⟨⟨Mem.wf_write o v hwf, Mem.below_write v hbelow ho⟩, hrest⟩

theorem memoryInv_clearStartBit {f : RegField} (bit : Nat) (ho : f.last < winSize) (hs : memoryInv s) :
    memoryInv (s.clearStartBit f bit) := by
  obtain ⟨⟨hwf, hbelow⟩, hrest⟩ := hs
  exact ⟨⟨Mem.wf_write _ _ hwf, Mem.below_write _ hbelow ho⟩, hrest⟩

theorem memoryInv_setVram {m : Mem} (hm : m.wf = true ∧ m.below s.cfg.vramSize = true) (hs : memoryInv s) :
    memoryInv (s.setVram m) := by
  obtain ⟨hrb, hconf, -, htex⟩ := hs
  exact ⟨hrb, hconf, hm, htex⟩

/-- A fill writes canonically and inside video memory, and nothing else is drawn (R273). -/
theorem memoryInv_d2Run (f : RegField) (hwf : s.cfg.wf = true) (hs : memoryInv s) : memoryInv (d2Run f s) := by
  have hs' := hs
  obtain ⟨-, -, ⟨hcanon, hbelow⟩, -⟩ := hs'
  unfold d2Run
  split
  · exact memoryInv_setVram
      ⟨fillRows_wf _ _ _ _ hcanon, fillRows_below (fillJob f s) (wf_vram_pos hwf) _ _ _ hbelow⟩ hs
  · exact hs

theorem memoryInv_d2Trigger (f : RegField) (old new : Bool) (ho : f.last < winSize) (hwf : s.cfg.wf = true) (hs : memoryInv s) :
    memoryInv (d2Trigger f old new s) := by
  by_cases hstart : s.d2Busy = false ∧ old = false ∧ new = true
  · rw [d2Trigger_starts hstart]
    have hrun : memoryInv (d2Run f (s.setD2Busy true)) := memoryInv_d2Run (s := s.setD2Busy true) f hwf hs
    exact memoryInv_clearStartBit (s := (d2Run f (s.setD2Busy true)).setD2Busy false) _ ho hrun
  · rwa [d2Trigger_rests hstart]

theorem memoryInv_d3Trigger (f : RegField) (old new : Bool) (ho : f.last < winSize) (hs : memoryInv s) :
    memoryInv (d3Trigger f old new s) := by
  unfold d3Trigger
  split
  · unfold d3Complete
    exact memoryInv_clearStartBit _ ho hs
  · exact hs

/-- A PUMA write stores at most one word, inside its memory: the regions have whole words (R192, R208, R5 (5)). -/
theorem memoryInv_pumaWrite {a v : Word} {t : State} (hwf : s.cfg.wf = true) (h : pumaWrite a v s = .ok t) (hs : memoryInv s) :
    memoryInv t := by
  obtain ⟨hrb, hconf, ⟨hvwf, hvbelow⟩, ⟨htwf, htbelow⟩⟩ := hs
  obtain ⟨-, hfb, hfb4, htex4, hsize4, -⟩ := wf_memory hwf
  obtain ⟨hvram, htex⟩ := pumaWrite_memories h
  have hv : t.vram.wf = true ∧ t.vram.below s.cfg.vramSize = true := by
    rcases hvram with e | ⟨hlt, hal, e⟩ <;> rw [e]
    · exact ⟨hvwf, hvbelow⟩
    · exact ⟨Mem.wf_wr32 _ _ hvwf, Mem.below_wr32 _ hvbelow (by omega)⟩
  have ht : t.tex.wf = true ∧ t.tex.below s.cfg.texSize = true := by
    rcases htex with e | ⟨k, hk, hal, e⟩ <;> rw [e]
    · exact ⟨htwf, htbelow⟩
    · obtain ⟨hlo, hhi, hk⟩ := classify_tex hk
      exact ⟨Mem.wf_wr32 _ _ htwf, Mem.below_wr32 _ htbelow (by omega)⟩
  rw [pumaWrite_frame h]
  exact ⟨hrb, hconf, hv, ht⟩

theorem memoryInv_lastByteAction {f : RegField} {old v : Byte} {t : State} (ho : f.last < winSize) (hwf : s.cfg.wf = true)
    (h : lastByteAction f old v s = .ok t) (hs : memoryInv s) : memoryInv t := by
  cases hk : f.kind with
  | plain => rw [lastByteAction_plain _ _ _ hk] at h; cases h; exact hs
  | trigD2 => rw [lastByteAction_trigD2 _ _ _ hk] at h; cases h; exact memoryInv_d2Trigger f _ _ ho hwf hs
  | trigD3 => rw [lastByteAction_trigD3 _ _ _ hk] at h; cases h; exact memoryInv_d3Trigger f _ _ ho hs
  | trigThpCtl =>
    rw [lastByteAction_trigThpCtl _ _ _ hk] at h
    cases h
    unfold thpCtrlTrigger
    split <;> exact hs
  | trigCfCfg => rw [lastByteAction_cfCfg _ _ _ hk] at h; cases h; exact hs
  | thpAddr => rw [lastByteAction_thpAddr _ _ _ hk] at h; cases h; exact hs
  | thpData =>
    rw [lastByteAction_thpData _ _ _ hk] at h
    exact thpIndirectWrite_keeps memoryInv_inside (fun hu => memoryInv_pumaWrite hwf hu hs) h hs
  | cfBottom => rw [lastByteAction_cfBottom _ _ _ hk] at h; cases h; exact hs
  | cfTop => rw [lastByteAction_cfTop _ _ _ hk] at h; cases h; exact hs
  | cfThresh => rw [lastByteAction_cfThresh _ _ _ hk] at h; cases h; exact hs

theorem memoryInv_mmioWrite8 {o : Nat} {v : Byte} {t : State} (hwf : s.cfg.wf = true) (ho : o < winSize)
    (h : mmioWrite8 o v s = .ok t) (hs : memoryInv s) : memoryInv t := by
  have hstored := memoryInv_storeByte v ho hs
  rcases mmioWrite8_ok h with ⟨rfl, -⟩ | ⟨f, i, hf, hl, haction⟩
  · exact hstored
  · exact memoryInv_lastByteAction (s := s.storeByte o v) (fieldAt_last hf hl ▸ ho) hwf haction hstored

end

/-! ## Configuration byte writes -/

/-- A configuration byte write, case by case (R152): the command register's two bytes, a byte of a BAR group, the interrupt line, or
a byte that ignores it. -/
theorem confWriteByte_cases (reg : Nat) (v : Byte) (s : State) :
    (reg = s.cfg.cfgCmd ∧ confWriteByte reg v s = commandWriteLow v s)
      ∨ (reg = s.cfg.cfgCmd + 1 ∧ confWriteByte reg v s = s.setConf reg (v &&& lane s.cfg.cmdWmask 1))
      ∨ (∃ ap i, i < 4 ∧ reg = s.cfg.cfgBar.get ap + i ∧ confWriteByte reg v s = barWriteByte ap i v s)
      ∨ (reg = s.cfg.cfgIntLine ∧ confWriteByte reg v s = s.setConf reg v)
      ∨ confWriteByte reg v s = s := by
  unfold confWriteByte
  split
  next hlo => exact .inl ⟨hlo, rfl⟩
  next =>
    split
    next hhi => exact .inr (.inl ⟨hhi, rfl⟩)
    next =>
      cases hb : barAt s.cfg reg with
      | some p =>
        obtain ⟨ap, i⟩ := p
        obtain ⟨h1, h2, h3⟩ := barAt_some hb
        exact .inr (.inr (.inl ⟨ap, i, by omega, by omega, rfl⟩))
      | none =>
        dsimp only
        split
        next hline => exact .inr (.inr (.inr (.inl ⟨hline, rfl⟩)))
        next => exact .inr (.inr (.inr (.inr rfl)))

/-- A configuration byte write writes one byte of the configuration space, or none. -/
theorem confWriteByte_conf (reg : Nat) (v : Byte) (s : State) :
    (confWriteByte reg v s).conf = s.conf ∨ ∃ x, (confWriteByte reg v s).conf = s.conf.write reg x := by
  rcases confWriteByte_cases reg v s with ⟨rfl, h⟩ | ⟨-, h⟩ | ⟨ap, i, -, rfl, h⟩ | ⟨-, h⟩ | h <;> rw [h]
  · exact .inr ⟨_, by rw [commandWriteLow_frame]⟩
  · exact .inr ⟨_, rfl⟩
  · exact .inr ⟨v, by rw [(barWriteByte_frame ap i v s).1]⟩
  · exact .inr ⟨v, rfl⟩
  · exact .inl rfl

theorem memoryInv_confWriteByte {reg : Nat} {v : Byte} {s : State} (hreg : reg < 256) (hs : memoryInv s) :
    memoryInv (confWriteByte reg v s) := by
  obtain ⟨hrb, ⟨hwf, hbelow⟩, hrest⟩ := hs
  have hconf : (confWriteByte reg v s).conf.wf = true ∧ (confWriteByte reg v s).conf.below 256 = true := by
    rcases confWriteByte_conf reg v s with h | ⟨x, h⟩ <;> rw [h]
    · exact ⟨hwf, hbelow⟩
    · exact ⟨Mem.wf_write reg x hwf, Mem.below_write x hbelow hreg⟩
  rw [(confWriteByte_frame reg v s).1]
  exact ⟨hrb, hconf, hrest⟩

theorem memoryInv_reset {s : State} (hwf : s.cfg.wf = true) (hs : memoryInv s) : memoryInv (resetState s) := by
  obtain ⟨-, -, hrest⟩ := hs
  obtain ⟨hcanon, hbelow, -⟩ := wf_cfgReset hwf
  exact ⟨⟨rfl, rfl⟩, ⟨hcanon, hbelow⟩, hrest⟩

theorem memoryInv_linWrite {off : Nat} {v : Byte} {s : State} (hwf : s.cfg.wf = true) (hs : memoryInv s) :
    memoryInv (s.setVram (s.vram.write (linAddr s.cfg off) v)) := by
  have hs' := hs
  obtain ⟨-, -, ⟨hcanon, hbelow⟩, -⟩ := hs'
  have haddr : linAddr s.cfg off < s.cfg.vramSize := by
    rw [linAddr_eq_mod hwf]
    exact Nat.mod_lt _ (wf_vram_pos hwf)
  exact memoryInv_setVram ⟨Mem.wf_write _ v hcanon, Mem.below_write v hbelow haddr⟩ hs

theorem kept_memoryInv : Kept memoryInv where
  inside := memoryInv_inside
  mmioWrite := memoryInv_mmioWrite8
  linWrite := memoryInv_linWrite
  confWrite _ := memoryInv_confWriteByte
  pumaWrite := memoryInv_pumaWrite
  reset := memoryInv_reset
  drain hs := by rw [cfProcess_frame]; exact hs

/-- Settles O56: every elementary access keeps the memories canonical and in range, so every step does. -/
theorem stepKeepsMemoriesCanonical : Obligations.StepKeepsMemoriesCanonical := by
  unfold Obligations.StepKeepsMemoriesCanonical
  exact fun s t hwf hs h => kept_memoryInv.step hwf hs h

/-! ## The apertures -/

section
variable {s : State}

/-- One aperture meets its invariant: while enabled it stands at a nonzero aligned base with memory decode on. -/
def apertureOk (s : State) (ap : Aperture) : Prop :=
  (s.ap.get ap).en = true →
    memEn s = true ∧ (s.ap.get ap).base ≠ 0 ∧ (s.ap.get ap).base &&& baseMask ap = (s.ap.get ap).base

theorem apertureInv_iff : apertureInv s ↔ ∀ ap, apertureOk s ap := Iff.rfl

theorem apertureOk_of_disabled {ap : Aperture} (h : (s.ap.get ap).en = false) : apertureOk s ap :=
  fun hen => absurd hen (Bool.eq_false_iff.1 h)

/-- An aperture that no access moved, with memory decode as it was. -/
theorem apertureOk_congr {t : State} {ap : Aperture} (hap : t.ap.get ap = s.ap.get ap) (hmem : memEn t = memEn s)
    (hs : apertureOk s ap) : apertureOk t ap := by
  unfold apertureOk
  rw [hap, hmem]
  exact hs

theorem apertureInv_setConf {reg : Nat} (v : Byte) (hreg : s.cfg.cfgCmd ≠ reg) (hs : apertureInv s) :
    apertureInv (s.setConf reg v) :=
  fun ap => apertureOk_congr (s := s) rfl (memEn_setConf_of_ne v hreg) (hs ap)

theorem apertureInv_unmapAll : apertureInv (unmapAll s) :=
  fun ap => apertureOk_of_disabled (by rw [(unmapAll_spec s).2])

theorem apertureInv_commandWriteLow (v : Byte) (hs : apertureInv s) : apertureInv (commandWriteLow v s) := by
  by_cases hon : memEn (storeCommandLow v s) = true
  · rw [commandWriteLow_of_memEn hon]
    intro ap hen
    exact ⟨hon, (hs ap hen).2⟩
  · rw [commandWriteLow_of_not_memEn hon]
    exact apertureInv_unmapAll

/-- After a BAR byte write the aperture is off, stands at the stored base, or is where it was (R154, R155). -/
theorem apertureOk_barWriteByte {ap : Aperture} {i : Nat} (v : Byte)
    (hmem : memEn (s.setConf (s.cfg.cfgBar.get ap + i) v) = memEn s) (hs : apertureOk s ap) :
    apertureOk (barWriteByte ap i v s) ap := by
  have hmem' : memEn (barWriteByte ap i v s) = memEn s := by
    rw [← hmem, (barWriteByte_frame ap i v s).1]
    rfl
  by_cases hoff : barBase (s.setConf (s.cfg.cfgBar.get ap + i) v) ap = 0 ∨ (i = 3 ∧ memEn s = false)
  · refine apertureOk_of_disabled ?_
    rw [barWriteByte_unmaps hmem hoff, unmapAp_get_same]
  · obtain ⟨hbase, hon⟩ := not_or.1 hoff
    by_cases hi : i = 3
    · subst hi
      have hon : memEn s = true := by simpa using hon
      intro _
      rw [hmem', barWriteByte_high_of_base_ne hbase, (commit_of_memEn (hmem.trans hon)).1]
      refine ⟨hon, hbase, ?_⟩
      rw [barBase, BitVec.and_assoc, BitVec.and_self]
    · refine apertureOk_congr ?_ hmem' hs
      rw [barWriteByte_low_of_base_ne hbase hi, State.setConf_ap]

theorem apertureInv_confWriteByte {reg : Nat} {v : Byte} (hwf : s.cfg.wf = true) (hs : apertureInv s) :
    apertureInv (confWriteByte reg v s) := by
  rcases confWriteByte_cases reg v s with ⟨-, h⟩ | ⟨rfl, h⟩ | ⟨ap, i, hi, -, h⟩ | ⟨rfl, h⟩ | h <;> rw [h]
  · exact apertureInv_commandWriteLow v hs
  · exact apertureInv_setConf _ (by omega) hs
  · have hmem := memEn_setConf_bar hwf ap hi v
    intro q
    by_cases hq : q = ap
    · subst hq
      exact apertureOk_barWriteByte v hmem (hs q)
    · obtain ⟨hframe, hother⟩ := barWriteByte_frame ap i v s
      refine apertureOk_congr (hother q hq) ?_ (hs q)
      rw [← hmem, hframe]
      rfl
  · have := wf_intLine hwf
    exact apertureInv_setConf v (by omega) hs
  · exact hs

theorem apertureInv_reset : apertureInv (resetState s) :=
  fun ap => apertureOk_of_disabled (by rw [resetState_ap_get])

end

theorem kept_apertureInv : Kept apertureInv :=
  kept_of_conf
    (fun hcfg hconf hap hs ap => apertureOk_congr (by rw [hap]) (by rw [memEn, memEn, hcfg, hconf]) (hs ap))
    apertureInv_confWriteByte (fun _ _ => apertureInv_reset)

/-- Settles O57: configuration byte writes keep the apertures aligned with decode on, and nothing else but reset moves one. -/
theorem stepKeepsAperturesAligned : Obligations.StepKeepsAperturesAligned := by
  unfold Obligations.StepKeepsAperturesAligned
  exact fun s t hwf hs h => (kept_apertureInv.step hwf hs h).2

/-! ## The configuration space -/

section
variable {s : State}

theorem confInv_congr {t : State} (hcfg : t.cfg = s.cfg) (hconf : t.conf = s.conf) (hs : confInv s) : confInv t := by
  unfold confInv
  rw [hcfg, hconf]
  exact hs

/-- A byte masked is zero outside the mask. -/
theorem and_and_not_self (v m : Byte) : v &&& m &&& ~~~m = 0 := by
  rw [BitVec.and_assoc, BitVec.and_not_self]
  exact BitVec.and_zero

/-- A write of one byte that is not read-only keeps the invariant when it leaves the command register masked. -/
theorem confInv_of_write {t : State} {reg : Nat} (hcfg : t.cfg = s.cfg) (hother : ∀ a, a ≠ reg → t.conf.read a = s.conf.read a)
    (hrw : ¬ readOnlyByte s.cfg reg)
    (hlo : reg = s.cfg.cfgCmd → t.conf.read reg &&& ~~~lane s.cfg.cmdWmask 0 = 0)
    (hhi : reg = s.cfg.cfgCmd + 1 → t.conf.read reg &&& ~~~lane s.cfg.cmdWmask 1 = 0) (hs : confInv s) : confInv t := by
  obtain ⟨hro, hclo, hchi⟩ := hs
  unfold confInv
  rw [hcfg]
  refine ⟨fun a ha => ?_, ?_, ?_⟩
  · rw [hother a (fun e => hrw (e ▸ ha)), hro a ha]
  · by_cases e : reg = s.cfg.cfgCmd
    · rw [← e]
      exact hlo e
    · rw [hother _ (Ne.symm e), hclo]
  · by_cases e : reg = s.cfg.cfgCmd + 1
    · rw [← e]
      exact hhi e
    · rw [hother _ (Ne.symm e), hchi]

theorem confInv_confWriteByte {reg : Nat} {v : Byte} (hwf : s.cfg.wf = true) (hs : confInv s) :
    confInv (confWriteByte reg v s) := by
  obtain ⟨hframe, hother⟩ := confWriteByte_frame reg v s
  have hcfg : (confWriteByte reg v s).cfg = s.cfg := by rw [hframe]
  rcases confWriteByte_cases reg v s with ⟨hreg, h⟩ | ⟨hreg, h⟩ | ⟨ap, i, hi, hreg, h⟩ | ⟨hreg, h⟩ | h
  · refine confInv_of_write hcfg hother (fun hro => hro.1 hreg) (fun _ => ?_) (by omega) hs
    rw [h, commandWriteLow_frame, hreg, Mem.read_write_same, and_and_not_self]
  · refine confInv_of_write hcfg hother (fun hro => hro.2.1 hreg) (by omega) (fun _ => ?_) hs
    rw [h, State.setConf_conf, Mem.read_write_same, and_and_not_self]
  · obtain ⟨-, hcmd, -⟩ := wf_bar hwf ap
    have hbar := barAt_of_mem hwf ap (reg := reg) (by omega) (by omega)
    refine confInv_of_write hcfg hother (fun ⟨_, _, hnone, _⟩ => ?_) (by omega) (by omega) hs
    rw [hbar] at hnone
    cases hnone
  · have := wf_intLine hwf
    exact confInv_of_write hcfg hother (fun ⟨_, _, _, hline⟩ => hline hreg) (by omega) (by omega) hs
  · rwa [h]

/-- The configuration space of a device after reset: `CFG_RESET` holds 0 at the command register (R42, R5 (8)). -/
theorem confInv_of_reset (hwf : s.cfg.wf = true) (hconf : s.conf = s.cfg.cfgReset) : confInv s := by
  obtain ⟨-, -, hlo, hhi⟩ := wf_cfgReset hwf
  unfold confInv
  rw [hconf, hlo, hhi]
  exact ⟨fun _ _ => rfl, BitVec.zero_and, BitVec.zero_and⟩

end

theorem kept_confInv : Kept confInv :=
  kept_of_conf (fun hcfg hconf _ => confInv_congr hcfg hconf) confInv_confWriteByte
    (fun hwf _ => confInv_of_reset (s := resetState _) hwf rfl)

/-- Settles O58: a configuration byte write changes no read-only byte and masks the command register, and nothing else but reset
writes the configuration space. -/
theorem stepKeepsReadOnlyConfiguration : Obligations.StepKeepsReadOnlyConfiguration := by
  unfold Obligations.StepKeepsReadOnlyConfiguration
  exact fun s t hwf hs h => (kept_confInv.step hwf hs h).2

end Sys2Proof.Machine
end

section
/-! Nothing is pending between requests (spec/43_cmdfifo.md R248 item 5, spec/10_state.md R41, spec/44_neighbour_engines.md R272 to
R279): a job completes inside the byte write that starts it and clears its start bit, and a drain with one entry pending takes it. -/

namespace Sys2Proof.Machine

/-! ## A job, from its start to its end -/

theorem startOf_clearStart (bit : Nat) (v : Byte) : startOf bit (clearStart bit v) = false := by
  have hb : bit % 8 < 8 := Nat.mod_lt _ (by decide)
  simp [startOf, clearStart, hb]

theorem State.setD2Busy_self {s : State} {b : Bool} (h : s.d2Busy = b) : s.setD2Busy b = s := by
  subst h
  rfl

theorem State.setD3Busy_self {s : State} {b : Bool} (h : s.d3Busy = b) : s.setD3Busy b = s := by
  subst h
  rfl

theorem d2Run_setD2Busy (f : RegField) (s : State) (b : Bool) : d2Run f (s.setD2Busy b) = (d2Run f s).setD2Busy b := by
  unfold d2Run
  split
  next h => exact (if_pos (c := s.idVal .d2Rop = s.cfg.ropFill) h).symm ▸ rfl
  next h => exact (if_neg (c := s.idVal .d2Rop = s.cfg.ropFill) h).symm ▸ rfl

theorem d2Run_frame (f : RegField) (s : State) : d2Run f s = s.setVram (d2Run f s).vram := by
  unfold d2Run
  split <;> rfl

section
variable {f : RegField} {old new : Bool} {s : State}

/-- A started 2D job draws, clears its start bit and leaves the engine as idle as it was (R272 to R274). -/
theorem d2Trigger_of_starts (h : s.d2Busy = false ∧ old = false ∧ new = true) :
    d2Trigger f old new s = (s.setVram (d2Run f s).vram).clearStartBit f s.cfg.d2StartBit := by
  rw [d2Trigger_starts h, d2Run_setD2Busy, d2Complete, d2Run_frame]
  exact congrArg (State.clearStartBit · f s.cfg.d2StartBit)
    (State.setD2Busy_self (s := s.setVram (d2Run f s).vram) h.1)

/-- A started 3D job hands its block over, clears its start bit and leaves the engine as idle as it was (R277 to R279). -/
theorem d3Trigger_of_starts (h : s.d3Busy = false ∧ old = false ∧ new = true) :
    d3Trigger f old new s =
      ((s.setD3Batch (d3Capture s)).emit (.tri3DBatch (d3Capture s))).clearStartBit f s.cfg.d3StartBit := by
  rw [d3Trigger_starts h, d3Complete]
  exact congrArg (State.clearStartBit · f s.cfg.d3StartBit)
    (State.setD3Busy_self (s := (s.setD3Batch (d3Capture s)).emit (.tri3DBatch (d3Capture s))) h.1)

end

/-! ## Start bits -/

/-- The start bits of the fields of a kind are clear. -/
def startsClear (k : FieldKind) (bit : Nat) (s : State) : Prop :=
  ∀ f ∈ s.cfg.fields, f.kind = k → startOf bit (s.rb.read f.last) = false

theorem idleInv_iff {s : State} : idleInv s ↔
    s.cfEntryCount = 0 ∧ s.d2Busy = false ∧ s.d3Busy = false ∧ startsClear .trigD2 s.cfg.d2StartBit s
      ∧ startsClear .trigD3 s.cfg.d3StartBit s ∧ (s.bridgeEn = true → s.cfg.companionPresent = true) := Iff.rfl

section
variable {s : State} {k : FieldKind} {bit : Nat}

/-- Start bits stay clear when the window changes at most at an offset that is no last byte of theirs. -/
theorem startsClear_of_other {t : State} {o : Nat} (hcfg : t.cfg = s.cfg) (hrb : ∀ a, a ≠ o → t.rb.read a = s.rb.read a)
    (hlast : ∀ f ∈ s.cfg.fields, f.kind = k → f.last ≠ o) (h : startsClear k bit s) : startsClear k bit t := by
  intro f hf hk
  rw [hcfg] at hf
  rw [hrb _ (hlast f hf hk), h f hf hk]

/-- The last byte of a field is looked up as that field's last byte. -/
theorem fieldAt_of_last (hwf : s.cfg.wf = true) {f : RegField} (hf : f ∈ s.cfg.fields) :
    ∃ i, fieldAt s.cfg f.last = some (f, i) ∧ i + 1 = f.width := by
  obtain ⟨-, hpos, -⟩ := wf_field hwf hf
  refine ⟨f.last - f.base, fieldAt_of_mem hwf hf ?_ ?_, ?_⟩ <;> unfold RegField.last <;> omega

/-- A field whose last byte is an offset is the field looked up there. -/
theorem eq_of_fieldAt_last (hwf : s.cfg.wf = true) {f g : RegField} {i : Nat} (hf : f ∈ s.cfg.fields)
    (hg : fieldAt s.cfg f.last = some (g, i)) : f = g := by
  obtain ⟨j, hj, -⟩ := fieldAt_of_last hwf hf
  rw [hj] at hg
  cases hg
  rfl

/-- At the last byte of a field of another kind lies no last byte of a field of this one. -/
theorem last_ne_of_kind_ne (hwf : s.cfg.wf = true) {o : Nat} {g : RegField} {i : Nat} (hg : fieldAt s.cfg o = some (g, i))
    (hk : g.kind ≠ k) : ∀ f ∈ s.cfg.fields, f.kind = k → f.last ≠ o := by
  rintro f hf hfk rfl
  exact hk (eq_of_fieldAt_last hwf hf hg ▸ hfk)

/-- The start bit of the one field of a kind decides for the kind. -/
theorem startsClear_of_field (hwf : s.cfg.wf = true) {g : RegField} (hg : g ∈ s.cfg.fields) (hk : g.kind = k) (hp : k ≠ .plain)
    (h : startOf bit (s.rb.read g.last) = false) : startsClear k bit s := by
  intro f hf hfk
  rw [wf_kind_unique hwf hf hg hfk hk hp]
  exact h

end

/-! ## The invariant -/

section
variable {s : State}

theorem idleInv_inside {t : State} (h : SameInside s t) (hs : idleInv s) : idleInv t := by
  rw [h]
  exact hs

theorem idleInv_pumaWrite {a v : Word} {t : State} (h : pumaWrite a v s = .ok t) (hs : idleInv s) : idleInv t := by
  obtain ⟨hcount, hrest⟩ := hs
  have hcount' := pumaWrite_count_zero h hcount
  rw [pumaWrite_frame h]
  exact ⟨hcount', hrest⟩

/-- A byte stored away from the start bits changes nothing the invariant speaks of. -/
theorem idleInv_storeByte {o : Nat} (v : Byte) (h2 : ∀ f ∈ s.cfg.fields, f.kind = .trigD2 → f.last ≠ o)
    (h3 : ∀ f ∈ s.cfg.fields, f.kind = .trigD3 → f.last ≠ o) (hs : idleInv s) : idleInv (s.storeByte o v) := by
  obtain ⟨hcount, hd2, hd3, hstart2, hstart3, hbridge⟩ := hs
  have hrb : ∀ a, a ≠ o → (s.storeByte o v).rb.read a = s.rb.read a := fun a ha => by rw [State.storeByte_read, if_neg ha]
  exact ⟨hcount, hd2, hd3, startsClear_of_other (s := s) rfl hrb h2 hstart2, startsClear_of_other (s := s) rfl hrb h3 hstart3,
    hbridge⟩

/-- The window after the last byte of a control field is written: stored with its start bit clear, or with the bit cleared since. -/
def StoredClear (f : RegField) (bit o : Nat) (v : Byte) (s t : State) : Prop :=
  (t.rb = (s.storeByte o v).rb ∧ startOf bit v = false) ∨ t.rb = ((s.storeByte o v).clearStartBit f bit).rb

theorem StoredClear.start {f : RegField} {bit o : Nat} {v : Byte} {t : State} (h : StoredClear f bit o v s t)
    (hlast : f.last = o) : startOf bit (t.rb.read f.last) = false := by
  rcases h with ⟨hrb, hv⟩ | hrb <;> rw [hrb]
  · rw [hlast, State.storeByte_read, if_pos rfl, hv]
  · rw [State.clearStartBit, State.setRb_rb, Mem.read_write_same, startOf_clearStart]

theorem StoredClear.other {f : RegField} {bit o : Nat} {v : Byte} {t : State} (h : StoredClear f bit o v s t)
    (hlast : f.last = o) {a : Nat} (ha : a ≠ o) : t.rb.read a = s.rb.read a := by
  have hstored : (s.storeByte o v).rb.read a = s.rb.read a := by rw [State.storeByte_read, if_neg ha]
  rcases h with ⟨hrb, -⟩ | hrb <;> rw [hrb]
  · exact hstored
  · rw [State.clearStartBit, State.setRb_rb, hlast, Mem.read_write_ne _ _ ha, hstored]

section
variable {o i : Nat} {v : Byte} {f : RegField}

/-- A control field's last byte written so leaves the start bits of its kind clear, and those of another kind as they were. -/
theorem StoredClear.startsClear {bit : Nat} {t : State} (h : StoredClear f bit o v s t) (hwf : s.cfg.wf = true)
    (hf : fieldAt s.cfg o = some (f, i)) (hl : i + 1 = f.width) (hcfg : t.cfg = s.cfg) :
    (f.kind ≠ .plain → Machine.startsClear f.kind bit t)
      ∧ ∀ {k b}, f.kind ≠ k → Machine.startsClear k b s → Machine.startsClear k b t := by
  obtain ⟨hmem, -⟩ := fieldAt_some hf
  have hlast := fieldAt_last hf hl
  refine ⟨fun hp => startsClear_of_field (hcfg ▸ hwf) (hcfg ▸ hmem) rfl hp (h.start hlast), fun hk => ?_⟩
  exact startsClear_of_other hcfg (fun a ha => h.other hlast ha) (last_ne_of_kind_ne hwf hf hk)

/-- A trigger of an idle engine leaves the start bit clear: it was clear before, so a set one starts a job, which clears it. -/
theorem idleInv_d2Trigger (hwf : s.cfg.wf = true) (hf : fieldAt s.cfg o = some (f, i)) (hl : i + 1 = f.width)
    (hk : f.kind = .trigD2) (hs : idleInv s) :
    idleInv (d2Trigger f (startOf s.cfg.d2StartBit (s.rb.read o)) (startOf s.cfg.d2StartBit v) (s.storeByte o v)) := by
  obtain ⟨hcount, hd2, hd3, hstart2, hstart3, hbridge⟩ := hs
  obtain ⟨hmem, -⟩ := fieldAt_some hf
  have hold : startOf s.cfg.d2StartBit (s.rb.read o) = false := fieldAt_last hf hl ▸ hstart2 f hmem hk
  have finish : ∀ t, StoredClear f s.cfg.d2StartBit o v s t → t.cfg = s.cfg →
      startsClear .trigD2 s.cfg.d2StartBit t ∧ startsClear .trigD3 s.cfg.d3StartBit t := fun t h hcfg => by
    obtain ⟨hown, hother⟩ := h.startsClear hwf hf hl hcfg
    rw [hk] at hown hother
    exact ⟨hown (by decide), hother (by decide) hstart3⟩
  by_cases hnew : startOf s.cfg.d2StartBit v = true
  · rw [d2Trigger_of_starts (s := s.storeByte o v) ⟨hd2, hold, hnew⟩]
    obtain ⟨h2, h3⟩ := finish _ (.inr rfl) rfl
    exact ⟨hcount, hd2, hd3, h2, h3, hbridge⟩
  · rw [d2Trigger_rests (fun h => hnew h.2.2)]
    obtain ⟨h2, h3⟩ := finish _ (.inl ⟨rfl, Bool.eq_false_iff.2 hnew⟩) rfl
    exact ⟨hcount, hd2, hd3, h2, h3, hbridge⟩

theorem idleInv_d3Trigger (hwf : s.cfg.wf = true) (hf : fieldAt s.cfg o = some (f, i)) (hl : i + 1 = f.width)
    (hk : f.kind = .trigD3) (hs : idleInv s) :
    idleInv (d3Trigger f (startOf s.cfg.d3StartBit (s.rb.read o)) (startOf s.cfg.d3StartBit v) (s.storeByte o v)) := by
  obtain ⟨hcount, hd2, hd3, hstart2, hstart3, hbridge⟩ := hs
  obtain ⟨hmem, -⟩ := fieldAt_some hf
  have hold : startOf s.cfg.d3StartBit (s.rb.read o) = false := fieldAt_last hf hl ▸ hstart3 f hmem hk
  have finish : ∀ t, StoredClear f s.cfg.d3StartBit o v s t → t.cfg = s.cfg →
      startsClear .trigD2 s.cfg.d2StartBit t ∧ startsClear .trigD3 s.cfg.d3StartBit t := fun t h hcfg => by
    obtain ⟨hown, hother⟩ := h.startsClear hwf hf hl hcfg
    rw [hk] at hown hother
    exact ⟨hother (by decide) hstart2, hown (by decide)⟩
  by_cases hnew : startOf s.cfg.d3StartBit v = true
  · rw [d3Trigger_of_starts (s := s.storeByte o v) ⟨hd3, hold, hnew⟩]
    obtain ⟨h2, h3⟩ := finish _ (.inr rfl) rfl
    exact ⟨hcount, hd2, hd3, h2, h3, hbridge⟩
  · rw [d3Trigger_rests (fun h => hnew h.2.2)]
    obtain ⟨h2, h3⟩ := finish _ (.inl ⟨rfl, Bool.eq_false_iff.2 hnew⟩) rfl
    exact ⟨hcount, hd2, hd3, h2, h3, hbridge⟩

theorem idleInv_thpCtrlTrigger (f : RegField) (hs : idleInv s) : idleInv (thpCtrlTrigger f s) := by
  obtain ⟨hcount, hd2, hd3, hstart2, hstart3, hbridge⟩ := hs
  unfold thpCtrlTrigger
  split
  next hpresent => exact ⟨hcount, hd2, hd3, hstart2, hstart3, fun _ => hpresent⟩
  next => exact ⟨hcount, hd2, hd3, hstart2, hstart3, hbridge⟩

/-- An action of a field that starts no engine touches no start bit (R123). -/
theorem idleInv_lastByteAction {old : Byte} {t : State} (hk2 : f.kind ≠ .trigD2) (hk3 : f.kind ≠ .trigD3)
    (h : lastByteAction f old v s = .ok t) (hs : idleInv s) : idleInv t := by
  cases hk : f.kind with
  | trigD2 => exact absurd hk hk2
  | trigD3 => exact absurd hk hk3
  | plain => rw [lastByteAction_plain _ _ _ hk] at h; cases h; exact hs
  | trigThpCtl => rw [lastByteAction_trigThpCtl _ _ _ hk] at h; cases h; exact idleInv_thpCtrlTrigger f hs
  | trigCfCfg => rw [lastByteAction_cfCfg _ _ _ hk] at h; cases h; exact hs
  | thpAddr => rw [lastByteAction_thpAddr _ _ _ hk] at h; cases h; exact hs
  | thpData =>
    rw [lastByteAction_thpData _ _ _ hk] at h
    exact thpIndirectWrite_keeps idleInv_inside (fun hu => idleInv_pumaWrite hu hs) h hs
  | cfBottom => rw [lastByteAction_cfBottom _ _ _ hk] at h; cases h; exact hs
  | cfTop => rw [lastByteAction_cfTop _ _ _ hk] at h; cases h; exact hs
  | cfThresh => rw [lastByteAction_cfThresh _ _ _ hk] at h; cases h; exact hs

/-- The write of a field's last byte: a control field's start bit is the trigger's, and no other field's last byte is touched. -/
theorem idleInv_lastByte {t : State} (hwf : s.cfg.wf = true) (hf : fieldAt s.cfg o = some (f, i)) (hl : i + 1 = f.width)
    (h : lastByteAction f (s.rb.read o) v (s.storeByte o v) = .ok t) (hs : idleInv s) : idleInv t := by
  by_cases hk2 : f.kind = .trigD2
  · rw [lastByteAction_trigD2 _ _ _ hk2] at h
    cases h
    exact idleInv_d2Trigger hwf hf hl hk2 hs
  by_cases hk3 : f.kind = .trigD3
  · rw [lastByteAction_trigD3 _ _ _ hk3] at h
    cases h
    exact idleInv_d3Trigger hwf hf hl hk3 hs
  · exact idleInv_lastByteAction hk2 hk3 h
      (idleInv_storeByte v (last_ne_of_kind_ne hwf hf hk2) (last_ne_of_kind_ne hwf hf hk3) hs)

theorem idleInv_mmioWrite8 {t : State} (hwf : s.cfg.wf = true) (h : mmioWrite8 o v s = .ok t) (hs : idleInv s) : idleInv t := by
  rcases mmioWrite8_ok h with ⟨rfl, hnot⟩ | ⟨f, i, hf, hl, haction⟩
  · have hlast : ∀ f ∈ s.cfg.fields, f.last ≠ o := by
      rintro f hf rfl
      obtain ⟨i, hi, hl⟩ := fieldAt_of_last hwf hf
      exact hnot f i hi hl
    exact idleInv_storeByte v (fun f hf _ => hlast f hf) (fun f hf _ => hlast f hf) hs
  · exact idleInv_lastByte hwf hf hl haction hs

end

/-- The loop of a drain ends where no entry is pending (R236). -/
theorem drainLoop_of_empty (n : Nat) (hc : s.cfEntryCount = 0) : drainLoop n s = .ok s := by
  cases n with
  | zero => rfl
  | succ n => rw [drainLoop, if_pos hc]

/-- A drain with no entry pending takes none. -/
theorem cfProcess_count_zero (hc : s.cfEntryCount = 0) : (cfProcess s).cfEntryCount = 0 := by
  unfold cfProcess
  rw [drainLoop_of_empty _ hc]
  dsimp only
  split
  · rw [State.lowerThresh_cfEntryCount, hc]
  · exact hc

theorem idleInv_cfProcess (hs : idleInv s) : idleInv (cfProcess s) := by
  obtain ⟨hcount, hrest⟩ := hs
  have hcount' := cfProcess_count_zero hcount
  rw [cfProcess_frame]
  exact ⟨hcount', hrest⟩

theorem idleInv_confWriteByte {reg : Nat} {v : Byte} (hs : idleInv s) : idleInv (confWriteByte reg v s) := by
  rw [(confWriteByte_frame reg v s).1]
  exact hs

/-- Reset clears the counter, the flags and the window, so every start bit. -/
theorem idleInv_reset : idleInv (resetState s) :=
  ⟨rfl, rfl, rfl, fun _ _ _ => BitVec.getLsbD_zero, fun _ _ _ => BitVec.getLsbD_zero, fun h => by cases h⟩

end

theorem kept_idleInv : Kept idleInv where
  inside := idleInv_inside
  mmioWrite hwf _ := idleInv_mmioWrite8 hwf
  linWrite _ hs := hs
  confWrite _ _ := idleInv_confWriteByte
  pumaWrite _ := idleInv_pumaWrite
  reset _ _ := idleInv_reset
  drain := idleInv_cfProcess

/-! ## The CmdFifo latches -/

section
variable {s : State}

theorem latchInv_congr {t : State} (hcfg : t.cfg = s.cfg) (hbot : t.cfBottom = s.cfBottom) (htop : t.cfTop = s.cfTop)
    (hthr : t.cfThreshold = s.cfThreshold) (hs : latchInv s) : latchInv t := by
  unfold latchInv
  rw [hcfg, hbot, htop, hthr]
  exact hs

theorem latch_toNat_lt {w : Nat} (h : w ≤ 20) (x : Nat) : (BitVec.ofNat 20 (x % 2 ^ w)).toNat < 2 ^ w := by
  rw [toNat_ofNat_mod_two_pow h]
  exact Nat.mod_lt x (Nat.two_pow_pos w)

/-- The CmdFifo's configuration loads truncate to the widths; no other action writes a latch (R230, R231). -/
theorem latchInv_lastByteAction {f : RegField} {old v : Byte} {t : State} (hwf : s.cfg.wf = true)
    (h : lastByteAction f old v s = .ok t) (hs : latchInv s) : latchInv t := by
  obtain ⟨hbot, htop, hthr⟩ := id hs
  obtain ⟨-, hw1, hw2, -⟩ := wf_named hwf
  cases hk : f.kind with
  | plain => rw [lastByteAction_plain _ _ _ hk] at h; cases h; exact hs
  | trigD2 => rw [lastByteAction_trigD2 _ _ _ hk] at h; cases h; rw [d2Trigger_frame]; exact hs
  | trigD3 => rw [lastByteAction_trigD3 _ _ _ hk] at h; cases h; rw [d3Trigger_frame]; exact hs
  | trigThpCtl =>
    rw [lastByteAction_trigThpCtl _ _ _ hk] at h; cases h
    unfold thpCtrlTrigger
    split <;> exact hs
  | trigCfCfg =>
    rw [lastByteAction_cfCfg _ _ _ hk] at h; cases h
    exact ⟨latch_toNat_lt hw1 _, latch_toNat_lt hw2 _, Nat.mod_lt _ (Nat.two_pow_pos _)⟩
  | thpAddr => rw [lastByteAction_thpAddr _ _ _ hk] at h; cases h; exact hs
  | thpData =>
    rw [lastByteAction_thpData _ _ _ hk] at h
    rw [(thpIndirectWrite_frame h).1]
    exact hs
  | cfBottom => rw [lastByteAction_cfBottom _ _ _ hk] at h; cases h; exact ⟨latch_toNat_lt hw1 _, htop, hthr⟩
  | cfTop => rw [lastByteAction_cfTop _ _ _ hk] at h; cases h; exact ⟨hbot, latch_toNat_lt hw2 _, hthr⟩
  | cfThresh => rw [lastByteAction_cfThresh _ _ _ hk] at h; cases h; exact ⟨hbot, htop, Nat.mod_lt _ (Nat.two_pow_pos _)⟩

theorem latchInv_mmioWrite8 {o : Nat} {v : Byte} {t : State} (hwf : s.cfg.wf = true) (h : mmioWrite8 o v s = .ok t)
    (hs : latchInv s) : latchInv t := by
  rcases mmioWrite8_ok h with ⟨rfl, -⟩ | ⟨f, i, -, -, haction⟩
  · exact hs
  · exact latchInv_lastByteAction (s := s.storeByte o v) hwf haction hs

theorem latchInv_reset : latchInv (resetState s) :=
  ⟨Nat.two_pow_pos _, Nat.two_pow_pos _, Nat.two_pow_pos _⟩

end

theorem kept_latchInv : Kept latchInv where
  inside h := latchInv_congr (by rw [h]) (by rw [h]) (by rw [h]) (by rw [h])
  mmioWrite hwf _ := latchInv_mmioWrite8 hwf
  linWrite _ hs := hs
  confWrite _ _ hs := by rw [(confWriteByte_frame _ _ _).1]; exact hs
  pumaWrite _ h hs := by rw [pumaWrite_frame h]; exact hs
  reset _ _ := latchInv_reset
  drain hs := by rw [cfProcess_frame]; exact hs

/-- Settles O59: both invariants survive every elementary access, so every step. -/
theorem stepLeavesNothingPending : Obligations.StepLeavesNothingPending := by
  unfold Obligations.StepLeavesNothingPending
  exact fun s t hwf hidle hlatch h => ⟨(kept_idleInv.step hwf hidle h).2, (kept_latchInv.step hwf hlatch h).2⟩

/-- Settles O60: a device after construction is one that a reset leaves, with both memories empty. -/
theorem resetMeetsTheInvariants : Obligations.ResetMeetsTheInvariants := by
  unfold Obligations.ResetMeetsTheInvariants
  intro c hwf
  obtain ⟨hcanon, hbelow, -⟩ := wf_cfgReset hwf
  refine ⟨⟨⟨rfl, rfl⟩, ⟨hcanon, hbelow⟩, ⟨rfl, rfl⟩, ⟨rfl, rfl⟩⟩, fun ap => apertureOk_of_disabled ?_,
    confInv_of_reset (s := State.resetOf c) hwf rfl, idleInv_reset (s := State.resetOf c), latchInv_reset (s := State.resetOf c)⟩
  cases ap <;> rfl

end Sys2Proof.Machine
end

section
/-! Drains and packets in the ring (spec/43_cmdfifo.md R234 to R250): every address a packet in a valid ring reads lies in the ring,
so a drain of a valid ring takes its budget of packets; a grouped packet reads its words by mask position; one that leaves the ring is
dropped. -/

namespace Sys2Proof.Machine

/-! ## Addresses in a ring -/

section
variable {s : State}

/-- A ring is a whole number of pages (R35). -/
theorem ringBytes_eq (s : State) : ringBytes s = (s.cfTop.toNat - s.cfBottom.toNat) * 4096 :=
  (Nat.sub_mul ..).symm

/-- An offset reduced to the ring keeps its alignment and leaves room for as many bytes. -/
theorem mod_ringBytes {x d : Nat} (h : ringBottom s < ringTop s) (hx : d ∣ x) (hd : d ∣ 4096) :
    d ∣ x % ringBytes s ∧ x % ringBytes s + d ≤ ringBytes s := by
  have hpos : 0 < ringBytes s := Nat.sub_pos_of_lt h
  have hring : d ∣ ringBytes s := by
    rw [ringBytes_eq]
    exact hd.mul_left _
  have hoff : d ∣ x % ringBytes s := (Nat.dvd_mod_iff hring).2 hx
  have hlt : x % ringBytes s < ringBytes s := Nat.mod_lt x hpos
  have hroom : d ≤ ringBytes s - x % ringBytes s := Nat.le_of_dvd (by omega) (Nat.dvd_sub hring hoff)
  exact ⟨hoff, by omega⟩

/-- The slot the read pointer names lies in a valid ring, at a multiple of 8 (R238, R248 item 3). -/
theorem slotAddr_in_ring (h : validRing s) :
    ringBottom s ≤ slotAddr s ∧ slotAddr s + 8 ≤ ringTop s ∧ slotAddr s % 8 = 0 := by
  obtain ⟨hring, -, hunit⟩ := h
  have hbytes : ringBytes s = ringTop s - ringBottom s := rfl
  have hpage : ringBottom s = s.cfBottom.toNat * 4096 := rfl
  obtain ⟨hoff, hroom⟩ := mod_ringBytes (x := s.cfReadPtr.toNat * s.cfg.cfUnitBytes) (d := 8) hring
    (by rw [hunit]; exact Nat.dvd_mul_left _ _) (by decide)
  unfold slotAddr
  omega

/-- A data word of a grouped packet lies in a valid ring (R240, R248 item 3). -/
theorem dataAddr_in_ring (h : validRing s) (k : Nat) : ringBottom s ≤ dataAddr s k ∧ dataAddr s k + 4 ≤ ringTop s := by
  obtain ⟨hring, -, hunit⟩ := h
  have hbytes : ringBytes s = ringTop s - ringBottom s := rfl
  obtain ⟨-, hroom⟩ := mod_ringBytes (x := s.cfReadPtr.toNat * s.cfg.cfUnitBytes + 8 + 4 * k) (d := 4) hring
    (by rw [hunit]; omega) (by decide)
  unfold dataAddr
  omega

theorem inRange_of_validRing (h : validRing s) {x len : Nat} (hlo : ringBottom s ≤ x) (hhi : x + len ≤ ringTop s) :
    inRange s x len = true := by
  obtain ⟨-, hfb, -⟩ := h
  exact decide_eq_true ⟨hlo, hhi, hhi.trans hfb⟩

theorem slotOk_of_validRing (h : validRing s) : slotOk s = true := by
  obtain ⟨hlo, hhi, -⟩ := slotAddr_in_ring h
  rw [slotOk, inRange_of_validRing h hlo hhi, decide_eq_true h.1]
  rfl

/-! ## The three ways a packet ends -/

theorem takePacket_of_slotOk (p : Packet) (hok : slotOk s = true) : takePacket p s = runPacket p s := if_pos hok

theorem takePacket_of_not_slotOk (p : Packet) (hok : slotOk s = false) : takePacket p s = .abort (abortDrain s) :=
  if_neg (Bool.eq_false_iff.1 hok)

/-- The register writes of a grouped packet: its mask positions, and its data words in ring order (R240). -/
def groupWrites (mask : Word) (s : State) : List (Nat × Nat) :=
  (maskBits mask).zip ((List.range (popcount mask)).map (dataAddr s))

theorem runPacket_grouped {mask : Word} (h : ∀ k, k < popcount mask → inRange s (dataAddr s k) 4 = true) (hi : BitVec 8)
    (reg : BitVec 21) (lo : BitVec 2) : runPacket (.grouped hi reg lo mask) s =
      .ok ((writeGroup reg.toNat (groupWrites mask s) s).advance (s.cfg.cfGroupHdrAdv + popcount mask)).dropEntry := by
  refine if_pos ?_
  rw [List.all_eq_true]
  intro wa hwa
  obtain ⟨k, hk, rfl⟩ := List.mem_map.1 hwa
  exact h k (List.mem_range.1 hk)

theorem runPacket_grouped_aborts {mask : Word} {k : Nat} (hk : k < popcount mask) (h : inRange s (dataAddr s k) 4 = false)
    (hi : BitVec 8) (reg : BitVec 21) (lo : BitVec 2) : runPacket (.grouped hi reg lo mask) s = .abort (abortDrain s) := by
  refine if_neg ?_
  rw [List.all_eq_true]
  intro hall
  have hin := hall (dataAddr s k) (List.mem_map.2 ⟨k, List.mem_range.2 hk, rfl⟩)
  rw [h] at hin
  cases hin

/-- Settles O36: the slot and the data words of a packet lie in a valid ring. -/
theorem validRingNeverAborts : Obligations.ValidRingNeverAborts := by
  unfold Obligations.ValidRingNeverAborts
  intro s p h
  rw [takePacket_of_slotOk p (slotOk_of_validRing h)]
  cases p with
  | nop => exact ⟨_, rfl⟩
  | rejected hi reg lo => exact ⟨_, rfl⟩
  | grouped hi reg lo mask =>
    refine ⟨_, runPacket_grouped (fun k _ => ?_) hi reg lo⟩
    obtain ⟨hlo, hhi⟩ := dataAddr_in_ring h k
    exact inRange_of_validRing h hlo hhi
  | single hi reg lo data => exact ⟨_, rfl⟩

theorem exec_toInstr (p : Packet) (s : State) : exec p.toInstr s = .next (takePacket p s).state :=
  exec_packet (packet?_toInstr p) s

/-- The pointer after an abort: past a pair, where there is a ring (R244). -/
theorem abortDrain_readPtr (s : State) : (abortDrain s).cfReadPtr = if ringBottom s < ringTop s
    then BitVec.ofNat 32 ((s.cfReadPtr.toNat + s.cfg.cfPairAdv) % ((ringTop s - ringBottom s) / s.cfg.cfUnitBytes))
    else s.cfReadPtr := by
  unfold abortDrain
  dsimp only
  split <;> rfl

/-- Settles O35: either check that fails aborts the packet, and an abort is one state. -/
theorem outOfRangePacketIsDropped : Obligations.OutOfRangePacketIsDropped := by
  unfold Obligations.OutOfRangePacketIsDropped
  intro s p hc hout
  have habort : takePacket p s = .abort (abortDrain s) := by
    rcases hout with hslot | ⟨hi, reg, lo, mask, k, rfl, hk, hdata⟩
    · exact takePacket_of_not_slotOk p hslot
    · cases hok : slotOk s with
      | false => exact takePacket_of_not_slotOk _ hok
      | true => rw [takePacket_of_slotOk _ hok, runPacket_grouped_aborts hk hdata]
  refine ⟨abortDrain s, habort, by rw [exec_toInstr, habort]; rfl, ?_, abortDrain_readPtr s⟩
  rw [← oneFewer_of_ne hc]
  exact abortDrain_frame s

end

/-! ## Grouped packets -/

/-- The number of set mask bits below a position: the number of the data word that belongs to it (R240). -/
def rankBelow (mask : Word) (i : Nat) : Nat := ((List.range i).filter (fun j => mask.getLsbD j)).length

/-- Numbering the positions that pass a test in ascending order gives each the count of such positions below it. -/
theorem zip_filter_range {α : Type} (p : Nat → Bool) (g : Nat → α) (n : Nat) :
    ((List.range n).filter p).zip ((List.range ((List.range n).filter p).length).map g)
      = ((List.range n).filter p).map (fun i => (i, g ((List.range i).filter p).length)) := by
  induction n with
  | zero => rfl
  | succ n ih =>
    rw [List.range_succ, List.filter_append]
    cases hp : p n with
    | false => simpa [hp] using ih
    | true =>
      have hone : [n].filter p = [n] := by simp [hp]
      rw [hone, List.length_append, List.length_singleton, List.range_succ, List.map_append, List.map_append,
        List.zip_append (by simp), ih]
      rfl

theorem groupWrites_eq (mask : Word) (s : State) :
    groupWrites mask s = (maskBits mask).map (fun i => (i, dataAddr s (rankBelow mask i))) :=
  zip_filter_range _ _ _

theorem mem_maskBits {mask : Word} {i : Nat} : i ∈ maskBits mask ↔ i < 32 ∧ mask.getLsbD i = true := by
  rw [maskBits, List.mem_filter, List.mem_range]

theorem maskBits_nodup (mask : Word) : (maskBits mask).Nodup := List.nodup_range.filter _

/-- Positions of one mask name different registers (R240). -/
theorem groupRegister_ne {base i j : Nat} (hi : i < 32) (hj : j < 32) (h : i ≠ j) :
    BitVec.ofNat 8 (base + i) ≠ BitVec.ofNat 8 (base + j) := by
  rw [Ne, ← BitVec.toNat_inj, BitVec.toNat_ofNat, BitVec.toNat_ofNat]
  omega

/-- A set position's register holds its word after the group: no other position names that register. -/
theorem writeGroup_compGet {mask : Word} {i : Nat} (hi : i ∈ maskBits mask) (base : Nat) (wa : Nat → Nat) (s : State) :
    (writeGroup base ((maskBits mask).map (fun i => (i, wa i))) s).compGet (BitVec.ofNat 8 (base + i)) = s.vram.rd32 (wa i) := by
  obtain ⟨l, r, hsplit⟩ := List.append_of_mem hi
  have hnodup := maskBits_nodup mask
  rw [hsplit] at hnodup
  have hnot : i ∉ r := (List.nodup_cons.1 (List.nodup_append.1 hnodup).2.1).1
  rw [hsplit, List.map_append, List.map_cons]
  refine writeGroup_at base i (wa i) _ _ s (fun p hp => ?_)
  obtain ⟨j, hj, rfl⟩ := List.mem_map.1 hp
  have hj32 : j ∈ maskBits mask := by
    rw [hsplit]
    exact List.mem_append_right _ (List.mem_cons_of_mem _ hj)
  exact groupRegister_ne (mem_maskBits.1 hi).1 (mem_maskBits.1 hj32).1 (fun e => hnot (e ▸ hj))

theorem writeGroup_ok {base : Nat} {l : List (Nat × Nat)} {s : State} (hc : s.cfEntryCount ≠ 0) (adv : Nat) :
    ((writeGroup base l s).advance adv).dropEntry = { s with
      comp := (writeGroup base l s).comp
      events := (writeGroup base l s).events
      cfReadPtr := BitVec.ofNat 32 ((s.cfReadPtr.toNat + adv) % ((ringTop s - ringBottom s) / s.cfg.cfUnitBytes))
      cfEntryCount := s.cfEntryCount - 1 } := by
  have h := writeGroup_frame base l s
  generalize writeGroup base l s = u at h ⊢
  rw [h]
  exact advance_dropEntry (s := { s with comp := u.comp, events := u.events }) hc adv

/-- Settles O34: the group's writes are its mask positions, each with the word of its rank, and different positions name different
registers. -/
theorem groupedPacketWritesByMaskPosition : Obligations.GroupedPacketWritesByMaskPosition := by
  unfold Obligations.GroupedPacketWritesByMaskPosition
  intro s hi reg lo mask below wa hok hc hin
  have hexec := exec_packet_of_slotOk (i := .wrg hi reg lo mask) rfl hok
  rw [runPacket_grouped hin] at hexec
  have hwrites : groupWrites mask s = (maskBits mask).map (fun i => (i, wa (below i))) := groupWrites_eq mask s
  refine ⟨_, hexec, writeGroup_ok hc _, fun q i h32 hset hq => ?_, fun q hq => ?_, ?_⟩
  · have hq : q = BitVec.ofNat 8 (reg.toNat + i) := (eq_ofNat_iff_toNat_eq_mod q _).2 hq
    rw [hwrites, hq]
    exact writeGroup_compGet (mem_maskBits.2 ⟨h32, hset⟩) reg.toNat (fun i => wa (below i)) s
  · rw [hwrites]
    refine writeGroup_other reg.toNat q _ s (fun p hp => ?_)
    obtain ⟨i, hi, rfl⟩ := List.mem_map.1 hp
    obtain ⟨h32, hset⟩ := mem_maskBits.1 hi
    exact fun e => hq i h32 hset ((eq_ofNat_iff_toNat_eq_mod q _).1 e)
  · have hevents := writeGroup_events reg.toNat (groupWrites mask s) s
    rw [hwrites, List.map_map] at hevents
    rw [hwrites]
    exact hevents

/-! ## Drains -/

/-- Settles O37: a drain always answers, and its frame is that of its packets and of the after-drain step. -/
theorem drainChangesOnlyFifoAndRegisters : Obligations.DrainChangesOnlyFifoAndRegisters := by
  unfold Obligations.DrainChangesOnlyFifoAndRegisters
  exact fun s => ⟨cfProcess s, rfl, cfProcess_frame s⟩

section
variable {s : State}

/-- A drain with one entry pending takes one packet, whatever its budget (R236, R237). -/
theorem cfProcess_of_one (he : s.cfEnabled = true) (hc : s.cfEntryCount = 1) :
    cfProcess s = match drainOne s with
      | .ok t => t.lowerThresh
      | .abort t => t := by
  have hbudget : ∃ n, drainBudget s = n + 1 := by
    unfold drainBudget
    split
    next h => exact ⟨s.cfThreshold - 1, by omega⟩
    next => exact ⟨0, by rw [hc]; rfl⟩
  obtain ⟨n, hn⟩ := hbudget
  have hcount := takePacket_count (fetchPacket s) s
  rw [hc, show oneFewer 1 = 0 from rfl, ← drainOne] at hcount
  simp only [cfProcess, he, if_true, hn, drainLoop, hc, show ¬ (1 : Word) = 0 by decide, if_false]
  cases hd : drainOne s with
  | ok t =>
    rw [hd, Drained.state] at hcount
    dsimp only
    rw [drainLoop_of_empty n hcount]
  | abort t => rfl

/-- Settles O6: the packet's operation and the drain's one packet are the same taking of it. -/
theorem drainRunsFetchedPacket : Obligations.DrainRunsFetchedPacket := by
  unfold Obligations.DrainRunsFetchedPacket
  intro s he hc _ p
  refine ⟨exec_toInstr p s, ?_⟩
  have hdrain : exec .cfProcess s = .next (cfProcess s) := rfl
  rw [hdrain, cfProcess_of_one he hc, show drainOne s = takePacket p s from rfl]
  cases takePacket p s with
  | ok t => exact congrArg Host.Outcome.next t.lowerThresh_eq
  | abort t => rfl

/-- A packet leaves the ring where it is. -/
theorem validRing_takePacket (p : Packet) (h : validRing s) : validRing (takePacket p s).state := by
  rw [takePacket_frame]
  exact h

/-- A drain loop on a valid ring removes its budget of entries, or all there are (R236, R248 item 2). -/
theorem drainLoop_of_validRing (n : Nat) (h : validRing s) :
    ∃ t, drainLoop n s = .ok t ∧ t.cfEntryCount.toNat = s.cfEntryCount.toNat - n := by
  induction n generalizing s with
  | zero => exact ⟨s, rfl, rfl⟩
  | succ n ih =>
    by_cases hc : s.cfEntryCount = 0
    · exact ⟨s, drainLoop_of_empty _ hc, by rw [hc]; simp⟩
    · obtain ⟨u, hu⟩ := validRingNeverAborts s (fetchPacket s) h
      have hring := validRing_takePacket (fetchPacket s) h
      have hcount := takePacket_count (fetchPacket s) s
      rw [hu, Drained.state] at hring hcount
      obtain ⟨t, ht, htc⟩ := ih hring
      refine ⟨t, ?_, ?_⟩
      · rw [drainLoop, if_neg hc, drainOne, hu]
        exact ht
      · rw [htc, hcount, oneFewer_toNat]
        omega

/-- Settles O38: the loop removes the budget, and the after-drain step settles the status bit by the count left. -/
theorem drainRemovesItsBudget : Obligations.DrainRemovesItsBudget := by
  unfold Obligations.DrainRemovesItsBudget
  intro s he h
  obtain ⟨t, ht, hcount⟩ := drainLoop_of_validRing (drainBudget s) h
  have hframe := drainLoop_frame (drainBudget s) s
  rw [ht, Drained.state] at hframe
  have hdrain : exec .cfProcess s = .next t.lowerThresh := by
    show Host.Outcome.next (cfProcess s) = _
    rw [cfProcess, if_pos he, ht]
  refine ⟨t.lowerThresh, hdrain, ?_, ?_⟩
  · rw [State.lowerThresh_cfEntryCount, hcount, drainBudget, ite_not]
  · rw [State.lowerThresh_cfEntryCount, State.lowerThresh_eq]
    have hthr : t.cfThreshold = s.cfThreshold := by rw [hframe]
    have hstatus : t.cfThreshStatus = s.cfThreshStatus := by rw [hframe]
    rw [← hthr, ← hstatus]

end

end Sys2Proof.Machine
end

section
/-! The bridge (spec/42_bridge_puma.md R190 to R200, R207, R208): what an access past the gate does for each class of address, what
the gate does while the bridge is off, and the write that completes a packet in the ring (spec/43_cmdfifo.md R249). -/

namespace Sys2Proof.Machine

/-! ## Accesses past the gate, by the class of the address -/

section
variable {a : Word} {s : State}

theorem pumaRead_reg {r : BitVec 8} (hc : classify s.cfg a = .reg r) : pumaRead a s = .ok (compRegRead s r, s) := by
  rw [pumaRead, hc]

theorem pumaWrite_reg {r : BitVec 8} (hc : classify s.cfg a = .reg r) (v : Word) :
    pumaWrite a v s = .ok (compRegWrite r v s) := by
  rw [pumaWrite, hc]

theorem pumaRead_invalid (hc : classify s.cfg a = .invalid) : pumaRead a s = .ok (0, s.log (.invalidAddress a)) := by
  rw [pumaRead, hc]

theorem pumaWrite_invalid (hc : classify s.cfg a = .invalid) (v : Word) :
    pumaWrite a v s = .ok (s.log (.invalidAddress a)) := by
  rw [pumaWrite, hc]

theorem pumaRead_fb (hc : classify s.cfg a = .fb) (halign : a.toNat % 4 = 0) :
    pumaRead a s = .ok (s.vram.rd32 a.toNat, s) := by
  rw [pumaRead, hc]
  exact if_pos halign

theorem pumaWrite_fb (hc : classify s.cfg a = .fb) (halign : a.toNat % 4 = 0) (v : Word) :
    pumaWrite a v s = .ok (fbWrite32 a.toNat v s) := by
  rw [pumaWrite, hc]
  exact if_pos halign

/-- R208: a framebuffer or texture word lies at a multiple of 4. -/
theorem pumaRead_misaligned (hc : classify s.cfg a = .fb ∨ ∃ k, classify s.cfg a = .tex k) (halign : a.toNat % 4 ≠ 0) :
    pumaRead a s = .error .pumaMisaligned := by
  rcases hc with hc | ⟨k, hc⟩ <;> rw [pumaRead, hc] <;> exact if_neg halign

theorem pumaWrite_misaligned (hc : classify s.cfg a = .fb ∨ ∃ k, classify s.cfg a = .tex k) (halign : a.toNat % 4 ≠ 0)
    (v : Word) : pumaWrite a v s = .error .pumaMisaligned := by
  rcases hc with hc | ⟨k, hc⟩ <;> rw [pumaWrite, hc] <;> exact if_neg halign

/-! ## Registers -/

/-- A gradient register reads sign-extended from bit 23, every other register as it is (R195). -/
theorem compRegRead_getLsbD (s : State) (r : BitVec 8) {k : Nat} (hk : k < 32) :
    (compRegRead s r).getLsbD k = (s.compGet r).getLsbD
      (if s.cfg.gradLo ≤ r.toNat ∧ r.toNat ≤ s.cfg.gradHi ∧ 24 ≤ k then 23 else k) := by
  unfold compRegRead
  by_cases hg : s.cfg.gradLo ≤ r.toNat ∧ r.toNat ≤ s.cfg.gradHi
  · rw [if_pos hg, BitVec.getLsbD_signExtend, BitVec.msb_eq_getLsbD_last, BitVec.getLsbD_extractLsb',
      BitVec.getLsbD_extractLsb', decide_eq_true hk]
    obtain ⟨hlo, hhi⟩ := hg
    by_cases h24 : k < 24
    · simp [h24, show ¬ 24 ≤ k by omega]
    · simp [h24, hlo, hhi, Nat.le_of_not_lt h24]
  · have hplain : ¬ (s.cfg.gradLo ≤ r.toNat ∧ r.toNat ≤ s.cfg.gradHi ∧ 24 ≤ k) := fun ⟨hlo, hhi, _⟩ => hg ⟨hlo, hhi⟩
    rw [if_neg hg, if_neg hplain]

/-- Settles O21: the address names the register by R192, and the Companion aperture passes the same address on. -/
theorem registerReadSignExtendsGradients : Obligations.RegisterReadSignExtendsGradients := by
  unfold Obligations.RegisterReadSignExtendsGradients
  intro s a r hon hfb hlo hhi hr
  have hc : classify s.cfg a = .reg r := classify_of_reg hfb hlo hhi hr
  have hread : exec (.pumaR32 a) s = .next (s.setReply (.r32 (compRegRead s r))) := by
    rw [exec_pumaR32_of_bridgeOn hon, pumaRead_reg hc, finishWord_ok]
  exact ⟨hc, compRegRead s r, fun k hk => compRegRead_getLsbD s r hk, hread,
    fun halign hin => (exec_compR32_eq_pumaR32 halign hin).trans hread⟩

/-- Settles O22: the write of the register the address names, on either path. -/
theorem registerWriteStoresOneRegister : Obligations.RegisterWriteStoresOneRegister := by
  unfold Obligations.RegisterWriteStoresOneRegister
  intro s a v r hon hfb hlo hhi hr
  have hwrite : exec (.pumaW32 a v) s = .next (compRegWrite r v s) := by
    rw [exec_pumaW32_of_bridgeOn hon, pumaWrite_reg (classify_of_reg hfb hlo hhi hr), finish_ok]
  exact ⟨compRegWrite r v s, hwrite, rfl, fun q => compRegWrite_compGet r q v s,
    fun halign hin => (exec_compW32_eq_pumaW32 halign hin v).trans hwrite⟩

/-! ## The gate, invalid and misaligned addresses -/

theorem bridgeRead_of_bridgeOff (h : ¬ bridgeOn s) : bridgeRead a s =
    .ok (0, s.log (if s.cfg.companionPresent = true then .bridgeDisabled else .bridgeNotConfigured)) := by
  rw [bridgeRead, bridgeGate_off h]

theorem bridgeWrite_of_bridgeOff (h : ¬ bridgeOn s) (v : Word) : bridgeWrite a v s =
    .ok (s.log (if s.cfg.companionPresent = true then .bridgeDisabled else .bridgeNotConfigured)) := by
  rw [bridgeWrite, bridgeGate_off h]

/-- Settles O23: the gate stops the access with its one diagnostic, on either path. -/
theorem bridgeOffIsABenignNoOp : Obligations.BridgeOffIsABenignNoOp := by
  unfold Obligations.BridgeOffIsABenignNoOp
  intro s a v hoff d
  have hread : exec (.pumaR32 a) s = .next ((s.log d).setReply (.r32 0)) := congrArg finishWord (bridgeRead_of_bridgeOff hoff)
  have hwrite : exec (.pumaW32 a v) s = .next (s.log d) := congrArg finish (bridgeWrite_of_bridgeOff hoff v)
  exact ⟨hread, hwrite, fun halign hin =>
    ⟨(exec_compR32_eq_pumaR32 halign hin).trans hread, (exec_compW32_eq_pumaW32 halign hin v).trans hwrite⟩⟩

/-- Settles O26: the address is in no region, so the access past the gate only logs it. -/
theorem invalidPumaAddressReadsZero : Obligations.InvalidPumaAddressReadsZero := by
  unfold Obligations.InvalidPumaAddressReadsZero
  intro s a v hon hfb hreg htex
  have hc : classify s.cfg a = .invalid := classify_of_none hfb hreg htex
  have hread : exec (.pumaR32 a) s = .next ((s.log (.invalidAddress a)).setReply (.r32 0)) := by
    rw [exec_pumaR32_of_bridgeOn hon, pumaRead_invalid hc, finishWord_ok]
  have hwrite : exec (.pumaW32 a v) s = .next (s.log (.invalidAddress a)) := by
    rw [exec_pumaW32_of_bridgeOn hon, pumaWrite_invalid hc, finish_ok]
  exact ⟨hc, hread, hwrite, fun halign hin =>
    ⟨(exec_compR32_eq_pumaR32 halign hin).trans hread, (exec_compW32_eq_pumaW32 halign hin v).trans hwrite⟩⟩

theorem exec_comp_refused {r : Refusal} (h : companionAdmits s a = some r) (v : Word) :
    exec (.compR32 a) s = .refused r ∧ exec (.compW32 a v) s = .refused r := by
  change execCompR32 a s = _ ∧ execCompW32 a v s = _
  rw [execCompR32, execCompW32, h]
  exact ⟨rfl, rfl⟩

theorem companionAdmits_misaligned (halign : a.toNat % 4 ≠ 0) (hin : a.toNat + 4 ≤ s.cfg.companionSize) :
    companionAdmits s a = some .companionMisaligned :=
  (if_neg (by omega)).trans (if_neg halign)

theorem companionAdmits_outside (hout : s.cfg.companionSize < a.toNat + 4) : companionAdmits s a = some .apertureEdge :=
  if_pos hout

/-- Settles O27: the PUMA bus refuses by the class of the address (R208), the Companion aperture by the offset (R200, R64). -/
theorem misalignedPumaAccessRefused : Obligations.MisalignedPumaAccessRefused := by
  unfold Obligations.MisalignedPumaAccessRefused
  intro s a v
  refine ⟨fun halign hon hc => ?_, fun hon hc => ?_, fun halign hin => exec_comp_refused (companionAdmits_misaligned halign hin) v,
    fun hout => exec_comp_refused (companionAdmits_outside hout) v⟩ <;>
    rw [exec_pumaR32_of_bridgeOn hon, exec_pumaW32_of_bridgeOn hon]
  · rw [pumaRead_misaligned hc halign, pumaWrite_misaligned hc halign]
    exact ⟨rfl, rfl⟩
  · rcases hc with ⟨r, hc⟩ | hc
    · rw [pumaRead_reg hc, pumaWrite_reg hc]
      exact ⟨⟨_, rfl⟩, ⟨_, rfl⟩⟩
    · rw [pumaRead_invalid hc, pumaWrite_invalid hc]
      exact ⟨⟨_, rfl⟩, ⟨_, rfl⟩⟩

end

/-! ## Framebuffer words -/

section
variable {s : State} {a : Nat}

theorem insideRing_iff : insideRing s a = true ↔
    s.cfEnabled = true ∧ s.cfBottom.toNat * 4096 ≤ a ∧ a < s.cfTop.toNat * 4096 := by
  rw [insideRing, Bool.and_eq_true, decide_eq_true_eq]
  rfl

/-- The state a counted ring write leaves for the drain: stored, one entry more, the status bit raised at the threshold (R234, R235). -/
def countedWrite (a : Nat) (v : Word) (s : State) : State := { s with
  vram := s.vram.wr32 a v
  cfEntryCount := s.cfEntryCount + 1
  cfThreshStatus := if s.cfThreshold ≤ (s.cfEntryCount + 1).toNat then true else s.cfThreshStatus }

/-- The second word of a pair in the ring counts an entry and drains (R234). -/
theorem fbWrite32_counts (hin : insideRing s a = true) (h4 : a % 8 = 4) (v : Word) :
    fbWrite32 a v s = cfProcess (countedWrite a v s) := by
  have hcond : (insideRing (s.setVram (s.vram.wr32 a v)) a && decide (a % 8 = 4)) = true := by
    rw [Bool.and_eq_true]
    exact ⟨hin, decide_eq_true h4⟩
  rw [fbWrite32, if_pos hcond, State.raiseThresh_eq]
  rfl

/-- Any other framebuffer word is stored and nothing more (R197). -/
theorem fbWrite32_stores (h : ¬ (insideRing s a = true ∧ a % 8 = 4)) (v : Word) :
    fbWrite32 a v s = s.setVram (s.vram.wr32 a v) := by
  refine if_neg ?_
  rw [Bool.and_eq_true, decide_eq_true_eq]
  exact h

end

/-- Settles O24: the address is a framebuffer word; the ring and the place in its pair decide whether a write counts. -/
theorem framebufferWordsStoreAndCount : Obligations.FramebufferWordsStoreAndCount := by
  unfold Obligations.FramebufferWordsStoreAndCount
  intro s a v hon hlt halign inRing
  have hc : classify s.cfg a = .fb := classify_of_fb hlt
  have hread : ∀ {u : State}, bridgeOn u → classify u.cfg a = .fb →
      exec (.pumaR32 a) u = .next (u.setReply (.r32 (u.vram.rd32 a.toNat))) := fun hu hcu => by
    rw [exec_pumaR32_of_bridgeOn hu, pumaRead_fb hcu halign, finishWord_ok]
  have hwrite : exec (.pumaW32 a v) s = .next (fbWrite32 a.toNat v s) := by
    rw [exec_pumaW32_of_bridgeOn hon, pumaWrite_fb hc halign, finish_ok]
  refine ⟨hc, hread hon hc, fun hin => ⟨exec_compR32_eq_pumaR32 halign hin, exec_compW32_eq_pumaW32 halign hin v⟩,
    s.vram.wr32 a.toNat v, fun b => Mem.read_wr32 s.vram a.toNat b v, fun hquiet => ?_, ?_, fun hin h4 => ?_⟩
  · rw [hwrite, fbWrite32_stores]
    · rfl
    · rintro ⟨hin, h4⟩
      rcases hquiet with hout | h0
      · exact hout (insideRing_iff.1 hin)
      · omega
  · rw [hread (u := { s with vram := s.vram.wr32 a.toNat v }) hon hc, Mem.rd32_wr32_same]
    rfl
  · rw [hwrite, fbWrite32_counts (insideRing_iff.2 hin) h4]
    rfl

/-! ## A packet replayed as it is completed -/

section
variable {s : State}

/-- The second word of a slot of a valid ring is the second of a pair in it, and lies in the framebuffer. -/
theorem slotAddr_second (he : s.cfEnabled = true) (h : validRing s) :
    insideRing s (slotAddr s + 4) = true ∧ (slotAddr s + 4) % 8 = 4 ∧ slotAddr s + 4 < s.cfg.fbSize := by
  obtain ⟨hlo, hhi, h8⟩ := slotAddr_in_ring h
  obtain ⟨-, hfb, -⟩ := h
  have hbot : ringBottom s = s.cfBottom.toNat * 4096 := rfl
  have htop : ringTop s = s.cfTop.toNat * 4096 := rfl
  exact ⟨insideRing_iff.2 ⟨he, by omega, by omega⟩, by omega, by omega⟩

/-- A pointer reduced modulo the slots of a ring fits its 32 bits: page numbers are below 2^20. -/
theorem readPtr_fits (h : validRing s) (x : Nat) :
    (BitVec.ofNat 32 (x % ((ringTop s - ringBottom s) / s.cfg.cfUnitBytes))).toNat
      = x % ((ringTop s - ringBottom s) / 8) := by
  obtain ⟨hring, -, hunit⟩ := h
  have htop : ringTop s = s.cfTop.toNat * 4096 := rfl
  have hpage := s.cfTop.isLt
  have hbot : ringBottom s = s.cfBottom.toNat * 4096 := rfl
  have hslots : 0 < (ringTop s - ringBottom s) / 8 := by omega
  have hlt := Nat.mod_lt x hslots
  rw [hunit, BitVec.toNat_ofNat]
  exact Nat.mod_eq_of_lt (by omega)

/-- The drain of a ring whose one entry is a non-grouped packet writes its register and consumes it (R242, R245). -/
theorem cfProcess_of_one_single {hi : BitVec 8} {reg : BitVec 21} {lo : BitVec 2} {d : Word} (he : s.cfEnabled = true)
    (hc : s.cfEntryCount = 1) (h : validRing s) (hp : fetchPacket s = .single hi reg lo d) :
    cfProcess s = { compRegWrite (BitVec.ofNat 8 reg.toNat) d s with
      cfReadPtr := BitVec.ofNat 32 ((s.cfReadPtr.toNat + s.cfg.cfPairAdv) % ((ringTop s - ringBottom s) / s.cfg.cfUnitBytes))
      cfEntryCount := 0
      cfThreshStatus := if 0 < s.cfThreshold then false else s.cfThreshStatus } := by
  have hne : (compRegWrite (BitVec.ofNat 8 reg.toNat) d s).cfEntryCount ≠ 0 := by
    rw [compRegWrite_cfEntryCount, hc]
    decide
  rw [cfProcess_of_one he hc, drainOne, hp, takePacket_of_slotOk _ (slotOk_of_validRing h), runPacket]
  dsimp only
  rw [advance_dropEntry hne, compRegWrite_cfEntryCount, hc, State.lowerThresh_eq]
  rfl

end

/-- Settles O39: the write counts the one entry, and its drain fetches the packet just completed. -/
theorem ringWriteReplaysAWritePacket : Obligations.RingWriteReplaysAWritePacket := by
  unfold Obligations.RingWriteReplaysAWritePacket
  intro s a d hi reg lo hon he hring hcount ha hfirst hpacket
  obtain ⟨hin, h4, hfb⟩ := slotAddr_second he hring
  rw [← ha] at hin h4 hfb
  let u : State := countedWrite a.toNat d s
  have hone : u.cfEntryCount = 1 := by
    show s.cfEntryCount + 1 = 1
    rw [hcount]
    rfl
  have hfetch : fetchPacket u = .single hi reg lo d := by
    have h0 : u.vram.rd32 (slotAddr s) = header 0 hi reg lo := (Mem.rd32_wr32_apart _ _ (by omega)).trans hfirst
    have h1 : u.vram.rd32 (slotAddr s + 4) = d := by
      rw [← ha]
      exact Mem.rd32_wr32_same _ _ _
    show decodePacket (u.vram.rd32 (slotAddr s)) (u.vram.rd32 (slotAddr s + 4)) = _
    rw [h0, h1]
    exact decodePacket_words hpacket
  have hexec : exec (.pumaW32 a d) s = .next (cfProcess u) := by
    rw [exec_pumaW32_of_bridgeOn hon, pumaWrite_fb (classify_of_fb hfb) (by omega), finish_ok, fbWrite32_counts hin h4]
  have hstatus : (if 0 < s.cfThreshold then false else u.cfThreshStatus) = decide (s.cfThreshold = 0) := by
    have hraise : s.cfThreshold = 0 → u.cfThreshStatus = true := fun h => if_pos (by omega)
    by_cases hthr : s.cfThreshold = 0
    · rw [if_neg (by omega), hraise hthr, decide_eq_true hthr]
    · rw [if_pos (by omega), decide_eq_false hthr]
  have hdrain := cfProcess_of_one_single (s := u) he hone hring hfetch
  rw [show u.cfThreshold = s.cfThreshold from rfl, hstatus, ← hcount] at hdrain
  rw [hdrain] at hexec
  refine ⟨_, hexec, rfl, fun q => ?_, readPtr_fits hring _, fun b => Mem.read_wr32 s.vram a.toNat b d⟩
  simp only [← eq_ofNat_iff_toNat_eq_mod]
  exact compRegWrite_compGet _ q d u

end Sys2Proof.Machine
end

section
/-! Host accesses (spec/20_memory.md R62 to R68, spec/41_pci_aperture.md R163): a memory access runs the operation of the aperture
that `target` names, and a configuration access reaches function 0 or no function. -/

namespace Sys2Proof.Machine

/-! ## Memory accesses -/

section
variable {s : State} {addr : Word} {n : Width} {bus : List Request}

theorem step_memRead (hbus : s.bus = .memRead addr n :: bus) :
    step s = runTarget (target s addr.toNat n.bytes) (fun ap off => readInstr ap off n) { s with bus := bus, reply := none } := by
  rw [step, hbus]
  rfl

theorem step_memWrite {v : Word} (hbus : s.bus = .memWrite addr n v :: bus) :
    step s = runTarget (target s addr.toNat n.bytes) (fun ap off => writeInstr ap off n v) { s with bus := bus, reply := none } := by
  rw [step, hbus]
  rfl

end

/-- Settles O7: the access's target is the aperture, and each aperture and width names one operation. -/
theorem hostAccessRunsApertureOperation : Obligations.HostAccessRunsApertureOperation := by
  unfold Obligations.HostAccessRunsApertureOperation
  intro s ap addr n bus hen hlo hhi h32 hother off u
  have htarget : target s addr.toNat n.bytes = .aperture ap off := target_aperture n hen hlo hhi h32 hother
  refine ⟨fun hbus => ?_, fun v hbus => ?_⟩
  · rw [step_memRead hbus, htarget]
    cases ap <;> cases n <;> rfl
  · rw [step_memWrite hbus, htarget]
    cases ap <;> cases n <;> rfl

/-- Settles O8: the three cases of `target` that name no aperture. -/
theorem accessesOutsideOneAperture : Obligations.AccessesOutsideOneAperture := by
  unfold Obligations.AccessesOutsideOneAperture
  intro s addr n bus
  refine ⟨fun hnone => ?_, fun htwo => ?_, fun hone hpart => ?_⟩
  · have htarget := target_elsewhere n hnone
    exact ⟨fun hbus => by rw [step_memRead hbus, htarget]; rfl, fun v hbus => by rw [step_memWrite hbus, htarget]; rfl⟩
  · have htarget := target_overlap htwo
    exact ⟨fun hbus => by rw [step_memRead hbus, htarget]; rfl, fun v hbus => by rw [step_memWrite hbus, htarget]; rfl⟩
  · have htarget := target_edge hone hpart
    exact ⟨fun hbus => by rw [step_memRead hbus, htarget]; rfl, fun v hbus => by rw [step_memWrite hbus, htarget]; rfl⟩

/-! ## Configuration accesses -/

/-- The records that an access of `n` bytes to an absent function leaves (R292). -/
def absentDiags (reg n : Nat) : List Diag := (List.range n).map (fun k => .invalidAddress (BitVec.ofNat 32 (reg + k)))

theorem absentDiags_succ (reg n : Nat) :
    absentDiags reg (n + 1) = .invalidAddress (BitVec.ofNat 32 reg) :: absentDiags (reg + 1) n := by
  unfold absentDiags
  rw [List.range_succ_eq_map, List.map_cons, List.map_map]
  refine congrArg _ (List.map_congr_left fun k _ => ?_)
  simp only [Function.comp_apply, Nat.succ_eq_add_one]
  rw [Nat.add_comm k 1, Nat.add_assoc]

/-- Byte reads of an absent function return 0xFF each and log each (R163, R292). -/
theorem readBytes_absentRead8 : ∀ (n reg : Nat) (s : State), readBytes absentRead8 n reg s =
    .ok (List.replicate n 0xFF#8, { s with diags := s.diags ++ absentDiags reg n })
  | 0, _, s => by simp [readBytes, absentDiags]
  | n + 1, reg, s => by
    rw [readBytes, absentRead8]
    dsimp only
    rw [readBytes_absentRead8 n (reg + 1), absentDiags_succ]
    simp [List.replicate_succ]

/-- Byte writes of an absent function log each and change nothing else (R163, R292). -/
theorem writeBytes_absentWrite8 : ∀ (bs : List Byte) (reg : Nat) (s : State), writeBytes absentWrite8 bs reg s =
    .ok { s with diags := s.diags ++ absentDiags reg bs.length }
  | [], _, s => by simp [writeBytes, absentDiags]
  | v :: bs, reg, s => by
    rw [writeBytes, absentWrite8]
    dsimp only
    rw [writeBytes_absentWrite8 bs (reg + 1), List.length_cons, absentDiags_succ]
    simp

theorem lowBytes_length (n : Width) (v : Word) : (lowBytes n v).length = n.bytes := by cases n <;> rfl

section
variable {s : State} {fn : BitVec 3} {reg : BitVec 8} {n : Width} {bus : List Request}

theorem step_confRead (hbus : s.bus = .confRead fn reg n :: bus) :
    step s = confAccessRead fn reg n { s with bus := bus, reply := none } := by
  rw [step, hbus]
  rfl

theorem step_confWrite {v : Word} (hbus : s.bus = .confWrite fn reg n v :: bus) :
    step s = confAccessWrite fn reg n v { s with bus := bus, reply := none } := by
  rw [step, hbus]
  rfl

theorem confAccessRead_absent (hfn : fn ≠ 0) (hin : reg.toNat + n.bytes ≤ 256) : confAccessRead fn reg n s =
    .next { s with
      diags := s.diags ++ absentDiags reg.toNat n.bytes
      reply := some (replyOf n (List.replicate n.bytes 0xFF#8)) } := by
  rw [confAccessRead.eq_def, if_neg hfn, if_neg (by omega), readBytes_absentRead8]
  rfl

theorem confAccessRead_outside (hfn : fn ≠ 0) (hout : 256 < reg.toNat + n.bytes) :
    confAccessRead fn reg n s = .refused .configEdge := by
  rw [confAccessRead.eq_def, if_neg hfn, if_pos hout]

theorem confAccessWrite_absent (hfn : fn ≠ 0) (hin : reg.toNat + n.bytes ≤ 256) (v : Word) : confAccessWrite fn reg n v s =
    .next { s with diags := s.diags ++ absentDiags reg.toNat n.bytes } := by
  rw [confAccessWrite.eq_def, if_neg hfn, if_neg (by omega), writeBytes_absentWrite8, lowBytes_length]
  rfl

theorem confAccessWrite_outside (hfn : fn ≠ 0) (hout : 256 < reg.toNat + n.bytes) (v : Word) :
    confAccessWrite fn reg n v s = .refused .configEdge := by
  rw [confAccessWrite.eq_def, if_neg hfn, if_pos hout]

end

/-- Settles O9: by the function, and for an absent one by the edge of its 256 bytes. -/
theorem configurationAccessByFunction : Obligations.ConfigurationAccessByFunction := by
  unfold Obligations.ConfigurationAccessByFunction
  intro s fn reg n bus u logged
  refine ⟨fun hbus => ?_, fun v hbus => ?_⟩
  · rw [step_confRead hbus]
    refine ⟨fun hfn => ?_, fun hfn hin => ?_, fun hfn hout => confAccessRead_outside hfn hout⟩
    · refine (if_pos hfn).trans ?_
      cases n <;> rfl
    · rw [confAccessRead_absent hfn hin]
      cases n <;> rfl
  · rw [step_confWrite hbus]
    refine ⟨fun hfn => ?_, fun hfn hin => confAccessWrite_absent hfn hin v, fun hfn hout => confAccessWrite_outside hfn hout v⟩
    refine (if_pos hfn).trans ?_
    cases n <;> rfl

end Sys2Proof.Machine
end

section
/-! Configuration writes and the Linear and ROM apertures (spec/41_pci_aperture.md R152 to R169). -/

namespace Sys2Proof.Machine

/-! ## Configuration writes -/

theorem exec_cfgW16 (reg : BitVec 8) (v : Half) (s : State) :
    exec (.cfgW16 reg v) s = finish (confWrite reg.toNat (halfBytes v) s) := rfl

theorem exec_cfgW32 (reg : BitVec 8) (v : Word) (s : State) :
    exec (.cfgW32 reg v) s = finish (confWrite reg.toNat (wordBytes v) s) := rfl

/-- The operations `CFG.W8` that store some bytes at `reg, reg+1, ...`. -/
def confByteWrites : List Byte → Nat → List Instr
  | [], _ => []
  | v :: bs, reg => .cfgW8 (BitVec.ofNat 8 reg) v :: confByteWrites bs (reg + 1)

/-- The byte writes of a wide configuration write are operations `CFG.W8`. -/
theorem finish_writeBytes_confWrite8 : ∀ (bs : List Byte) (reg : Nat) (s : State), reg + bs.length ≤ 256 →
    finish (writeBytes confWrite8 bs reg s) = runAll (confByteWrites bs reg) s
  | [], _, _, _ => rfl
  | v :: bs, reg, s, h => by
    rw [List.length_cons] at h
    have hreg : (BitVec.ofNat 8 reg).toNat = reg := (BitVec.toNat_ofNat reg 8).trans (Nat.mod_eq_of_lt (by omega))
    rw [confByteWrites, runAll, exec_cfgW8, hreg, writeBytes_cons, confWrite8]
    exact finish_writeBytes_confWrite8 bs (reg + 1) _ (by omega)

/-- A configuration write is its byte writes, or refused past offset 255 (R162). -/
theorem finish_confWrite (reg : Nat) (bs : List Byte) (s : State) : finish (confWrite reg bs s) =
    if reg + bs.length ≤ 256 then runAll (confByteWrites bs reg) s else .refused .configEdge := by
  unfold confWrite
  split
  next h => rw [if_neg (by omega), finish_error]
  next h => rw [if_pos (by omega), finish_writeBytes_confWrite8 _ _ _ (by omega)]

theorem ofNat8_toNat_add (reg : BitVec 8) (k : Nat) : BitVec.ofNat 8 (reg.toNat + k) = reg + BitVec.ofNat 8 k := by
  rw [BitVec.ofNat_add, BitVec.ofNat_toNat, BitVec.setWidth_eq]

/-- Settles O41: both widths are one fact about writes of any number of bytes. -/
theorem wideConfigurationWriteIsByteWrites : Obligations.WideConfigurationWriteIsByteWrites := by
  unfold Obligations.WideConfigurationWriteIsByteWrites
  intro s reg
  refine ⟨fun v => ?_, fun v => ?_⟩
  · rw [exec_cfgW16, finish_confWrite]
    simp only [halfBytes, confByteWrites, ofNat8_toNat_add, BitVec.ofNat_toNat, BitVec.setWidth_eq]
    rfl
  · rw [exec_cfgW32, finish_confWrite]
    simp only [wordBytes, confByteWrites, Nat.add_assoc, ofNat8_toNat_add, BitVec.ofNat_toNat, BitVec.setWidth_eq]
    rfl

/-- A configuration write inside the 256 bytes completes with the frame of its byte writes. -/
theorem finish_confWrite_frame {reg : Nat} {bs : List Byte} (s : State) (h : reg + bs.length ≤ 256) :
    ∃ t, finish (confWrite reg bs s) = .next t ∧ t = { s with conf := t.conf, ap := t.ap, events := t.events }
      ∧ ∀ a, ¬ (reg ≤ a ∧ a < reg + bs.length) → t.conf.read a = s.conf.read a := by
  obtain ⟨t, ht⟩ := confWrite_ok s h
  exact ⟨t, by rw [ht, finish_ok], confWrite_frame ht⟩

/-- Settles O42, for each width. -/
theorem configurationWritesCompleteAndFrame : Obligations.ConfigurationWritesCompleteAndFrame := by
  unfold Obligations.ConfigurationWritesCompleteAndFrame
  intro s reg
  refine ⟨fun v => ?_, fun v h => finish_confWrite_frame (bs := halfBytes v) s h,
    fun v h => finish_confWrite_frame (bs := wordBytes v) s h⟩
  obtain ⟨hframe, hother⟩ := confWriteByte_frame reg.toNat v s
  exact ⟨_, exec_cfgW8 s reg v, hframe, hother⟩

theorem barAt_none_of_intLine {c : Cfg} (h : c.wf = true) : barAt c c.cfgIntLine = none := by
  cases hb : barAt c c.cfgIntLine with
  | none => rfl
  | some p =>
    obtain ⟨ap, i⟩ := p
    obtain ⟨hlo, hhi, -⟩ := barAt_some hb
    obtain ⟨-, -, hline, -⟩ := wf_bar h ap
    omega

/-- A read-only byte ignores writes (R157, R160). -/
theorem confWriteByte_readOnly {reg : Nat} {s : State} (h : readOnlyByte s.cfg reg) (v : Byte) : confWriteByte reg v s = s := by
  obtain ⟨hlo, hhi, hbar, hline⟩ := h
  rw [confWriteByte, if_neg hlo, if_neg hhi, hbar]
  exact if_neg hline

/-- The interrupt line stores its byte (R159). -/
theorem confWriteByte_intLine {s : State} (h : s.cfg.wf = true) (v : Byte) :
    confWriteByte s.cfg.cfgIntLine v s = s.setConf s.cfg.cfgIntLine v := by
  have := wf_intLine h
  rw [confWriteByte, if_neg (by omega), if_neg (by omega), barAt_none_of_intLine h]
  exact if_pos rfl

/-- The command register's high byte is stored masked (R152). -/
theorem confWriteByte_commandHigh (v : Byte) (s : State) :
    confWriteByte (s.cfg.cfgCmd + 1) v s = s.setConf (s.cfg.cfgCmd + 1) (v &&& lane s.cfg.cmdWmask 1) :=
  (if_neg (by omega)).trans (if_pos rfl)

/-- Settles O46, by the register. -/
theorem configurationBytesWithoutAnAperture : Obligations.ConfigurationBytesWithoutAnAperture := by
  unfold Obligations.ConfigurationBytesWithoutAnAperture
  intro s reg v
  refine ⟨fun hro => ?_, fun hwf hreg => ⟨s.setConf reg.toNat v, ?_, rfl, fun a => Mem.read_write _ _ _ _⟩,
    fun hreg => ⟨s.setConf reg.toNat (v &&& lane s.cfg.cmdWmask 1), ?_, rfl, fun a => Mem.read_write _ _ _ _⟩⟩ <;>
    rw [exec_cfgW8]
  · rw [confWriteByte_readOnly hro]
  · rw [hreg, confWriteByte_intLine hwf]
  · rw [hreg, confWriteByte_commandHigh]

/-! ## A BAR written as a dword -/

section
variable {s : State} (ap : Aperture)

theorem barWriteByte_cfg (i : Nat) (v : Byte) (s : State) : (barWriteByte ap i v s).cfg = s.cfg := by
  rw [(barWriteByte_frame ap i v s).1]

theorem barWriteByte_conf (i : Nat) (v : Byte) (s : State) :
    (barWriteByte ap i v s).conf = s.conf.write (s.cfg.cfgBar.get ap + i) v := by
  rw [(barWriteByte_frame ap i v s).1]

theorem memEn_barWriteByte {i : Nat} (v : Byte) (hwf : s.cfg.wf = true) (hi : i < 4) :
    memEn (barWriteByte ap i v s) = memEn s := by
  rw [← memEn_setConf_bar hwf ap hi v, (barWriteByte_frame ap i v s).1]
  rfl

/-- The state before the high byte of a BAR group written from the low byte up. -/
def barWriteLow (ap : Aperture) (v : Word) (s : State) : State :=
  barWriteByte ap 2 (lane v 2) (barWriteByte ap 1 (lane v 1) (barWriteByte ap 0 (lane v 0) s))

/-- A dword written to a BAR group is four BAR byte writes, the high byte last (R162). -/
theorem exec_cfgW32_bar (hwf : s.cfg.wf = true) {reg : BitVec 8} (hreg : reg.toNat = s.cfg.cfgBar.get ap) (v : Word) :
    exec (.cfgW32 reg v) s = .next (barWriteByte ap 3 (lane v 3) (barWriteLow ap v s)) := by
  obtain ⟨h256, -⟩ := wf_bar hwf ap
  have hin : ¬ 256 < s.cfg.cfgBar.get ap + (wordBytes v).length := by rw [wordBytes_length]; omega
  have hbyte : ∀ {i : Nat} {u : State} {x : Byte}, i < 4 → u.cfg = s.cfg →
      confWriteByte (s.cfg.cfgBar.get ap + i) x u = barWriteByte ap i x u := fun hi hu => by
    rw [← hu]
    exact confWriteByte_bar (hu ▸ hwf) ap hi _
  rw [exec_cfgW32, hreg, confWrite, if_neg hin]
  show Host.Outcome.next (confWriteByte (s.cfg.cfgBar.get ap + 3) _ (confWriteByte (s.cfg.cfgBar.get ap + 2) _
    (confWriteByte (s.cfg.cfgBar.get ap + 1) _ (confWriteByte (s.cfg.cfgBar.get ap + 0) _ s)))) = _
  rw [hbyte (i := 0) (by decide) rfl, hbyte (i := 1) (by decide) (by rw [barWriteByte_cfg]),
    hbyte (i := 2) (by decide) (by rw [barWriteByte_cfg, barWriteByte_cfg]),
    hbyte (i := 3) (by decide) (by rw [barWriteByte_cfg, barWriteByte_cfg, barWriteByte_cfg])]
  rfl

theorem barWriteLow_cfg (v : Word) (s : State) : (barWriteLow ap v s).cfg = s.cfg := by
  simp only [barWriteLow, barWriteByte_cfg]

/-- The low bytes and the high byte together store the dword. -/
theorem barWriteLow_conf (v : Word) (s : State) :
    (barWriteLow ap v s).conf.write (s.cfg.cfgBar.get ap + 3) (lane v 3) = s.conf.wr32 (s.cfg.cfgBar.get ap) v := by
  simp only [barWriteLow, barWriteByte_conf, barWriteByte_cfg]
  rfl

theorem memEn_barWriteLow (v : Word) (hwf : s.cfg.wf = true) : memEn (barWriteLow ap v s) = memEn s := by
  have hcfg := fun (i : Nat) (x : Byte) (u : State) (hu : u.cfg.wf = true) => (barWriteByte_cfg ap i x u).symm ▸ hu
  rw [barWriteLow, memEn_barWriteByte ap _ (hcfg _ _ _ (hcfg _ _ _ hwf)) (by decide),
    memEn_barWriteByte ap _ (hcfg _ _ _ hwf) (by decide), memEn_barWriteByte ap _ hwf (by decide)]

theorem barWriteLow_other (v : Word) (s : State) {q : Aperture} (hq : q ≠ ap) :
    (barWriteLow ap v s).ap.get q = s.ap.get q := by
  simp only [barWriteLow, (barWriteByte_frame ap _ _ _).2 q hq]

end

/-- A BAR group that holds a nonzero dword reads as that dword (R150, R151). -/
theorem exec_cfgR32_bar {s : State} (hwf : s.cfg.wf = true) {ap : Aperture} {reg : BitVec 8} {v : Word}
    (hreg : reg.toNat = s.cfg.cfgBar.get ap) (hgroup : barGroup s ap = v) (hv : v ≠ 0) :
    exec (.cfgR32 reg) s = .next (s.setReply (.r32 v)) := by
  obtain ⟨h256, -⟩ := wf_bar hwf ap
  have hbyte : ∀ k, k < 4 → confByte (s.cfg.cfgBar.get ap + k) s = s.conf.read (s.cfg.cfgBar.get ap + k) := fun k hk => by
    rw [confByte_of_barAt_some (barAt_of_mem hwf ap (by omega) (by omega)), if_neg (hgroup ▸ hv)]
  rw [exec_cfgR32, finishRead_confRead, if_pos (by rw [hreg]; exact h256), hreg]
  have hreply : replyOf .w4 ((List.range 4).map (fun k => confByte (s.cfg.cfgBar.get ap + k) s)) = .r32 (barGroup s ap) := by
    rw [List.map_congr_left (fun k hk => hbyte k (List.mem_range.1 hk))]
    rfl
  rw [← hgroup, ← hreply]
  rfl

/-- Settles O45: the last byte commits the dword's base, and the group then holds the dword. -/
theorem barDwordMapsTheAperture : Obligations.BarDwordMapsTheAperture := by
  unfold Obligations.BarDwordMapsTheAperture
  intro s ap reg v hwf hreg hmem hbase
  let u := barWriteLow ap v s
  let t := barWriteByte ap 3 (lane v 3) u
  have hcfg : u.cfg = s.cfg := barWriteLow_cfg ap v s
  have hwfu : u.cfg.wf = true := hcfg ▸ hwf
  have htcfg : t.cfg = s.cfg := (barWriteByte_cfg ap 3 _ u).trans hcfg
  have hconf : t.conf = s.conf.wr32 (s.cfg.cfgBar.get ap) v := by
    rw [barWriteByte_conf, hcfg]
    exact barWriteLow_conf ap v s
  have hgroup : barGroup t ap = v := by
    rw [barGroup, hconf, htcfg, Mem.rd32_wr32_same]
  have hstored : barBase (u.setConf (u.cfg.cfgBar.get ap + 3) (lane v 3)) ap = v &&& baseMask ap := by
    rw [barBase, barGroup, State.setConf_conf, State.setConf_cfg, hcfg, barWriteLow_conf, Mem.rd32_wr32_same]
  have hon : memEn (u.setConf (u.cfg.cfgBar.get ap + 3) (lane v 3)) = true := by
    rw [memEn_setConf_bar hwfu ap (by decide), memEn_barWriteLow ap v hwf, hmem]
  refine ⟨t, exec_cfgW32_bar ap hwf hreg v, ?_, fun q hq => ?_,
    exec_cfgR32_bar (htcfg ▸ hwf) (by rw [htcfg, hreg]) hgroup (fun h => hbase (by rw [h]; exact BitVec.zero_and))⟩
  · show (barWriteByte ap 3 (lane v 3) u).ap.get ap = _
    rw [barWriteByte_high_of_base_ne (by rw [hstored]; exact hbase), (commit_of_memEn hon).1, hstored]
  · exact ((barWriteByte_frame ap 3 (lane v 3) u).2 q hq).trans (barWriteLow_other ap v s hq)

/-! ## The Linear aperture -/

/-- A Linear read collects the masked bytes and changes nothing, or is refused past the aperture's end (R164, R64). -/
theorem finishRead_linRead {s : State} (hwf : s.cfg.wf = true) (off : Nat) (n : Width) : finishRead n (linRead off n s) =
    if off + n.bytes ≤ s.cfg.linearSize
      then .next (s.setReply (replyOf n ((List.range n.bytes).map (fun k => s.vram.read ((off + k) % s.cfg.vramSize)))))
      else .refused .apertureEdge := by
  unfold linRead
  split
  next h => rw [if_neg (by omega), finishRead_error]
  next h =>
    have hbytes := readBytes_pure (f := linRead8) (g := fun a => s.vram.read (a % s.cfg.vramSize)) (s := s) n.bytes off
      (fun k _ => by rw [linRead8, linAddr_eq_mod hwf])
    rw [if_pos (by omega), hbytes, finishRead_ok]

/-- Settles O47, for each width. -/
theorem linearReadsVideoMemory : Obligations.LinearReadsVideoMemory := by
  unfold Obligations.LinearReadsVideoMemory
  intro s off hwf byteAt
  exact ⟨finishRead_linRead hwf off.toNat .w1, finishRead_linRead hwf off.toNat .w2, finishRead_linRead hwf off.toNat .w4⟩

/-- Bytes stored in video memory of `size` bytes from an offset on, each at its offset modulo the size (R164). -/
def linStore (size : Nat) : List Byte → Nat → Mem → Mem
  | [], _, m => m
  | v :: bs, off, m => linStore size bs (off + 1) (m.write (off % size) v)

/-- A Linear write inside the aperture stores its bytes and changes nothing else. -/
theorem writeBytes_linWrite8 : ∀ (bs : List Byte) (off : Nat) (s : State), s.cfg.wf = true →
    writeBytes linWrite8 bs off s = .ok (s.setVram (linStore s.cfg.vramSize bs off s.vram))
  | [], _, _, _ => rfl
  | v :: bs, off, s, hwf => by
    rw [writeBytes, linWrite8, linAddr_eq_mod hwf]
    exact writeBytes_linWrite8 bs (off + 1) (s.setVram _) hwf

theorem finish_linWrite {s : State} (hwf : s.cfg.wf = true) (off : Nat) (bs : List Byte) : finish (linWrite off bs s) =
    if off + bs.length ≤ s.cfg.linearSize
      then .next (s.setVram (linStore s.cfg.vramSize bs off s.vram)) else .refused .apertureEdge := by
  unfold linWrite
  split
  next h => rw [if_neg (by omega), finish_error]
  next h => rw [if_pos (by omega), writeBytes_linWrite8 bs off s hwf, finish_ok]

theorem linStore_other (size : Nat) : ∀ (bs : List Byte) (off : Nat) (m : Mem) {a : Nat},
    (∀ k, k < bs.length → a ≠ (off + k) % size) → (linStore size bs off m).read a = m.read a
  | [], _, _, _, _ => rfl
  | v :: bs, off, m, a, h => by
    have hlater : ∀ k, k < bs.length → a ≠ (off + 1 + k) % size := fun k hk => by
      have := h (k + 1) (by rw [List.length_cons]; omega)
      rwa [show off + (k + 1) = off + 1 + k by omega] at this
    rw [linStore, linStore_other size bs (off + 1) _ hlater]
    exact Mem.read_write_ne _ _ (h 0 (by simp))

/-- Offsets less than the size apart are different bytes of video memory. -/
theorem add_mod_ne {off j size : Nat} (h0 : 0 < j) (h : j < size) : off % size ≠ (off + j) % size := by
  intro e
  have hz := Nat.sub_mod_eq_zero_of_mod_eq e.symm
  rw [Nat.add_sub_cancel_left, Nat.mod_eq_of_lt h] at hz
  omega

/-- Each byte lands at its place when the access does not go round video memory. -/
theorem linStore_hit (size : Nat) : ∀ (bs : List Byte) (off : Nat) (m : Mem) {k : Nat}, bs.length ≤ size → k < bs.length →
    (linStore size bs off m).read ((off + k) % size) = bs.getD k 0
  | [], _, _, _, _, hk => by simp at hk
  | v :: bs, off, m, 0, hsize, _ => by
    rw [List.length_cons] at hsize
    have hlater : ∀ k, k < bs.length → off % size ≠ (off + 1 + k) % size := fun k hk => by
      rw [Nat.add_assoc]
      exact add_mod_ne (by omega) (by omega)
    have hkeep := linStore_other size bs (off + 1) (m.write (off % size) v) hlater
    rw [Mem.read_write_same] at hkeep
    exact hkeep
  | v :: bs, off, m, k + 1, hsize, hk => by
    rw [List.length_cons] at hsize hk
    rw [linStore, show off + (k + 1) = off + 1 + k by omega, linStore_hit size bs (off + 1) _ (by omega) (by omega)]
    rfl

/-- Settles O48: the bytes land at their offsets modulo the size, in order, and nothing else changes. -/
theorem linearWritesCountNothing : Obligations.LinearWritesCountNothing := by
  unfold Obligations.LinearWritesCountNothing
  intro s off hwf
  have h1 : ∀ v, exec (.linW8 off v) s = _ := fun v => finish_linWrite hwf off.toNat [v]
  have h2 : ∀ v, exec (.linW16 off v) s = _ := fun v => finish_linWrite hwf off.toNat (halfBytes v)
  have h4 : ∀ v, exec (.linW32 off v) s = _ := fun v => finish_linWrite hwf off.toNat (wordBytes v)
  refine ⟨fun v hin => ⟨_, (h1 v).trans (if_pos hin), rfl, fun a => Mem.read_write s.vram _ a v⟩,
    fun v hin => ⟨_, (h2 v).trans (if_pos hin), rfl, fun hsize k hk => ?_, fun a ha => ?_⟩,
    fun v hin => ⟨_, (h4 v).trans (if_pos hin), rfl, fun hsize k hk => ?_, fun a ha => ?_⟩,
    fun hout v => (h1 v).trans (if_neg (by rw [List.length_singleton]; omega)),
    fun hout v => (h2 v).trans (if_neg (by rw [halfBytes_length]; omega)),
    fun hout v => (h4 v).trans (if_neg (by rw [wordBytes_length]; omega))⟩
  · exact (linStore_hit _ (halfBytes v) _ _ hsize hk).trans (halfBytes_getD v hk)
  · exact linStore_other _ (halfBytes v) _ _ ha
  · exact (linStore_hit _ (wordBytes v) _ _ hsize hk).trans (wordBytes_getD v hk)
  · exact linStore_other _ (wordBytes v) _ _ ha

/-! ## The ROM aperture -/

/-- A ROM read returns the image's bytes and changes nothing, or is refused past the aperture's end (R165, R64). -/
theorem finishRead_romRead (off : Nat) (n : Width) (s : State) : finishRead n (romRead off n s) =
    if off + n.bytes ≤ s.cfg.romSize
      then .next (s.setReply (replyOf n ((List.range n.bytes).map (fun k => Config.romByte (off + k))))) else .refused .apertureEdge := by
  unfold romRead
  split
  next h => rw [if_neg (by omega), finishRead_error]
  next h =>
    have hbytes := readBytes_pure (f := romRead8) (g := Config.romByte) (s := s) n.bytes off (fun _ _ => rfl)
    rw [if_pos (by omega), hbytes, finishRead_ok]

theorem finish_romWrite (off : Nat) (n : Width) (s : State) : finish (romWrite off n s) =
    if off + n.bytes ≤ s.cfg.romSize then .next s else .refused .apertureEdge := by
  unfold romWrite
  split
  next h => rw [if_neg (by omega), finish_error]
  next h => rw [if_pos (by omega), finish_ok]

/-- Settles O49: of each width, inside the aperture and past its end. -/
theorem romReadsTheImageAndIgnoresWrites : Obligations.RomReadsTheImageAndIgnoresWrites := by
  unfold Obligations.RomReadsTheImageAndIgnoresWrites
  intro s off
  have hread := fun n => finishRead_romRead off.toNat n s
  have hwrite := fun n => finish_romWrite off.toNat n s
  refine ⟨fun h => ⟨(hread .w1).trans (if_pos h), fun _ => (hwrite .w1).trans (if_pos h)⟩,
    fun h => ⟨(hread .w2).trans (if_pos h), fun _ => (hwrite .w2).trans (if_pos h)⟩,
    fun h => ⟨(hread .w4).trans (if_pos h), fun _ => (hwrite .w4).trans (if_pos h)⟩,
    fun h => ⟨(hread .w1).trans (if_neg ?_), fun _ => (hwrite .w1).trans (if_neg ?_)⟩,
    fun h => ⟨(hread .w2).trans (if_neg ?_), fun _ => (hwrite .w2).trans (if_neg ?_)⟩,
    fun h => ⟨(hread .w4).trans (if_neg ?_), fun _ => (hwrite .w4).trans (if_neg ?_)⟩⟩ <;>
    exact Nat.not_le.2 h

end Sys2Proof.Machine
end

section
/-! Register-window accesses outside `THP_DATA` (spec/40_regbank.md R121 to R130) and the last bytes that load the bridge enable and
start the engines (spec/42_bridge_puma.md R191, spec/44_neighbour_engines.md R272 to R279). -/

namespace Sys2Proof.Machine

/-! ## Stored bytes -/

/-- A read of stored bytes inside the window returns them and changes nothing else (R121, R125). -/
theorem finishRead_mmioRead_stored {s : State} {o : Nat} {n : Width} (hin : o + n.bytes ≤ winSize)
    (h : ∀ k, k < n.bytes → storedOffset s.cfg (o + k)) : finishRead n (mmioRead o n s) =
      .next (s.setReply (replyOf n ((List.range n.bytes).map (fun k => s.rb.read (o + k))))) := by
  have hbytes := readBytes_pure (f := mmioRead8) (g := s.rb.read) (s := s) n.bytes o (fun k hk => mmioRead8_stored (h k hk))
  rw [mmioRead_inside s hin, hbytes, finishRead_ok]

/-- Settles O10, for each width. -/
theorem storedBytesRead : Obligations.StoredBytesRead := by
  unfold Obligations.StoredBytesRead
  exact fun s o => ⟨fun h => execMmioR8_stored h, fun hin h => finishRead_mmioRead_stored (n := .w2) hin h,
    fun hin h => finishRead_mmioRead_stored (n := .w4) hin h⟩

/-- The state after a window write that acts on nothing: another window, and the recalculate events of `n` bytes from `o` on. -/
def State.withWindow (s : State) (m : Mem) (o n : Nat) : State :=
  { s with rb := m, events := s.events ++ (List.range n).flatMap (fun k => recalcAt s.cfg (o + k)) }

/-- A window that holds `bs` from `o` on and is otherwise as it was. -/
def Stores (s : State) (o : Nat) (bs : List Byte) (m : Mem) : Prop :=
  ∀ a, m.read a = if o ≤ a ∧ a < o + bs.length then bs.getD (a - o) 0 else s.rb.read a

/-- A write of quiet bytes stores them, emits their recalculate events in order and changes nothing else (R126, R130). -/
theorem writeBytes_quiet_withWindow {s : State} {o : Nat} {bs : List Byte} (h : ∀ k, k < bs.length → quietOffset s.cfg (o + k)) :
    ∃ m, Stores s o bs m ∧ writeBytes mmioWrite8 bs o s = .ok (s.withWindow m o bs.length) := by
  obtain ⟨t, ht, hframe, hread⟩ := writeBytes_quiet bs o s h
  exact ⟨t.rb, hread, ht.trans (congrArg Except.ok hframe)⟩

theorem Stores.half {s : State} {o : Nat} {v : Half} {m : Mem} (h : Stores s o (halfBytes v) m) (a : Nat) :
    m.read a = if o ≤ a ∧ a < o + 2 then lane v (a - o) else s.rb.read a :=
  (h a).trans (if_ctx_congr Iff.rfl (fun ha => halfBytes_getD v (Nat.sub_lt_left_of_lt_add ha.1 ha.2)) (fun _ => rfl))

theorem Stores.word {s : State} {o : Nat} {v : Word} {m : Mem} (h : Stores s o (wordBytes v) m) (a : Nat) :
    m.read a = if o ≤ a ∧ a < o + 4 then lane v (a - o) else s.rb.read a :=
  (h a).trans (if_ctx_congr Iff.rfl (fun ha => wordBytes_getD v (Nat.sub_lt_left_of_lt_add ha.1 ha.2)) (fun _ => rfl))

/-- Settles O12: one byte is stored alone, and the wide writes are one fact about writes of any number of quiet bytes. -/
theorem quietWriteStoresItsBytes : Obligations.QuietWriteStoresItsBytes := by
  unfold Obligations.QuietWriteStoresItsBytes
  intro s o
  refine ⟨fun v h => ⟨s.storeByte o.toNat v, ?_, rfl, s.storeByte_read o.toNat v⟩, fun v hin h => ?_, fun v hin h => ?_⟩
  · rw [exec_mmioW8, mmioWrite8_quiet v h]
    rfl
  · obtain ⟨m, hm, hwrite⟩ := writeBytes_quiet_withWindow (bs := halfBytes v) h
    exact ⟨_, by rw [exec_mmioW16, mmioWrite_inside s hin, hwrite, finish_ok], rfl, hm.half⟩
  · obtain ⟨m, hm, hwrite⟩ := writeBytes_quiet_withWindow (bs := wordBytes v) h
    exact ⟨_, by rw [exec_mmioW32, mmioWrite_inside s hin, hwrite, finish_ok], rfl, hm.word⟩

/-! ## One byte of a field -/

/-- An action that starts no access and no job completes and leaves the window as stored (R123, R128). -/
theorem lastByteAction_leaves_window {f : RegField} (old v : Byte) (s : State) (hd : f.kind ≠ .thpData) (h2 : f.kind ≠ .trigD2)
    (h3 : f.kind ≠ .trigD3) : ∃ t, lastByteAction f old v s = .ok t ∧ t.cfg = s.cfg ∧ t.rb = s.rb := by
  cases hk : f.kind with
  | plain => exact ⟨s, lastByteAction_plain _ _ _ hk, rfl, rfl⟩
  | trigD2 => exact absurd hk h2
  | trigD3 => exact absurd hk h3
  | trigThpCtl =>
    refine ⟨_, lastByteAction_trigThpCtl _ _ _ hk, ?_⟩
    unfold thpCtrlTrigger
    split <;> exact ⟨rfl, rfl⟩
  | trigCfCfg => exact ⟨_, lastByteAction_cfCfg _ _ _ hk, rfl, rfl⟩
  | thpAddr => exact ⟨s, lastByteAction_thpAddr _ _ _ hk, rfl, rfl⟩
  | thpData => exact absurd hk hd
  | cfBottom => exact ⟨_, lastByteAction_cfBottom _ _ _ hk, rfl, rfl⟩
  | cfTop => exact ⟨_, lastByteAction_cfTop _ _ _ hk, rfl, rfl⟩
  | cfThresh => exact ⟨_, lastByteAction_cfThresh _ _ _ hk, rfl, rfl⟩

/-- A byte written to such a field is stored, whatever its place in the field, and no other byte of the window changes. -/
theorem exec_mmioW8_field {s : State} {o : BitVec 16} {f : RegField} {i : Nat} (v : Byte)
    (hf : fieldAt s.cfg o.toNat = some (f, i)) (hd : f.kind ≠ .thpData) (h2 : f.kind ≠ .trigD2) (h3 : f.kind ≠ .trigD3) :
    ∃ t, exec (.mmioW8 o v) s = .next t ∧ t.cfg = s.cfg ∧ t.rb = (s.storeByte o.toNat v).rb := by
  by_cases hl : i + 1 = f.width
  · obtain ⟨t, ht, hcfg, hrb⟩ := lastByteAction_leaves_window (s.rb.read o.toNat) v (s.storeByte o.toNat v) hd h2 h3
    exact ⟨t, exec_mmioW8_last hf hl ht, hcfg, hrb⟩
  · have hquiet : quietOffset s.cfg o.toNat := fun g j hg => by
      rw [hf] at hg
      cases hg
      exact .inl hl
    exact ⟨s.storeByte o.toNat v, by rw [exec_mmioW8, mmioWrite8_quiet v hquiet]; rfl, rfl, rfl⟩

/-- Settles O14: the write changes its byte of the window alone, and a byte of the field reads as stored. -/
theorem byteWritesAreIsolated : Obligations.ByteWritesAreIsolated := by
  unfold Obligations.ByteWritesAreIsolated
  intro s f o p v hwf hf hd h2 h3 ho1 ho2 hp1 hp2
  obtain ⟨t, ht, hcfg, hrb⟩ := exec_mmioW8_field v (fieldAt_of_mem hwf hf ho1 ho2) hd h2 h3
  have hstored : storedOffset t.cfg p.toNat := fun g j hg => by
    rw [hcfg, fieldAt_of_mem hwf hf hp1 hp2] at hg
    cases hg
    exact hd
  refine ⟨t, ht, (execMmioR8_stored hstored).trans ?_⟩
  rw [hrb, State.storeByte_read]
  simp only [BitVec.toNat_inj]

/-- Settles O15: the action follows the store, so the enable bit is that of the whole field as stored. -/
theorem thpControlLastByteLoadsEnable : Obligations.ThpControlLastByteLoadsEnable := by
  unfold Obligations.ThpControlLastByteLoadsEnable
  intro s o v f i hf hk hl
  refine ⟨thpCtrlTrigger f (s.storeByte o.toNat v), exec_mmioW8_last hf hl (lastByteAction_trigThpCtl _ _ _ hk), ?_⟩
  cases hp : s.cfg.companionPresent with
  | true =>
    have hload : thpCtrlTrigger f (s.storeByte o.toNat v) = { s.storeByte o.toNat v with
        bridgeEn := ((s.storeByte o.toNat v).fieldVal f).testBit s.cfg.thpEnBit } := if_pos hp
    rw [hload]
    exact ⟨s.storeByte_read o.toNat v, fun _ => rfl, fun h => by cases h⟩
  | false =>
    have hlog : thpCtrlTrigger f (s.storeByte o.toNat v) = (s.storeByte o.toNat v).log .bridgeNotConfigured :=
      if_neg (Bool.eq_false_iff.1 hp)
    rw [hlog]
    exact ⟨s.storeByte_read o.toNat v, fun h => (by cases h), fun _ => rfl⟩

/-! ## Jobs -/

theorem State.storeByte_cfg (s : State) (o : Nat) (v : Byte) : (s.storeByte o v).cfg = s.cfg := rfl

section
variable {s : State} {o : BitVec 16} {v : Byte} {f : RegField} {i : Nat}

/-- The window after a job that the last byte of its control field started: the byte is stored with its start bit cleared. -/
theorem read_storeByte_clearStart (hf : fieldAt s.cfg o.toNat = some (f, i)) (hl : i + 1 = f.width) (bit a : Nat) :
    ((s.storeByte o.toNat v).clearStartBit f bit).rb.read a = if a = o.toNat then clearStart bit v else s.rb.read a := by
  rw [State.clearStartBit, fieldAt_last hf hl, State.setRb_rb, Mem.read_write, State.storeByte_read, State.storeByte_read,
    if_pos rfl]
  split
  · rfl
  · rfl

/-- The write that starts a 2D job (R272 to R274). -/
theorem exec_mmioW8_d2_starts (hf : fieldAt s.cfg o.toNat = some (f, i)) (hk : f.kind = .trigD2) (hl : i + 1 = f.width)
    (hstart : s.d2Busy = false ∧ startOf s.cfg.d2StartBit (s.rb.read o.toNat) = false ∧ startOf s.cfg.d2StartBit v = true) :
    exec (.mmioW8 o v) s = .next (((s.storeByte o.toNat v).setVram (d2Run f (s.storeByte o.toNat v)).vram).clearStartBit f
      s.cfg.d2StartBit) := by
  refine exec_mmioW8_last hf hl ?_
  rw [lastByteAction_trigD2 _ _ _ hk, State.storeByte_cfg, d2Trigger_of_starts (s := s.storeByte o.toNat v) hstart]
  rfl

/-- A write that starts no 2D job only stores (R272). -/
theorem exec_mmioW8_d2_rests (hf : fieldAt s.cfg o.toNat = some (f, i)) (hk : f.kind = .trigD2) (hl : i + 1 = f.width)
    (hrest : ¬ (s.d2Busy = false ∧ startOf s.cfg.d2StartBit (s.rb.read o.toNat) = false ∧ startOf s.cfg.d2StartBit v = true)) :
    exec (.mmioW8 o v) s = .next (s.storeByte o.toNat v) := by
  refine exec_mmioW8_last hf hl ?_
  rw [lastByteAction_trigD2 _ _ _ hk, State.storeByte_cfg, d2Trigger_rests (s := s.storeByte o.toNat v) hrest]

/-- The write that starts a 3D job (R277 to R279). -/
theorem exec_mmioW8_d3_starts (hf : fieldAt s.cfg o.toNat = some (f, i)) (hk : f.kind = .trigD3) (hl : i + 1 = f.width)
    (hstart : s.d3Busy = false ∧ startOf s.cfg.d3StartBit (s.rb.read o.toNat) = false ∧ startOf s.cfg.d3StartBit v = true) :
    exec (.mmioW8 o v) s = .next ((((s.storeByte o.toNat v).setD3Batch (d3Capture (s.storeByte o.toNat v))).emit
      (.tri3DBatch (d3Capture (s.storeByte o.toNat v)))).clearStartBit f s.cfg.d3StartBit) := by
  refine exec_mmioW8_last hf hl ?_
  rw [lastByteAction_trigD3 _ _ _ hk, State.storeByte_cfg, d3Trigger_of_starts (s := s.storeByte o.toNat v) hstart]
  rfl

/-- A write that starts no 3D job only stores (R277). -/
theorem exec_mmioW8_d3_rests (hf : fieldAt s.cfg o.toNat = some (f, i)) (hk : f.kind = .trigD3) (hl : i + 1 = f.width)
    (hrest : ¬ (s.d3Busy = false ∧ startOf s.cfg.d3StartBit (s.rb.read o.toNat) = false ∧ startOf s.cfg.d3StartBit v = true)) :
    exec (.mmioW8 o v) s = .next (s.storeByte o.toNat v) := by
  refine exec_mmioW8_last hf hl ?_
  rw [lastByteAction_trigD3 _ _ _ hk, State.storeByte_cfg, d3Trigger_rests (s := s.storeByte o.toNat v) hrest]

end

/-- The field values after the store are those of the stored byte alone: the recalculate event is no field. -/
theorem idVal_storeByte (s : State) (o : Nat) (v : Byte) (id : FieldId) : (s.storeByte o v).idVal id = (s.setRb o v).idVal id :=
  State.idVal_congr rfl rfl id

theorem d2Run_vram_of_fill {f : RegField} {s : State} (h : s.idVal .d2Rop = s.cfg.ropFill) :
    (d2Run f s).vram = fillRows (fillJob f s) (fillJob f s).sizeY (fillJob f s).dstY s.vram := by
  rw [d2Run, if_pos h, State.setVram_vram]

theorem d2Run_of_other {f : RegField} {s : State} (h : s.idVal .d2Rop ≠ s.cfg.ropFill) : d2Run f s = s := if_neg h

theorem pixelShown_iff (j : FillJob) (x y : Nat) : pixelShown j x y = true ↔
    (j.clipOn = true → (j.clipL ≤ x ∧ x < j.clipR) ∧ (j.clipT ≤ y ∧ y < j.clipB)) := by
  unfold pixelShown
  cases j.clipOn <;> simp [and_assoc]

/-- Settles O18: the job is read after the store, and its rows colour exactly the shown pixels. -/
theorem fillColoursExactlyTheShownPixels : Obligations.FillColoursExactlyTheShownPixels := by
  unfold Obligations.FillColoursExactlyTheShownPixels
  intro s o v f i hf hk hl hbusy hold hnew w hrop clipOn shown addr
  let u := s.storeByte o.toNat v
  let j := fillJob f u
  have hvram : (d2Run f u).vram = fillRows j j.sizeY j.dstY s.vram :=
    d2Run_vram_of_fill (s := u) ((idVal_storeByte s o.toNat v .d2Rop).trans hrop)
  have hshown : ∀ x y, shown x y ↔ (j.dstX ≤ x ∧ x < j.dstX + j.sizeX) ∧ (j.dstY ≤ y ∧ y < j.dstY + j.sizeY)
      ∧ pixelShown j x y = true := fun x y => by
    rw [pixelShown_iff]
    exact Iff.rfl
  refine ⟨_, exec_mmioW8_d2_starts hf hk hl ⟨hbusy, hold, hnew⟩, rfl, read_storeByte_clearStart hf hl _, fun x y h => ?_,
    fun a ha => ?_⟩
  · obtain ⟨⟨hx1, hx2⟩, ⟨hy1, hy2⟩, hpix⟩ := (hshown x y).1 h
    exact (congrArg (Mem.read · _) hvram).trans (fillRows_hit j x y hpix hx1 hx2 _ _ _ hy1 hy2)
  · refine (congrArg (Mem.read · a) hvram).trans (fillRows_other j a _ _ _ fun x y hx1 hx2 hy1 hy2 hpix => ?_)
    exact ha x y ((hshown x y).2 ⟨⟨hx1, hx2⟩, ⟨hy1, hy2⟩, hpix⟩)

/-- Settles O19: a job that is no fill runs without drawing, and a write that starts none stores. -/
theorem otherRasterOpsAndNonStartsDrawNothing : Obligations.OtherRasterOpsAndNonStartsDrawNothing := by
  unfold Obligations.OtherRasterOpsAndNonStartsDrawNothing
  intro s o v f i hf hk hl starts
  refine ⟨fun hstart hrop => ?_, fun hrest => ⟨_, exec_mmioW8_d2_rests hf hk hl hrest, rfl, s.storeByte_read o.toNat v⟩⟩
  have hrun : d2Run f (s.storeByte o.toNat v) = s.storeByte o.toNat v :=
    d2Run_of_other (fun h => hrop ((idVal_storeByte s o.toNat v .d2Rop).symm.trans h))
  have hexec := exec_mmioW8_d2_starts hf hk hl hstart
  rw [hrun] at hexec
  exact ⟨_, hexec, rfl, read_storeByte_clearStart hf hl _⟩

/-- Settles O20: the block is captured after the store and before the start bit is cleared. -/
theorem triangleTriggerHandsOverTheBatch : Obligations.TriangleTriggerHandsOverTheBatch := by
  unfold Obligations.TriangleTriggerHandsOverTheBatch
  intro s o v f i hf hk hl starts block
  have hblock : d3Capture (s.storeByte o.toNat v) = block :=
    List.map_congr_left fun id _ => congrArg (Prod.mk id) (idVal_storeByte s o.toNat v id)
  refine ⟨fun hstart => ?_, fun hrest => ⟨_, exec_mmioW8_d3_rests hf hk hl hrest, rfl, s.storeByte_read o.toNat v⟩⟩
  have hexec := exec_mmioW8_d3_starts hf hk hl hstart
  rw [hblock] at hexec
  exact ⟨_, hexec, rfl, read_storeByte_clearStart hf hl _⟩

end Sys2Proof.Machine
end

section
/-! What only some operations change (spec/20_memory.md R79, spec/41_pci_aperture.md R170, spec/42_bridge_puma.md R206,
spec/10_state.md R43). -/

namespace Sys2Proof.Machine

/-! ## Configuration and mappings -/

/-- The configuration space and the mappings are as they were. -/
def SameConf (s t : State) : Prop := t.conf = s.conf ∧ t.ap = s.ap

section
variable {s t : State}

theorem SameConf.trans {u : State} (h1 : SameConf s t) (h2 : SameConf t u) : SameConf s u :=
  ⟨h2.1.trans h1.1, h2.2.trans h1.2⟩

theorem sameConf_mmioRead {o : Nat} {n : Width} {bs : List Byte} (h : mmioRead o n s = .ok (bs, t)) : SameConf s t := by
  rw [(mmioRead_frame h).1]
  exact ⟨rfl, rfl⟩

theorem sameConf_mmioWrite {o : Nat} {bs : List Byte} (h : mmioWrite o bs s = .ok t) : SameConf s t := by
  rw [(mmioWrite_frame h).1]
  exact ⟨rfl, rfl⟩

theorem sameConf_linWrite {o : Nat} {bs : List Byte} (h : linWrite o bs s = .ok t) : SameConf s t := by
  rw [linWrite_frame h]
  exact ⟨rfl, rfl⟩

theorem sameConf_bridgeRead {a v : Word} (h : bridgeRead a s = .ok (v, t)) : SameConf s t := by
  rw [bridgeRead_frame h]
  exact ⟨rfl, rfl⟩

theorem sameConf_bridgeWrite {a v : Word} (h : bridgeWrite a v s = .ok t) : SameConf s t := by
  rw [bridgeWrite_frame h]
  exact ⟨rfl, rfl⟩

/-- A read that changes no configuration returns its value without changing any. -/
theorem sameConf_finishRead {n : Width} {x : Except Refusal (List Byte × State)} (hx : ∀ {bs u}, x = .ok (bs, u) → SameConf s u)
    (h : finishRead n x = .next t) : SameConf s t := by
  obtain ⟨bs, u, e, rfl⟩ := finishRead_next h
  have hu := hx e
  exact hu

theorem sameConf_finishWord {x : Except Refusal (Word × State)} (hx : ∀ {v u}, x = .ok (v, u) → SameConf s u)
    (h : finishWord x = .next t) : SameConf s t := by
  obtain ⟨v, u, e, rfl⟩ := finishWord_next h
  have hu := hx e
  exact hu

theorem sameConf_of_eq (h : t = s) : SameConf s t := by
  subst h
  exact ⟨rfl, rfl⟩

theorem sameConf_compR32 {off : Word} (h : execCompR32 off s = .next t) : SameConf s t := by
  unfold execCompR32 at h
  split at h
  next => cases h
  next => exact sameConf_finishWord sameConf_bridgeRead h

theorem sameConf_compW32 {off v : Word} (h : execCompW32 off v s = .next t) : SameConf s t := by
  unfold execCompW32 at h
  split at h
  next => cases h
  next => exact sameConf_bridgeWrite (finish_next h)

theorem sameConf_thpRd {a : Word} (h : execThpRd a s = .next t) : SameConf s t := by
  unfold execThpRd at h
  split at h
  next =>
    split at h
    next => cases h
    next hw => exact (sameConf_mmioWrite hw).trans (sameConf_finishRead sameConf_mmioRead h)
  next => cases h

theorem sameConf_thpWr {a v : Word} (h : execThpWr a v s = .next t) : SameConf s t := by
  unfold execThpWr at h
  split at h
  next =>
    split at h
    next => cases h
    next hw => exact (sameConf_mmioWrite hw).trans (sameConf_mmioWrite (finish_next h))
  next => cases h

theorem sameConf_packet {i : Instr} {p : Packet} (hp : i.packet? = some p) (h : exec i s = .next t) : SameConf s t := by
  rw [exec_packet hp, takePacket_frame] at h
  cases h
  exact ⟨rfl, rfl⟩

end

/-- Settles O53, operation by operation: no other writes the configuration space or commits a mapping. -/
theorem onlyConfigurationWritesMoveApertures : Obligations.OnlyConfigurationWritesMoveApertures := by
  unfold Obligations.OnlyConfigurationWritesMoveApertures
  intro s t i h h8 h16 h32 hreset
  show SameConf s t
  cases i with
  | mmioR8 o => exact sameConf_finishRead sameConf_mmioRead h
  | mmioR16 o => exact sameConf_finishRead sameConf_mmioRead h
  | mmioR32 o => exact sameConf_finishRead sameConf_mmioRead h
  | mmioW8 o v => exact sameConf_mmioWrite (finish_next h)
  | mmioW16 o v => exact sameConf_mmioWrite (finish_next h)
  | mmioW32 o v => exact sameConf_mmioWrite (finish_next h)
  | linR8 off => exact sameConf_finishRead (fun e => sameConf_of_eq (linRead_same e)) h
  | linR16 off => exact sameConf_finishRead (fun e => sameConf_of_eq (linRead_same e)) h
  | linR32 off => exact sameConf_finishRead (fun e => sameConf_of_eq (linRead_same e)) h
  | linW8 off v => exact sameConf_linWrite (finish_next h)
  | linW16 off v => exact sameConf_linWrite (finish_next h)
  | linW32 off v => exact sameConf_linWrite (finish_next h)
  | romR8 off => exact sameConf_finishRead (fun e => sameConf_of_eq (romRead_same e)) h
  | romR16 off => exact sameConf_finishRead (fun e => sameConf_of_eq (romRead_same e)) h
  | romR32 off => exact sameConf_finishRead (fun e => sameConf_of_eq (romRead_same e)) h
  | romW8 off v => exact sameConf_of_eq (romWrite_same (finish_next h))
  | romW16 off v => exact sameConf_of_eq (romWrite_same (finish_next h))
  | romW32 off v => exact sameConf_of_eq (romWrite_same (finish_next h))
  | compR32 off => exact sameConf_compR32 h
  | compW32 off v => exact sameConf_compW32 h
  | cfgR8 reg => exact sameConf_finishRead (fun e => sameConf_of_eq (confRead_same e)) h
  | cfgR16 reg => exact sameConf_finishRead (fun e => sameConf_of_eq (confRead_same e)) h
  | cfgR32 reg => exact sameConf_finishRead (fun e => sameConf_of_eq (confRead_same e)) h
  | cfgW8 reg v => exact absurd rfl (h8 reg v)
  | cfgW16 reg v => exact absurd rfl (h16 reg v)
  | cfgW32 reg v => exact absurd rfl (h32 reg v)
  | pumaR32 a => exact sameConf_finishWord sameConf_bridgeRead h
  | pumaW32 a v => exact sameConf_bridgeWrite (finish_next h)
  | thpRd a => exact sameConf_thpRd h
  | thpWr a v => exact sameConf_thpWr h
  | reset => exact absurd rfl hreset
  | vsync =>
    cases h
    rw [swapTick_frame]
    exact ⟨rfl, rfl⟩
  | swapReq => cases h; exact ⟨rfl, rfl⟩
  | swapPend => cases h; exact ⟨rfl, rfl⟩
  | cfProcess =>
    cases h
    rw [cfProcess_frame]
    exact ⟨rfl, rfl⟩
  | nop => exact sameConf_packet rfl h
  | wrgRejected half reg lo => exact sameConf_packet rfl h
  | wrg half reg lo mask => exact sameConf_packet rfl h
  | wr half reg lo data => exact sameConf_packet rfl h

/-! ## Handshake flags -/

/-- A handshake flag that is set stays set. -/
def FlagsStay (s t : State) : Prop :=
  (s.thpRequest = true → t.thpRequest = true) ∧ (s.thpGrant = true → t.thpGrant = true)

theorem flagsStay_of_eq {s t : State} (h1 : t.thpRequest = s.thpRequest) (h2 : t.thpGrant = s.thpGrant) : FlagsStay s t := by
  unfold FlagsStay
  rw [h1, h2]
  exact ⟨id, id⟩

theorem closed_flagsStay : Closed FlagsStay where
  refl _ := ⟨id, id⟩
  trans _ _ _ h1 h2 := ⟨h2.1 ∘ h1.1, h2.2 ∘ h1.2⟩
  reply _ _ := flagsStay_of_eq rfl rfl
  mmioRead _ _ _ _ h := (mmioRead8_frame h).2
  mmioWrite _ _ _ _ _ h := (mmioWrite8_frame h).2
  linWrite _ _ _ := flagsStay_of_eq rfl rfl
  confWrite reg v s _ := by rw [(confWriteByte_frame reg v s).1]; exact flagsStay_of_eq rfl rfl
  bridgeRead _ _ _ _ h := by rw [bridgeRead_frame h]; exact flagsStay_of_eq rfl rfl
  bridgeWrite _ _ _ _ h := by rw [bridgeWrite_frame h]; exact flagsStay_of_eq rfl rfl
  vsync s := by rw [swapTick_frame]; exact flagsStay_of_eq rfl rfl
  swapReq _ := flagsStay_of_eq rfl rfl
  swapPend _ _ := flagsStay_of_eq rfl rfl

/-- Settles O54: packets and drains leave the flags, and every other operation but reset is a chain of accesses that do. -/
theorem onlyResetClearsHandshakeFlags : Obligations.OnlyResetClearsHandshakeFlags := by
  unfold Obligations.OnlyResetClearsHandshakeFlags
  intro s t i h hreset
  show FlagsStay s t
  cases hp : i.packet? with
  | some p =>
    rw [exec_packet hp, takePacket_frame] at h
    cases h
    exact flagsStay_of_eq rfl rfl
  | none =>
    refine closed_flagsStay.exec hp h (fun e => absurd e hreset) (fun _ => ?_)
    rw [cfProcess_frame]
    exact flagsStay_of_eq rfl rfl

/-! ## A device without a companion -/

/-- The parts of the state that are the companion's: its registers and texture memory, the bridge latch, the handshake flags, and the
drain's pointer, count and status bit (R43). -/
def companionPart (s : State) : Vector Word 256 × Mem × Bool × Bool × Bool × Word × Word × Bool :=
  (s.comp, s.tex, s.bridgeEn, s.thpRequest, s.thpGrant, s.cfReadPtr, s.cfEntryCount, s.cfThreshStatus)

/-- Without a companion its part of the state stays. -/
def Frozen (s t : State) : Prop :=
  t.cfg = s.cfg ∧ (s.cfg.companionPresent = false → companionPart t = companionPart s)

section
variable {s t : State}

theorem frozen_of_eq (hcfg : t.cfg = s.cfg) (h : companionPart t = companionPart s) : Frozen s t := ⟨hcfg, fun _ => h⟩

theorem not_bridgeOn (h : s.cfg.companionPresent = false) : ¬ bridgeOn s := fun hon => by
  rw [hon.1] at h
  cases h

theorem companionPart_bridgeWrite {a v : Word} (hnone : s.cfg.companionPresent = false) (h : bridgeWrite a v s = .ok t) :
    companionPart t = companionPart s := by
  rw [bridgeWrite_of_bridgeOff (not_bridgeOn hnone)] at h
  cases h
  rfl

theorem companionPart_mmioRead8 {o : Nat} {b : Byte} (hnone : s.cfg.companionPresent = false) (h : mmioRead8 o s = .ok (b, t)) :
    companionPart t = companionPart s := by
  have hread : ∀ {u}, thpIndirectRead s = .ok u → companionPart u = companionPart s := fun hu => by
    rw [thpIndirectRead, bridgeGate_off (not_bridgeOn hnone)] at hu
    cases hu
    rfl
  unfold mmioRead8 at h
  split at h
  next =>
    split at h
    next =>
      unfold thpDataReadByte at h
      split at h
      next =>
        split at h
        next => cases h
        next u hu => cases h; exact hread hu
      next => cases h; rfl
    next => cases h; rfl
  next => cases h; rfl

theorem companionPart_lastByteAction {f : RegField} {old v : Byte} (hnone : s.cfg.companionPresent = false)
    (h : lastByteAction f old v s = .ok t) : companionPart t = companionPart s := by
  cases hk : f.kind with
  | plain => rw [lastByteAction_plain _ _ _ hk] at h; cases h; rfl
  | trigD2 => rw [lastByteAction_trigD2 _ _ _ hk] at h; cases h; rw [d2Trigger_frame]; rfl
  | trigD3 => rw [lastByteAction_trigD3 _ _ _ hk] at h; cases h; rw [d3Trigger_frame]; rfl
  | trigThpCtl =>
    rw [lastByteAction_trigThpCtl _ _ _ hk] at h
    cases h
    rw [thpCtrlTrigger, if_neg (Bool.eq_false_iff.1 hnone)]
    rfl
  | trigCfCfg => rw [lastByteAction_cfCfg _ _ _ hk] at h; cases h; rfl
  | thpAddr => rw [lastByteAction_thpAddr _ _ _ hk] at h; cases h; rfl
  | thpData =>
    rw [lastByteAction_thpData _ _ _ hk, thpIndirectWrite, bridgeGate_off (not_bridgeOn hnone)] at h
    cases h
    rfl
  | cfBottom => rw [lastByteAction_cfBottom _ _ _ hk] at h; cases h; rfl
  | cfTop => rw [lastByteAction_cfTop _ _ _ hk] at h; cases h; rfl
  | cfThresh => rw [lastByteAction_cfThresh _ _ _ hk] at h; cases h; rfl

theorem companionPart_mmioWrite8 {o : Nat} {v : Byte} (hnone : s.cfg.companionPresent = false) (h : mmioWrite8 o v s = .ok t) :
    companionPart t = companionPart s := by
  rcases mmioWrite8_ok h with ⟨rfl, -⟩ | ⟨f, i, -, -, haction⟩
  · rfl
  · exact companionPart_lastByteAction (s := s.storeByte o v) hnone haction

end

theorem closed_frozen : Closed Frozen where
  refl _ := frozen_of_eq rfl rfl
  trans _ _ _ h1 h2 := ⟨h2.1.trans h1.1, fun hnone => (h2.2 (h1.1 ▸ hnone)).trans (h1.2 hnone)⟩
  reply _ _ := frozen_of_eq rfl rfl
  mmioRead _ _ _ _ h := ⟨by rw [(mmioRead8_frame h).1], fun hnone => companionPart_mmioRead8 hnone h⟩
  mmioWrite _ _ _ _ _ h := ⟨by rw [(mmioWrite8_frame h).1], fun hnone => companionPart_mmioWrite8 hnone h⟩
  linWrite _ _ _ := frozen_of_eq rfl rfl
  confWrite reg v s _ := by rw [(confWriteByte_frame reg v s).1]; exact frozen_of_eq rfl rfl
  bridgeRead _ _ _ _ h := by rw [bridgeRead_frame h]; exact frozen_of_eq rfl rfl
  bridgeWrite _ _ _ _ h := ⟨by rw [bridgeWrite_frame h], fun hnone => companionPart_bridgeWrite hnone h⟩
  vsync s := by rw [swapTick_frame]; exact frozen_of_eq rfl rfl
  swapReq _ := frozen_of_eq rfl rfl
  swapPend _ _ := frozen_of_eq rfl rfl

/-- Settles O55: without a companion the gate is shut and the control trigger only logs, so no access changes the companion's part. -/
theorem absentCompanionStateIsFrozen : Obligations.AbsentCompanionStateIsFrozen := by
  unfold Obligations.AbsentCompanionStateIsFrozen
  intro s t i hnone h hreset hdrain hp
  have hpart := (closed_frozen.exec hp h (fun e => absurd e hreset) (fun e => absurd e hdrain)).2 hnone
  simpa only [companionPart, Prod.mk.injEq] using hpart

end Sys2Proof.Machine
end

section
/-! THP accesses (spec/42_bridge_puma.md R201 to R208, spec/30_encoding.md R103): the bytes of `THP_ADDR` and the first three of
`THP_DATA` only store, the fourth makes the PUMA write; a read from the first byte of `THP_DATA` makes the PUMA read and the bytes after
it come from the stage. -/

namespace Sys2Proof.Machine

/-! ## The two fields -/

section
variable {c : Cfg} {f fa fd : RegField}

theorem thpData_exists (hwf : c.wf = true) : ∃ f ∈ c.fields, f.kind = .thpData := by
  obtain ⟨-, -, hkinds, -⟩ := wf_parts hwf
  simp only [Cfg.kindsOk, Bool.and_eq_true, List.all_eq_true, beq_iff_eq] at hkinds
  obtain ⟨⟨⟨hone, -⟩, -⟩, -⟩ := hkinds
  obtain ⟨f, hf⟩ := List.length_eq_one_iff.1 (hone .thpData (by simp))
  have hmem : f ∈ c.ofKind .thpData := hf ▸ List.mem_singleton_self f
  obtain ⟨hin, hk⟩ := List.mem_filter.1 hmem
  exact ⟨f, hin, beq_iff_eq.1 hk⟩

theorem thp_fieldAt (hwf : c.wf = true) (hf : f ∈ c.fields) (hk : f.kind = .thpAddr ∨ f.kind = .thpData) {i : Nat} (hi : i < 4) :
    fieldAt c (f.base + i) = some (f, i) := by
  have hwidth := wf_thp_width hwf hf hk
  rw [fieldAt_of_mem hwf hf (by omega) (by omega), Nat.add_sub_cancel_left]

theorem thp_inside (hwf : c.wf = true) (hf : f ∈ c.fields) (hk : f.kind = .thpAddr ∨ f.kind = .thpData) :
    f.base + 4 ≤ winSize := by
  obtain ⟨hin, -⟩ := wf_field hwf hf
  rwa [wf_thp_width hwf hf hk] at hin

theorem thp_apart (hwf : c.wf = true) (hfa : fa ∈ c.fields) (hka : fa.kind = .thpAddr) (hfd : fd ∈ c.fields)
    (hkd : fd.kind = .thpData) : fa.base + 4 ≤ fd.base ∨ fd.base + 4 ≤ fa.base := by
  have hwa := wf_thp_width hwf hfa (.inl hka)
  have hwd := wf_thp_width hwf hfd (.inr hkd)
  by_contra hover
  have heq := wf_field_unique hwf hfa hfd (o := max fa.base fd.base) (by omega) (by omega)
  rw [heq, hkd] at hka
  cases hka

end

section
variable {s : State} {fa fd : RegField}

theorem kindVal_thp {f : RegField} {k : FieldKind} (hwf : s.cfg.wf = true) (hf : f ∈ s.cfg.fields) (hk : f.kind = k)
    (hthp : k = .thpAddr ∨ k = .thpData) : BitVec.ofNat 32 (s.kindVal k) = s.rb.rd32 f.base := by
  have hplain : k ≠ .plain := by rcases hthp with rfl | rfl <;> decide
  rw [State.kindVal, fieldOfKind_of_mem hwf hf hk hplain, Option.map_some, Option.getD_some, State.fieldVal,
    wf_thp_width hwf hf (hk ▸ hthp), Mem.readLE_four]

theorem thpAddr_eq (hwf : s.cfg.wf = true) (hfa : fa ∈ s.cfg.fields) (hka : fa.kind = .thpAddr) :
    thpAddr s = s.rb.rd32 fa.base := kindVal_thp hwf hfa hka (.inl rfl)

theorem thpDataWord_eq (hwf : s.cfg.wf = true) (hfd : fd ∈ s.cfg.fields) (hkd : fd.kind = .thpData) :
    thpDataWord s = s.rb.rd32 fd.base := kindVal_thp hwf hfd hkd (.inr rfl)

/-- A memory that holds the lanes of a word holds the word. -/
theorem rd32_of_lanes {m : Mem} {i : Nat} {v : Word} (h : ∀ k, k < 4 → m.read (i + k) = lane v k) : m.rd32 i = v := by
  rw [Mem.rd32, show m.read i = lane v 0 from h 0 (by decide), h 1 (by decide), h 2 (by decide), h 3 (by decide), word_lanes]

theorem rd32_congr {m m' : Mem} {i : Nat} (h : ∀ k, k < 4 → m.read (i + k) = m'.read (i + k)) : m.rd32 i = m'.rd32 i := by
  rw [Mem.rd32, Mem.rd32, show m.read i = m'.read i from h 0 (by decide), h 1 (by decide), h 2 (by decide), h 3 (by decide)]

theorem rd32_of_stores {o : Nat} {v : Word} {m : Mem} (h : Stores s o (wordBytes v) m) : m.rd32 o = v :=
  rd32_of_lanes fun k hk => by rw [h.word, if_pos (by omega), Nat.add_sub_cancel_left]

/-! ## Writes of the two fields -/

/-- The address word is stored and nothing more (R123, R201). -/
theorem mmioWrite_thpAddr (hwf : s.cfg.wf = true) (hfa : fa ∈ s.cfg.fields) (hka : fa.kind = .thpAddr) (a : Word) :
    ∃ m, Stores s fa.base (wordBytes a) m ∧ mmioWrite fa.base (wordBytes a) s = .ok (s.withWindow m fa.base 4) := by
  rw [mmioWrite_inside s (thp_inside hwf hfa (.inl hka))]
  refine writeBytes_quiet_withWindow fun k hk f i hf => ?_
  rw [thp_fieldAt hwf hfa (.inl hka) hk] at hf
  cases hf
  exact .inr (.inr hka)

/-- A byte of `THP_DATA` that is not its last is quiet (R203). -/
theorem thpData_quiet (hwf : s.cfg.wf = true) (hfd : fd ∈ s.cfg.fields) (hkd : fd.kind = .thpData) {k : Nat} (hk : k < 3) :
    quietOffset s.cfg (fd.base + k) := by
  intro f i hf
  have hwidth := wf_thp_width hwf hfd (.inr hkd)
  rw [thp_fieldAt hwf hfd (.inr hkd) (by omega)] at hf
  cases hf
  exact .inl (by omega)

/-- The last byte of `THP_DATA` is stored and makes the PUMA write (R203). -/
theorem mmioWrite8_thpData_last (hwf : s.cfg.wf = true) (hfd : fd ∈ s.cfg.fields) (hkd : fd.kind = .thpData) (v : Byte) :
    mmioWrite8 (fd.base + 3) v s = thpIndirectWrite (s.storeByte (fd.base + 3) v) := by
  have hwidth := wf_thp_width hwf hfd (.inr hkd)
  rw [mmioWrite8_last v (thp_fieldAt hwf hfd (.inr hkd) (by decide)) (by omega), lastByteAction_thpData _ _ _ hkd]
  rfl

theorem writeBytes_append (g : Nat → Byte → State → Except Refusal State) (bs : List Byte) (v : Byte) (a : Nat) (s t : State)
    (h : writeBytes g bs a s = .ok t) : writeBytes g (bs ++ [v]) a s = g (a + bs.length) v t := by
  induction bs generalizing a s with
  | nil =>
    cases h
    rw [List.nil_append, writeBytes, List.length_nil]
    show _ = g a v t
    cases g a v t <;> rfl
  | cons b bs ih =>
    rw [writeBytes] at h
    rw [List.cons_append, writeBytes, List.length_cons]
    cases hb : g a b s with
    | error r =>
      rw [hb] at h
      cases h
    | ok u =>
      rw [hb] at h
      dsimp only at h ⊢
      rw [ih (a + 1) u h, Nat.add_assoc, Nat.add_comm 1]

theorem withWindow_storeByte (s : State) (m : Mem) (o n : Nat) (v : Byte) :
    (s.withWindow m o n).storeByte (o + n) v = s.withWindow (m.write (o + n) v) o (n + 1) := by
  unfold State.storeByte State.withWindow
  rw [List.range_succ, List.flatMap_append]
  simp

/-- The data word is stored, and its last byte makes the PUMA write (R201, R203). -/
theorem mmioWrite_thpData (hwf : s.cfg.wf = true) (hfd : fd ∈ s.cfg.fields) (hkd : fd.kind = .thpData) (v : Word) :
    ∃ m, Stores s fd.base (wordBytes v) m
      ∧ mmioWrite fd.base (wordBytes v) s = thpIndirectWrite (s.withWindow m fd.base 4) := by
  obtain ⟨m, hm, hlow⟩ := writeBytes_quiet_withWindow (s := s) (o := fd.base) (bs := [lane v 0, lane v 1, lane v 2])
    (fun k hk => thpData_quiet hwf hfd hkd hk)
  refine ⟨m.write (fd.base + 3) (lane v 3), fun b => ?_, ?_⟩
  · rw [Mem.read_write, hm b, wordBytes_length, List.length_cons, List.length_cons, List.length_cons, List.length_nil]
    by_cases h3 : b = fd.base + 3
    · subst h3
      rw [if_pos rfl, if_pos (by omega), wordBytes_getD v (by omega), Nat.add_sub_cancel_left]
    · rw [if_neg h3]
      by_cases hin : fd.base ≤ b ∧ b < fd.base + (0 + 1 + 1 + 1)
      · obtain ⟨k, rfl⟩ : ∃ k, b = fd.base + k := ⟨b - fd.base, by omega⟩
        have hk : k < 3 := by omega
        rw [if_pos hin, if_pos (by omega), wordBytes_getD v (by omega), Nat.add_sub_cancel_left]
        interval_cases k <;> rfl
      · rw [if_neg hin, if_neg (by omega)]
  · rw [mmioWrite_inside s (thp_inside hwf hfd (.inr hkd))]
    have happend := writeBytes_append mmioWrite8 _ (lane v 3) _ _ _ hlow
    refine happend.trans ((mmioWrite8_thpData_last (s := s.withWindow m fd.base 3) hwf hfd hkd (lane v 3)).trans ?_)
    rw [withWindow_storeByte]

/-! ## The PUMA write behind the window -/

/-- What follows the PUMA write of a THP access: the flags, or its refusal. -/
def thenHandshake : Result → Result
  | .next u => .next u.setHandshake
  | .fault r => .fault r
  | .refused r => .refused r

theorem finish_thpIndirectWrite_on {a v : Word} (hon : bridgeOn s) (ha : thpAddr s = a) (hv : thpDataWord s = v) :
    finish (thpIndirectWrite s) = thenHandshake (exec (.pumaW32 a v) s) := by
  rw [thpIndirectWrite, bridgeGate_eq_none.2 hon, ha, hv, exec_pumaW32_of_bridgeOn hon]
  cases pumaWrite a v s <;> rfl

theorem thpIndirectWrite_off (hoff : ¬ bridgeOn s) : thpIndirectWrite s =
    .ok (s.log (if s.cfg.companionPresent = true then .bridgeDisabled else .bridgeNotConfigured)) := by
  rw [thpIndirectWrite, bridgeGate_off hoff]

end

/-- The window after a THP write: both words stored. -/
def ThpStored (s : State) (fa fd : RegField) (a v : Word) (m : Mem) : Prop :=
  ∀ b, m.read b = if fa.base ≤ b ∧ b < fa.base + 4 then lane a (b - fa.base)
    else if fd.base ≤ b ∧ b < fd.base + 4 then lane v (b - fd.base) else s.rb.read b

/-- The state a THP write leaves before its PUMA access. -/
def State.withThp (s : State) (m : Mem) (fa fd : RegField) : State := { s with
  rb := m
  events := s.events ++ (List.range 4).flatMap (fun k => recalcAt s.cfg (fa.base + k))
    ++ (List.range 4).flatMap (fun k => recalcAt s.cfg (fd.base + k)) }

/-- A THP write stores its two words and makes one PUMA access, of the address and the word stored (R103, R201). -/
theorem exec_thpWr {s : State} {fa fd : RegField} (hwf : s.cfg.wf = true) (hfa : fa ∈ s.cfg.fields) (hka : fa.kind = .thpAddr)
    (hfd : fd ∈ s.cfg.fields) (hkd : fd.kind = .thpData) (a v : Word) :
    ∃ m, ThpStored s fa fd a v m ∧ exec (.thpWr a v) s = finish (thpIndirectWrite (s.withThp m fa fd))
      ∧ thpAddr (s.withThp m fa fd) = a ∧ thpDataWord (s.withThp m fa fd) = v := by
  obtain ⟨m1, hm1, hw1⟩ := mmioWrite_thpAddr hwf hfa hka a
  obtain ⟨m, hm, hw⟩ := mmioWrite_thpData (s := s.withWindow m1 fa.base 4) hwf hfd hkd v
  have hapart := thp_apart hwf hfa hka hfd hkd
  have hstored : ThpStored s fa fd a v m := fun b => by
    rw [hm.word b, show (s.withWindow m1 fa.base 4).rb.read b = m1.read b from rfl, hm1.word b]
    split
    next hd => rw [if_neg (by omega)]
    next => rfl
  have hexec : exec (.thpWr a v) s = finish (thpIndirectWrite (s.withThp m fa fd)) := by
    change execThpWr a v s = _
    rw [execThpWr, fieldOfKind_of_mem hwf hfa hka (by decide), fieldOfKind_of_mem hwf hfd hkd (by decide)]
    dsimp only
    rw [hw1]
    exact congrArg finish hw
  refine ⟨m, hstored, hexec, ?_, ?_⟩
  · rw [thpAddr_eq (s := s.withThp m fa fd) hwf hfa hka]
    exact rd32_of_lanes fun k hk => by
      rw [show (s.withThp m fa fd).rb = m from rfl, hstored, if_pos (by omega), Nat.add_sub_cancel_left]
  · rw [thpDataWord_eq (s := s.withThp m fa fd) hwf hfd hkd]
    exact rd32_of_stores hm

/-- Settles O29: both words are stored, and the outcome is that of the one PUMA write past or at the gate. -/
theorem thpWriteMakesOneAccess : Obligations.ThpWriteMakesOneAccess := by
  unfold Obligations.ThpWriteMakesOneAccess
  intro s a v fa fd hwf hfa hka hfd hkd stored ev
  obtain ⟨m, hstored, hexec, ha, hv⟩ := exec_thpWr hwf hfa hka hfd hkd a v
  have hon : bridgeOn s → exec (.thpWr a v) s = thenHandshake (exec (.pumaW32 a v) (s.withThp m fa fd)) := fun hon =>
    hexec.trans (finish_thpIndirectWrite_on (s := s.withThp m fa fd) hon ha hv)
  refine ⟨fun h => ⟨m, hstored, ?_⟩, fun r h hc => ?_, fun h hc => ?_, fun h => ?_⟩
  · rw [hon h]
    exact (rfl : thenHandshake (exec (.pumaW32 a v) (s.withThp m fa fd)) = _)
  · have hwrite := pumaWrite_reg (s := s.withThp m fa fd) hc v
    rw [exec_pumaW32_of_bridgeOn (s := s.withThp m fa fd) h, hwrite] at hon
    exact ⟨_, hon h, rfl, fun q => compRegWrite_compGet r q v (s.withThp m fa fd), hstored⟩
  · have hwrite := pumaWrite_invalid (s := s.withThp m fa fd) hc v
    rw [exec_pumaW32_of_bridgeOn (s := s.withThp m fa fd) h, hwrite] at hon
    exact ⟨_, hon h, rfl, hstored⟩
  · rw [thpIndirectWrite_off (s := s.withThp m fa fd) h] at hexec
    exact ⟨_, hexec, rfl, rfl, hstored⟩

/-! ## Reads of `THP_DATA` -/

section
variable {s : State} {fd : RegField}

theorem mmioRead8_thpData (hwf : s.cfg.wf = true) (hfd : fd ∈ s.cfg.fields) (hkd : fd.kind = .thpData) {i : Nat} (hi : i < 4) :
    mmioRead8 (fd.base + i) s = thpDataReadByte i s := by
  rw [mmioRead8, thp_fieldAt hwf hfd (.inr hkd) hi]
  exact if_pos hkd

/-- Reads from byte 1, 2 or 3 on come from the stage and perform no access (R204). -/
theorem readBytes_stage (hwf : s.cfg.wf = true) (hfd : fd ∈ s.cfg.fields) (hkd : fd.kind = .thpData) {i n : Nat} (hi : i ≠ 0)
    (hn : i + n ≤ 4) : readBytes mmioRead8 n (fd.base + i) s = .ok ((List.range n).map (fun k => lane s.thpStage (i + k)), s) := by
  have hbytes := readBytes_pure (f := mmioRead8) (g := fun b => lane s.thpStage (b - fd.base)) (s := s) n (fd.base + i)
    (fun k hk => by
      rw [Nat.add_assoc, mmioRead8_thpData hwf hfd hkd (by omega), Nat.add_sub_cancel_left]
      exact if_neg (by omega))
  simpa only [Nat.add_assoc, Nat.add_sub_cancel_left] using hbytes

theorem thpIndirectRead_cfg {t : State} (h : thpIndirectRead s = .ok t) : t.cfg = s.cfg := by
  unfold thpIndirectRead at h
  split at h
  next => cases h; rfl
  next =>
    split at h
    next => cases h
    next v u hu =>
      cases h
      show u.cfg = s.cfg
      rw [pumaRead_frame hu]

/-- A read from byte 0 on makes the access, and all its bytes are those of the staged word (R202, R204). -/
theorem readBytes_access {t : State} (hwf : s.cfg.wf = true) (hfd : fd ∈ s.cfg.fields) (hkd : fd.kind = .thpData)
    (h : thpIndirectRead s = .ok t) {n : Nat} (hn : n < 4) :
    readBytes mmioRead8 (n + 1) fd.base s = .ok ((List.range (n + 1)).map (lane t.thpStage), t) := by
  have hcfg := thpIndirectRead_cfg h
  have hfirst : mmioRead8 fd.base s = .ok (lane t.thpStage 0, t) := by
    refine (mmioRead8_thpData (i := 0) hwf hfd hkd (by decide)).trans ?_
    rw [thpDataReadByte, if_pos rfl, h]
  have hrest := readBytes_stage (s := t) (fd := fd) (n := n) (hcfg ▸ hwf) (hcfg ▸ hfd) hkd (by decide : 1 ≠ 0) (by omega)
  rw [readBytes, hfirst]
  dsimp only
  rw [hrest]
  simp only [List.range_succ_eq_map, List.map_cons, List.map_map, Nat.add_comm 1]
  rfl

theorem readBytes_access_refused {r : Refusal} (hwf : s.cfg.wf = true) (hfd : fd ∈ s.cfg.fields) (hkd : fd.kind = .thpData)
    (h : thpIndirectRead s = .error r) (n : Nat) : readBytes mmioRead8 (n + 1) fd.base s = .error r := by
  have hfirst : mmioRead8 fd.base s = .error r := by
    refine (mmioRead8_thpData (i := 0) hwf hfd hkd (by decide)).trans ?_
    rw [thpDataReadByte, if_pos rfl, h]
  rw [readBytes, hfirst]

/-- The value of each width that the lanes of a word make. -/
def lowReply : Width → Word → Reply
  | .w1, x => .r8 (x.extractLsb' 0 8)
  | .w2, x => .r16 (x.extractLsb' 0 16)
  | .w4, x => .r32 x

theorem replyOf_lanes (n : Width) (x : Word) : replyOf n ((List.range n.bytes).map (lane x)) = lowReply n x := by
  cases n with
  | w1 => rfl
  | w2 => exact congrArg Reply.r16 (half_lanes_at x 0)
  | w4 => exact congrArg Reply.r32 (word_lanes x)

/-- A window read of any width from byte 0 of `THP_DATA` returns the low bits of the staged word, or is refused with its access. -/
theorem finishRead_thpData {t : State} (hwf : s.cfg.wf = true) (hfd : fd ∈ s.cfg.fields) (hkd : fd.kind = .thpData)
    (h : thpIndirectRead s = .ok t) (n : Width) :
    finishRead n (mmioRead fd.base n s) = .next (t.setReply (lowReply n t.thpStage)) := by
  have hin := thp_inside hwf hfd (.inr hkd)
  obtain ⟨k, hk, h4⟩ : ∃ k, n.bytes = k + 1 ∧ k < 4 := by cases n <;> exact ⟨_, rfl, by decide⟩
  rw [mmioRead_inside s (by omega), hk, readBytes_access hwf hfd hkd h h4, finishRead_ok, ← hk, replyOf_lanes]

theorem finishRead_thpData_refused {r : Refusal} (hwf : s.cfg.wf = true) (hfd : fd ∈ s.cfg.fields) (hkd : fd.kind = .thpData)
    (h : thpIndirectRead s = .error r) (n : Width) : finishRead n (mmioRead fd.base n s) = .refused r := by
  have hin := thp_inside hwf hfd (.inr hkd)
  obtain ⟨k, hk, h4⟩ : ∃ k, n.bytes = k + 1 ∧ k < 4 := by cases n <;> exact ⟨_, rfl, by decide⟩
  rw [mmioRead_inside s (by omega), hk, readBytes_access_refused hwf hfd hkd h, finishRead_error]

/-! ## The PUMA read behind the window -/

/-- `x` is the word that the PUMA address `a` holds: a register, or an aligned framebuffer or texture word (R193). -/
def HoldsWord (s : State) (a x : Word) : Prop :=
  (∃ r, classify s.cfg a = .reg r ∧ x = compRegRead s r)
    ∨ (a.toNat % 4 = 0 ∧ classify s.cfg a = .fb ∧ x = s.vram.rd32 a.toNat)
    ∨ (a.toNat % 4 = 0 ∧ ∃ k, classify s.cfg a = .tex k ∧ x = s.tex.rd32 k)

theorem pumaRead_of_holdsWord {a x : Word} (h : HoldsWord s a x) : pumaRead a s = .ok (x, s) := by
  rcases h with ⟨r, hc, rfl⟩ | ⟨halign, hc, rfl⟩ | ⟨halign, k, hc, rfl⟩
  · exact pumaRead_reg hc
  · exact pumaRead_fb hc halign
  · exact pumaRead_tex hc halign

section
variable {a : Word}

theorem thpIndirectRead_word {x : Word} (hon : bridgeOn s) (ha : thpAddr s = a) (h : HoldsWord s a x) :
    thpIndirectRead s = .ok (s.setStage x).setHandshake := by
  rw [thpIndirectRead, bridgeGate_eq_none.2 hon, ha, pumaRead_of_holdsWord h]

theorem thpIndirectRead_invalid (hon : bridgeOn s) (ha : thpAddr s = a) (hc : classify s.cfg a = .invalid) :
    thpIndirectRead s = .ok ((s.log (.invalidAddress a)).setStage 0).setHandshake := by
  rw [thpIndirectRead, bridgeGate_eq_none.2 hon, ha, pumaRead_invalid hc]

theorem thpIndirectRead_misaligned (hon : bridgeOn s) (ha : thpAddr s = a) (halign : a.toNat % 4 ≠ 0)
    (hc : classify s.cfg a = .fb ∨ ∃ k, classify s.cfg a = .tex k) : thpIndirectRead s = .error .pumaMisaligned := by
  rw [thpIndirectRead, bridgeGate_eq_none.2 hon, ha, pumaRead_misaligned hc halign]

theorem thpIndirectRead_off (hoff : ¬ bridgeOn s) : thpIndirectRead s =
    .ok ((s.log (if s.cfg.companionPresent = true then .bridgeDisabled else .bridgeNotConfigured)).setStage 0) := by
  rw [thpIndirectRead, bridgeGate_off hoff]

end

end

/-- A THP read stores its address and reads `THP_DATA` whole, which makes one access of that address (R103, R202). -/
theorem exec_thpRd {s : State} {fa : RegField} (hwf : s.cfg.wf = true) (hfa : fa ∈ s.cfg.fields) (hka : fa.kind = .thpAddr)
    (a : Word) : ∃ m, Stores s fa.base (wordBytes a) m ∧ thpAddr (s.withWindow m fa.base 4) = a
      ∧ (∀ t, thpIndirectRead (s.withWindow m fa.base 4) = .ok t → exec (.thpRd a) s = .next (t.setReply (.r32 t.thpStage)))
      ∧ ∀ r, thpIndirectRead (s.withWindow m fa.base 4) = .error r → exec (.thpRd a) s = .refused r := by
  obtain ⟨fd, hfd, hkd⟩ := thpData_exists hwf
  obtain ⟨m, hm, hw⟩ := mmioWrite_thpAddr hwf hfa hka a
  have hexec : exec (.thpRd a) s = finishRead .w4 (mmioRead fd.base .w4 (s.withWindow m fa.base 4)) := by
    change execThpRd a s = _
    rw [execThpRd, fieldOfKind_of_mem hwf hfa hka (by decide), fieldOfKind_of_mem hwf hfd hkd (by decide)]
    dsimp only
    rw [hw]
  refine ⟨m, hm, ?_, fun t ht => ?_, fun r hr => ?_⟩
  · rw [thpAddr_eq (s := s.withWindow m fa.base 4) hwf hfa hka]
    exact rd32_of_stores hm
  · rw [hexec]
    exact finishRead_thpData (s := s.withWindow m fa.base 4) hwf hfd hkd ht .w4
  · rw [hexec]
    exact finishRead_thpData_refused (s := s.withWindow m fa.base 4) hwf hfd hkd hr .w4

/-- Settles O28: the address is stored, and the read's outcome is that of the one access of it. -/
theorem thpReadStagesTheResult : Obligations.ThpReadStagesTheResult := by
  unfold Obligations.ThpReadStagesTheResult
  intro s a fa hwf hfa hka ev
  obtain ⟨m, hm, ha, hok, hrefused⟩ := exec_thpRd hwf hfa hka a
  refine ⟨fun x hon hx => ?_, fun hon hc => ?_, fun hoff => ?_, fun hon halign hc => ?_⟩
  · exact ⟨_, hok _ (thpIndirectRead_word (s := s.withWindow m fa.base 4) hon ha hx), rfl, hm.word⟩
  · exact ⟨_, hok _ (thpIndirectRead_invalid (s := s.withWindow m fa.base 4) hon ha hc), rfl, hm.word⟩
  · exact ⟨_, hok _ (thpIndirectRead_off (s := s.withWindow m fa.base 4) hoff), rfl, rfl, hm.word⟩
  · exact hrefused _ (thpIndirectRead_misaligned (s := s.withWindow m fa.base 4) hon ha halign hc)

/-! ## Window accesses to `THP_DATA` -/

section
variable {s : State} {o : BitVec 16} {fd : RegField}

/-- The three widths of a read from byte 0. -/
theorem exec_mmioR_thpData {t : State} (hwf : s.cfg.wf = true) (hfd : fd ∈ s.cfg.fields) (hkd : fd.kind = .thpData)
    (ho : o.toNat = fd.base) (h : thpIndirectRead s = .ok t) :
    exec (.mmioR8 o) s = .next (t.setReply (.r8 (t.thpStage.extractLsb' 0 8)))
      ∧ exec (.mmioR16 o) s = .next (t.setReply (.r16 (t.thpStage.extractLsb' 0 16)))
      ∧ exec (.mmioR32 o) s = .next (t.setReply (.r32 t.thpStage)) := by
  have hread : ∀ n, finishRead n (mmioRead o.toNat n s) = .next (t.setReply (lowReply n t.thpStage)) := fun n => by
    rw [ho]
    exact finishRead_thpData hwf hfd hkd h n
  exact ⟨hread .w1, hread .w2, hread .w4⟩

theorem exec_mmioR_thpData_refused {r : Refusal} (hwf : s.cfg.wf = true) (hfd : fd ∈ s.cfg.fields) (hkd : fd.kind = .thpData)
    (ho : o.toNat = fd.base) (h : thpIndirectRead s = .error r) :
    exec (.mmioR8 o) s = .refused r ∧ exec (.mmioR16 o) s = .refused r ∧ exec (.mmioR32 o) s = .refused r := by
  have hread : ∀ n, finishRead n (mmioRead o.toNat n s) = .refused r := fun n => by
    rw [ho]
    exact finishRead_thpData_refused hwf hfd hkd h n
  exact ⟨hread .w1, hread .w2, hread .w4⟩

/-- Reads from byte 1, 2 or 3 on return the staged bytes and change nothing else (R204). -/
theorem finishRead_stage (hwf : s.cfg.wf = true) (hfd : fd ∈ s.cfg.fields) (hkd : fd.kind = .thpData) {i : Nat} {n : Width}
    (hi : i ≠ 0) (hn : i + n.bytes ≤ 4) : finishRead n (mmioRead (fd.base + i) n s) =
      .next (s.setReply (replyOf n ((List.range n.bytes).map (fun k => lane s.thpStage (i + k))))) := by
  have hin := thp_inside hwf hfd (.inr hkd)
  rw [mmioRead_inside s (by omega), readBytes_stage hwf hfd hkd hi hn, finishRead_ok]

end

/-- The word in `THP_DATA` after its last byte is stored: bytes 0 to 2 at their old values (R203). -/
theorem rd32_storeByte_last (s : State) (base : Nat) (v : Byte) : (s.storeByte (base + 3) v).rb.rd32 base =
    v ++ s.rb.read (base + 2) ++ s.rb.read (base + 1) ++ s.rb.read base := by
  rw [Mem.rd32, State.storeByte_read, State.storeByte_read, State.storeByte_read, State.storeByte_read, if_neg (by omega),
    if_neg (by omega), if_neg (by omega), if_pos rfl]
  rfl

/-- Settles O30: a read from byte 0 is its access, the later bytes are the stage's, and of the writes only that of byte 3 acts. -/
theorem thpDataAccesses : Obligations.ThpDataAccesses := by
  unfold Obligations.ThpDataAccesses
  intro s o fa fd i hwf hfa hka hfd hkd hi4 ho a off reads
  have ha : thpAddr s = a := thpAddr_eq hwf hfa hka
  have hbase : i = 0 → o.toNat = fd.base := fun hi => by rw [ho, hi, Nat.add_zero]
  have hlast : i = 3 → ∀ v, exec (.mmioW8 o v) s = finish (thpIndirectWrite (s.storeByte o.toNat v)) := fun hi v => by
    rw [exec_mmioW8, ho, hi, mmioWrite8_thpData_last hwf hfd hkd]
  have hlastOn : i = 3 → bridgeOn s → ∀ v, exec (.mmioW8 o v) s = thenHandshake (exec (.pumaW32 a
      (v ++ s.rb.read (fd.base + 2) ++ s.rb.read (fd.base + 1) ++ s.rb.read fd.base)) (s.storeByte o.toNat v)) := by
    intro hi hon v
    have hapart := thp_apart hwf hfa hka hfd hkd
    have ha' : thpAddr (s.storeByte o.toNat v) = a := by
      rw [thpAddr_eq (s := s.storeByte o.toNat v) hwf hfa hka]
      exact rd32_congr fun k hk => by rw [State.storeByte_read, if_neg (by omega)]
    have hv' : thpDataWord (s.storeByte o.toNat v) =
        v ++ s.rb.read (fd.base + 2) ++ s.rb.read (fd.base + 1) ++ s.rb.read fd.base := by
      rw [thpDataWord_eq (s := s.storeByte o.toNat v) hwf hfd hkd, ho, hi, rd32_storeByte_last]
    rw [hlast hi v]
    exact finish_thpIndirectWrite_on (s := s.storeByte o.toNat v) hon ha' hv'
  refine ⟨fun hi => ⟨?_, fun hi3 => ?_⟩, fun x hi hon hx => ?_, fun hi hon hc => ?_, fun hi hoff => ?_,
    fun v => ⟨s.rb.write o.toNat v, fun b => Mem.read_write _ _ _ _, fun hi3 => ?_, fun hi hon => ?_, fun hi hoff => ?_⟩,
    fun hon halign hc => ⟨fun hi => ?_, fun hi v => ?_⟩⟩
  · have hread := finishRead_stage (n := .w1) hwf hfd hkd hi hi4
    rw [← ho] at hread
    exact hread
  · have hread := finishRead_stage (n := .w2) hwf hfd hkd hi (by rw [Width.bytes]; omega)
    rw [← ho] at hread
    exact hread.trans (congrArg (fun x => Host.Outcome.next (s.setReply (.r16 x))) (half_lanes_at s.thpStage i))
  · exact exec_mmioR_thpData hwf hfd hkd (hbase hi) (thpIndirectRead_word hon ha hx)
  · exact exec_mmioR_thpData hwf hfd hkd (hbase hi) (thpIndirectRead_invalid hon ha hc)
  · exact exec_mmioR_thpData hwf hfd hkd (hbase hi) (thpIndirectRead_off hoff)
  · rw [exec_mmioW8, mmioWrite8_quiet v (ho ▸ thpData_quiet hwf hfd hkd (by omega)), finish_ok]
  · rw [hlastOn hi hon v]
    exact (rfl : thenHandshake (exec _ (s.storeByte o.toNat v)) = _)
  · rw [hlast hi v, thpIndirectWrite_off (s := s.storeByte o.toNat v) hoff]
    rfl
  · exact exec_mmioR_thpData_refused hwf hfd hkd (hbase hi) (thpIndirectRead_misaligned hon ha halign hc)
  · rw [hlastOn hi hon v, exec_pumaW32_of_bridgeOn (s := s.storeByte o.toNat v) hon,
      pumaWrite_misaligned (s := s.storeByte o.toNat v) hc halign]
    rfl

end Sys2Proof.Machine
end
